-- ==== Sys2Proof/Word.lean ====
section
/-! DEFINITION. The bit-vector types of the ISBIC codec core (spec/00_scope.md R4 to R6: every value is unsigned). -/

namespace Sys2Proof

/-- A register of the host window, an address or a length: `ADDR_W = LEN_W = REG_W = 32` (00_scope.md R4). -/
abbrev Word := BitVec 32

/-- A width, a height, a pitch or a cursor coordinate: 16 bits unsigned (00_scope.md R3, R4). -/
abbrev Half := BitVec 16

/-- One byte of host memory; one chunk or header byte of the stream (20_memory.md R62). -/
abbrev Byte := BitVec 8

/-- A pixel or a colour: one bit, with no photometric meaning (00_scope.md section 5). -/
abbrev Bit := BitVec 1

end Sys2Proof
end

