-- ==== Sys2Proof/Config.lean ====
section
/-! DEFINITION. The fixed parameters of the core (spec/00_scope.md R3) and the two values the spec leaves to a
model (93_implementation_defined.md I8, I25). The machine has no free value: 10_state.md R43 leaves no element unspecified. -/

namespace Sys2Proof.Config

/-- `MAX_RUN` (R3): the longest run one run detection counts. -/
abbrev maxRun : Nat := 71

/-- `LONG_BIAS` (R3): a LONG chunk holds its run length less 8. -/
abbrev longBias : Nat := 8

/-- `LONG_THRESHOLD` (R3): a run is coded LONG only when it is longer than this. -/
abbrev longThreshold : Nat := 8

/-- `UNCOMP_PIXELS` (R3): an UNCOMP chunk always encodes six pixels. -/
abbrev uncompPixels : Nat := 6

/-- `SHORT_RUN1_MAX` (R3). -/
abbrev shortRun1Max : Nat := 8

/-- `SHORT_RUN2_MAX` (R3). -/
abbrev shortRun2Max : Nat := 4

/-- `ECONOMY_THRESHOLD` (R3): UNCOMP is chosen when `run1 + run2` is below this. -/
abbrev economyThreshold : Nat := 7

/-- `MAGIC0` (R3): header byte 0. -/
abbrev magic0 : Byte := 0xFE#8

/-- `MAGIC1` (R3): header byte 1 without its colour bit 0. -/
abbrev magic1 : Byte := 0xEC#8

/-- `HEADER_LEN` (R3). -/
abbrev headerLen : Nat := 6

/-- `TAIL_SHORT_FIELD` (93_implementation_defined.md I8): the `r2 - 1` field of a SHORT chunk whose second run is empty.
0 is the spec's value (41_encoder.md R149, decision D18). -/
abbrev tailShortField : BitVec 2 := 0#2

/-- What a byte of host memory that nothing has written reads as. DESIGN CHOICE, unsafe (notes/assumptions/1.md):
the spec takes the contents of host memory as the model's input (I3, I25). -/
abbrev unlistedByte : Byte := 0x00#8

end Sys2Proof.Config
end

