-- ==== Sys2Proof/Syntax.lean ====
section
/-! DEFINITION. The encoded things of the block, one constructor for each row of spec/opcode_table.json: the three
chunk kinds (the decoder's instructions), the stream header and the seven commands. The operands are those of the
listing syntax (30_encoding.md R101, R102). -/

namespace Sys2Proof

inductive Instr where
  /-- `LONG c, n`: a run of `n` pixels of colour `c`, `n` in 8..71 (R91, R101). -/
  | long (c : Bit) (n : Nat)
  /-- `UNCOMP bbbbbb`: six literal pixels, bit 5 the first in raster order (R92, R101). -/
  | uncomp (p : BitVec 6)
  /-- `SHORT c, r1, r2`: `r1` pixels of `c` (1..8), then `r2` pixels of `1 - c` (1..4) (R93, R101). -/
  | short (c : Bit) (r1 r2 : Nat)
  /-- `HDR W, H, c0`: the six-byte stream header (R98, R101). -/
  | header (c0 : Bit) (w h : Half)
  /-- `CMD CUR_RESET` (R126). -/
  | curReset
  /-- `CMD CUR_READ` (R125). -/
  | curRead
  /-- `CMD ENC_INIT` (R152). -/
  | encInit
  /-- `CMD ENC_STEP` (R153). -/
  | encStep
  /-- `CMD ENC_RUN` (R154). -/
  | encRun
  /-- `CMD DEC_INIT` (R185). -/
  | decInit
  /-- `CMD DEC_PIXEL` (R188). -/
  | decPixel
  deriving DecidableEq, Repr

end Sys2Proof
end

