-- ==== Sys2Proof/WellFormed.lean ====
section
/-! DEFINITION. Which terms of `Instr` assemble: "an operand out of range does not assemble" (30_encoding.md R101). -/

namespace Sys2Proof

/-- The operand ranges of R101. A header's width and height and an UNCOMP's literal fit their types. -/
def Instr.wf : Instr → Bool
  | .long _ n => decide (8 ≤ n) && decide (n ≤ 71)
  | .uncomp _ => true
  | .short _ r1 r2 => decide (1 ≤ r1) && decide (r1 ≤ 8) && (decide (1 ≤ r2) && decide (r2 ≤ 4))
  | .header _ _ _ => true
  | .curReset => true
  | .curRead => true
  | .encInit => true
  | .encStep => true
  | .encRun => true
  | .decInit => true
  | .decPixel => true

end Sys2Proof
end

