-- ==== Sys2Proof/Decode.lean ====
section
/-! DEFINITION. The three encoded forms of 30_encoding.md (chunk byte, stream header, command word), their decoder,
total and rejecting by name, and the encoder written from the same layouts (R91, R92, R93, R96, R98). -/

namespace Sys2Proof

/-- An encoded form, as the hardware holds it: a stream byte, the first six stream bytes (offset 0 first), or the
word the host writes to CMD, which is accessed whole (20_memory.md R65). -/
inductive Code where
  | chunk (b : Byte)
  | header (b0 b1 b2 b3 b4 b5 : Byte)
  | command (w : Word)
  deriving DecidableEq, Repr

/-- Why a form decodes to nothing. Every chunk byte decodes (R94), so no reason concerns chunks. -/
inductive Reject where
  /-- Header byte 0 is not 0xFE (42_decoder.md R186). -/
  | badMagic0
  /-- Header byte 1, its low bit aside, is not 0xEC (R186). -/
  | badMagic1
  /-- Bits [31:8] of the command word are not all 0 (R97). -/
  | reservedBits
  /-- CODE is not in the table of R96 (R97). -/
  | unassignedCode
  deriving DecidableEq, Repr

/-- Bits [7:6] choose the kind (R90); the fields are zero-extended and biased as R100 lists. -/
def decodeChunk (b : Byte) : Instr :=
  if b.extractLsb' 7 1 = 0#1 then
    .long (b.extractLsb' 6 1) ((b.extractLsb' 0 6).toNat + Config.longBias)
  else if b.extractLsb' 6 1 = 0#1 then
    .uncomp (b.extractLsb' 0 6)
  else
    .short (b.extractLsb' 5 1) ((b.extractLsb' 2 3).toNat + 1) ((b.extractLsb' 0 2).toNat + 1)

/-- Header byte 1 carries the magic in its upper seven bits (R98, R186). -/
def isMagic1 (b1 : Byte) : Bool := b1 &&& 0xFE#8 == Config.magic1

/-- The header of R98: width and height are little-endian. -/
def decodeHeader (b0 b1 b2 b3 b4 b5 : Byte) : Except Reject Instr :=
  if b0 ≠ Config.magic0 then .error .badMagic0
  else if isMagic1 b1 then .ok (.header (b1.extractLsb' 0 1) (b3 ++ b2) (b5 ++ b4))
  else .error .badMagic1

/-- The command codes of R96; every other word is illegal (R97). -/
def decodeCommand (w : Word) : Except Reject Instr :=
  if w.extractLsb' 8 24 ≠ 0#24 then .error .reservedBits
  else if w = 0x01#32 then .ok .curReset
  else if w = 0x02#32 then .ok .curRead
  else if w = 0x10#32 then .ok .encInit
  else if w = 0x11#32 then .ok .encStep
  else if w = 0x12#32 then .ok .encRun
  else if w = 0x20#32 then .ok .decInit
  else if w = 0x21#32 then .ok .decPixel
  else .error .unassignedCode

def decode : Code → Except Reject Instr
  | .chunk b => .ok (decodeChunk b)
  | .header b0 b1 b2 b3 b4 b5 => decodeHeader b0 b1 b2 b3 b4 b5
  | .command w => decodeCommand w

/-! ### The encoder -/

/-- R91: `0 c nnnnnn`, with `n - 8` in bits 5..0. -/
def longByte (c : Bit) (n : Nat) : Byte := 0#1 ++ c ++ BitVec.ofNat 6 (n - Config.longBias)

/-- R92: `10 pppppp`. -/
def uncompByte (p : BitVec 6) : Byte := 2#2 ++ p

/-- R93: `11 c aaa bb`, with `r1 - 1` in bits 4..2; `field2` is the two-bit second field. -/
def shortFieldByte (c : Bit) (r1 : Nat) (field2 : BitVec 2) : Byte := 3#2 ++ c ++ BitVec.ofNat 3 (r1 - 1) ++ field2

/-- R93, with `r2 - 1` in bits 1..0. -/
def shortByte (c : Bit) (r1 r2 : Nat) : Byte := shortFieldByte c r1 (BitVec.ofNat 2 (r2 - 1))

/-- Header byte 1: `0xEC | c0` (R98). -/
def headerByte1 (c0 : Bit) : Byte := Config.magic1 ||| c0.setWidth 8

/-- The low byte of a 16-bit header integer. -/
def lowByte (v : Half) : Byte := v.extractLsb' 0 8

/-- The high byte of a 16-bit header integer. -/
def highByte (v : Half) : Byte := v.extractLsb' 8 8

/-- The encoded form of an instruction: R91 to R93, R96, R98. -/
def encode : Instr → Code
  | .long c n => .chunk (longByte c n)
  | .uncomp p => .chunk (uncompByte p)
  | .short c r1 r2 => .chunk (shortByte c r1 r2)
  | .header c0 w h => .header Config.magic0 (headerByte1 c0) (lowByte w) (highByte w) (lowByte h) (highByte h)
  | .curReset => .command 0x01#32
  | .curRead => .command 0x02#32
  | .encInit => .command 0x10#32
  | .encStep => .command 0x11#32
  | .encRun => .command 0x12#32
  | .decInit => .command 0x20#32
  | .decPixel => .command 0x21#32

/-- `ChunkPixels(b)` (R95): how many pixels a chunk byte decodes to. -/
def chunkPixels (b : Byte) : Nat :=
  if b.extractLsb' 7 1 = 0#1 then (b.extractLsb' 0 6).toNat + 8
  else if b.extractLsb' 6 1 = 0#1 then 6
  else (b.extractLsb' 2 3).toNat + 1 + ((b.extractLsb' 0 2).toNat + 1)

/-- The pixels a chunk byte decodes to, in order (the "Decoding" lines of R91, R92 and R93). -/
def chunkExpansion (b : Byte) : List Bit :=
  match decodeChunk b with
  | .long c n => List.replicate n c
  | .uncomp p =>
    [p.extractLsb' 5 1, p.extractLsb' 4 1, p.extractLsb' 3 1, p.extractLsb' 2 1, p.extractLsb' 1 1, p.extractLsb' 0 1]
  | .short c r1 r2 => List.replicate r1 c ++ List.replicate r2 (1#1 - c)
  | .header _ _ _ | .curReset | .curRead | .encInit | .encStep | .encRun | .decInit | .decPixel => []

/-! ### The opcode table's words -/

/-- Byte `k` of the number `w`, byte 0 the least significant. -/
def tableByte (w k : Nat) : Byte := BitVec.ofNat 8 (w / 256 ^ k)

/-- The six header bytes of a table word. The table reads the header as one big-endian number ("match/mask are over bytes
0..5 read as a big-endian 48-bit value"). A word that is no header in that reading is read with its first byte
lowest, the other rows' numbering (notes/assumptions/9.md). -/
def tableHeader (w : Nat) : Code :=
  if tableByte w 5 = Config.magic0 ∧ isMagic1 (tableByte w 4) = true then
    .header (tableByte w 5) (tableByte w 4) (tableByte w 3) (tableByte w 2) (tableByte w 1) (tableByte w 0)
  else
    .header (tableByte w 0) (tableByte w 1) (tableByte w 2) (tableByte w 3) (tableByte w 4) (tableByte w 5)

/-- The encoded form that an opcode-table row of `nbits` bits names: chunk8, header48 or cmd32. -/
def Code.ofTable (nbits w : Nat) : Option Code :=
  if nbits = 8 then some (.chunk (BitVec.ofNat 8 w))
  else if nbits = 32 then some (.command (BitVec.ofNat 32 w))
  else if nbits = 48 then some (tableHeader w)
  else none

/-- The instruction the decoder reads from a table row's bits. -/
def decodeTableWord (nbits w : Nat) : Option Instr :=
  match Code.ofTable nbits w with
  | none => none
  | some code => (decode code).toOption

end Sys2Proof
end

