-- ==== Sys2Proof/Machine/State.lean ====
section
/-! DEFINITION. The state of one core (spec/10_state.md R20 to R43) as plain data, with the host memory and the host's
pending accesses beside it, the state after reset, and the reasons a step stops. -/

namespace Sys2Proof.Machine

/-- `enc.phase` (10_state.md R30). -/
inductive EncPhase where
  | idle
  | running
  | done
  deriving DecidableEq, Repr

/-- `dec.state` (R32, 42_decoder.md R180). -/
inductive DecMode where
  | uninitialized
  | ready
  | exhausted
  deriving DecidableEq, Repr

/-- The contents of STATUS.FAULT (60_exceptions.md R221). Codes 8 to 15 are never produced. -/
inductive FaultCode where
  | none
  | param
  | outOverflow
  | streamOverrun
  | illegalCmd
  | decNotReady
  | encNotReady
  | busyViolation
  deriving DecidableEq, Repr

/-- Host memory (20_memory.md R60): the listed bytes, addresses rising; every other address reads as
`Config.unlistedByte`. -/
abbrev Memory := List Host.Cell

/-- One access of the host agent (00_scope.md R2; 30_encoding.md R102): a register write, a register read, a write of
a byte of host memory, or the reset input (70_reset_and_hazards.md R260). `bytes` is the width of a register access. -/
inductive HostAccess where
  | regWrite (off bytes : Nat) (v : Word)
  | regRead (off bytes : Nat)
  | memWrite (a : Word) (v : Byte)
  | reset
  deriving DecidableEq, Repr

/-- The host agent's side of the interface, the model's own (notes/assumptions/2.md): its accesses still to come, the
next one first, and the word its last register read returned. -/
structure HostSide where
  pending : List HostAccess
  lastRead : Option Word
  deriving DecidableEq, Repr

/-- The encoder's elements of R20. `x` and `y` are the pixel cursor (R26). -/
structure EncState where
  x : Half
  y : Half
  phase : EncPhase
  outLen : Word
  curPixel : Bit
  deriving DecidableEq, Repr

/-- The decoder's elements (R32). `ptr` is the block's program counter (R33). -/
structure DecState where
  state : DecMode
  w : Half
  h : Half
  startColor : Bit
  base : Word
  limit : Word
  ptr : Word
  chunk : Byte
  len : BitVec 7
  len2 : BitVec 3
  color : Bit
  x : Half
  y : Half
  pixel : Bit
  deriving DecidableEq, Repr

/-- The state of R20: the registers that hold state (R21), the two units, STATUS's stored bits (R24), and beside them
host memory and the host agent. `rasterPitch` holds PITCH [15:0]; its other bits are reserved (R25). -/
structure State where
  rasterBase : Word
  rasterDim : Word
  rasterPitch : Half
  outBase : Word
  outCap : Word
  streamBase : Word
  streamLen : Word
  enc : EncState
  dec : DecState
  busy : Bool
  invalidFormat : Bool
  fault : FaultCode
  mem : Memory
  host : HostSide
  deriving DecidableEq, Repr

/-- Why the model stops with a fault. The block's own faults are none of these: they are values of STATUS.FAULT, and the
machine goes on (60_exceptions.md R223, R224; notes/assumptions/3.md). -/
inductive Fault where
  /-- Raised by a host register access at or past offset 0x60: the window has 24 registers at 0x00 to 0x5C (R21), so no
  such register exists. Safe: the model stops (notes/assumptions/4.md). -/
  | outsideWindow (off : Nat)
  deriving DecidableEq, Repr

/-- Why the model has no step. -/
inductive Refusal where
  /-- Raised by `exec` for an instruction that has no meaning yet; no arm raises it. Safe. -/
  | notModelled (mnemonic : String)
  /-- Raised by a host register access that is not 32 bits wide or not at a multiple of 4: "the model refuses any other
  register access" (20_memory.md R63). Safe. -/
  | registerAccess (off bytes : Nat)
  /-- Raised by ENC_INIT, ENC_STEP and ENC_RUN when a byte they would write lies in the raster region: "the command has
  no step" (20_memory.md R74). Safe. -/
  | rasterOverlap
  deriving DecidableEq, Repr

/-- The encoder's reset values (R43). -/
def EncState.reset : EncState where
  x := 0#16
  y := 0#16
  phase := .idle
  outLen := 0#32
  curPixel := 0#1

/-- The decoder's reset values (R43). -/
def DecState.reset : DecState where
  state := .uninitialized
  w := 0#16
  h := 0#16
  startColor := 0#1
  base := 0#32
  limit := 0#32
  ptr := 0#32
  chunk := 0#8
  len := 0#7
  len2 := 0#3
  color := 0#1
  x := 0#16
  y := 0#16
  pixel := 0#1

/-- The machine right after power-on, which is a reset (70_reset_and_hazards.md R260, R261; 10_state.md R43): host memory
lists nothing and the host has nothing pending. -/
def State.reset : State where
  rasterBase := 0#32
  rasterDim := 0#32
  rasterPitch := 0#16
  outBase := 0#32
  outCap := 0#32
  streamBase := 0#32
  streamLen := 0#32
  enc := EncState.reset
  dec := DecState.reset
  busy := false
  invalidFormat := false
  fault := .none
  mem := []
  host := { pending := [], lastRead := none }

end Sys2Proof.Machine
end

