-- ==== Sys2Proof/Machine/Ops.lean ====
section
/-! DEFINITION. The operations the commands share: host memory by bytes (spec/20_memory.md), raising a fault and the
reset that alone clears it (60_exceptions.md R223, R225), the end of a command, and the output cursor's, the stream's
and the chunk loader's steps (42_decoder.md). -/

namespace Sys2Proof.Machine

/-! ### Host memory -/

/-- The byte at address `a`. -/
def Memory.read : Memory → Nat → Byte
  | [], _ => Config.unlistedByte
  | (k, b) :: m, a => if k = a then b else Memory.read m a

/-- Put `v` at address `a`, keeping the canonical form: a byte equal to what an unlisted address reads as is not listed. -/
def Memory.write : Memory → Nat → Byte → Memory
  | [], a, v => if v = Config.unlistedByte then [] else [(a, v)]
  | (k, b) :: m, a, v =>
    if a < k then
      if v = Config.unlistedByte then (k, b) :: m else (a, v) :: (k, b) :: m
    else if a = k then
      if v = Config.unlistedByte then m else (a, v) :: m
    else (k, b) :: Memory.write m a v

/-- Every listed address is at least `lo`, below 2^32 and above the one before it, and lists no unlisted value. -/
def Memory.wfFrom : Nat → Memory → Bool
  | _, [] => true
  | lo, (k, b) :: m => decide (lo ≤ k) && decide (k < 2 ^ 32) && decide (b ≠ Config.unlistedByte) && Memory.wfFrom (k + 1) m

/-- The canonical form: equal memories are equal lists. -/
def Memory.wf (m : Memory) : Bool := Memory.wfFrom 0 m

/-- `MemRead(addr, 1)` (00_scope.md R7): the only read width (20_memory.md R62). -/
def memRead (s : State) (a : Word) : Byte := s.mem.read a.toNat

/-- `MemWrite(addr, 1, v)` (00_scope.md R7). -/
def memWrite (a : Word) (v : Byte) (s : State) : State := { s with mem := s.mem.write a.toNat v }

/-- A host memory address: `(base + offset) mod 2^32` (20_memory.md R64). -/
def byteAddr (base : Word) (offset : Nat) : Word := base + BitVec.ofNat 32 offset

/-! ### Faults, reset and the end of a command -/

/-- `raise Fault(c)`: STATUS.FAULT <- c and nothing else changes (60_exceptions.md R223). Nothing is saved elsewhere and
control goes nowhere, so the machine goes on in the state this leaves. -/
def raiseFault (c : FaultCode) (s : State) : Host.Outcome State Fault Refusal := .next { s with fault := c }

/-- Reset, the only return from a fault (R225): every element of R20 to its reset value; host memory does not change
(70_reset_and_hazards.md R260), nor does the host agent. -/
def resetBlock (s : State) : State := { State.reset with mem := s.mem, host := s.host }

/-- A command that completes without a fault and found no bad magic clears STATUS.INVALID_FORMAT (60_exceptions.md R226). -/
def completed (s : State) : State := { s with invalidFormat := false }

/-- A DEC_INIT that finds bad magic sets STATUS.INVALID_FORMAT and changes nothing else (42_decoder.md R186). -/
def badMagic (s : State) : State := { s with invalidFormat := true }

/-- Write the bytes `bs` at `base + k`, `base + k + 1` and so on, in order. -/
def writeBytes (base : Word) : Nat → List Byte → State → State
  | _, [], s => s
  | k, b :: bs, s => writeBytes base (k + 1) bs (memWrite (byteAddr base k) b s)

/-! ### The decoder's chunk loads (42_decoder.md R182 to R184) -/

/-- R182. The chunk byte is the one the operands encode. -/
def loadLong (c : Bit) (n : Nat) (d : DecState) : DecState :=
  { d with chunk := longByte c n, len := BitVec.ofNat 7 n, len2 := 0#3, color := c }

/-- R183: the colour is left alone. -/
def loadUncomp (p : BitVec 6) (d : DecState) : DecState :=
  { d with chunk := uncompByte p, len := BitVec.ofNat 7 Config.uncompPixels, len2 := 0#3 }

/-- R184. -/
def loadShort (c : Bit) (r1 r2 : Nat) (d : DecState) : DecState :=
  { d with chunk := shortByte c r1 r2, len := BitVec.ofNat 7 r1, len2 := BitVec.ofNat 3 r2, color := c }

/-- `LoadChunk(b)` (R184): the load that matches the kind of b. A byte decodes to a chunk only (R94). -/
def loadChunk (b : Byte) (d : DecState) : DecState :=
  match decodeChunk b with
  | .long c n => loadLong c n d
  | .uncomp p => loadUncomp p d
  | .short c r1 r2 => loadShort c r1 r2 d
  | .header _ _ _ | .curReset | .curRead | .encInit | .encStep | .encRun | .decInit | .decPixel => d

/-- The stream byte at `dec.ptr` (R181). -/
def streamByte (s : State) : Byte := memRead s (byteAddr s.dec.base s.dec.ptr.toNat)

/-- Step 1 of DEC_PIXEL has to load a chunk: both counters have run out (R188). -/
def DecState.needsChunk (d : DecState) : Bool := d.len == 0#7 && d.len2 == 0#3

/-! ### Pixel production (42_decoder.md R189 to R192) -/

/-- R189. -/
def longPixel (d : DecState) : DecState := { d with pixel := d.color, len := d.len - 1#7 }

/-- R190: bit `len - 1` of the chunk. -/
def uncompPixel (d : DecState) : DecState :=
  { d with pixel := (d.chunk >>> (d.len.toNat - 1)).extractLsb' 0 1, len := d.len - 1#7 }

/-- R191. -/
def shortPixel (d : DecState) : DecState :=
  if 0#7 < d.len then { d with pixel := d.color, len := d.len - 1#7 }
  else { d with pixel := 1#1 - d.color, len2 := d.len2 - 1#3 }

/-- Step 2 of DEC_PIXEL: the kind of the chunk byte decides (R188). -/
def producePixel (d : DecState) : DecState :=
  if d.chunk.extractLsb' 7 1 = 0#1 then longPixel d
  else if d.chunk.extractLsb' 6 1 = 0#1 then uncompPixel d
  else shortPixel d

/-- `AdvanceOutput()` (R192). -/
def advanceOutput (d : DecState) : DecState :=
  let d1 := if d.x + 1#16 = d.w then { d with x := 0#16, y := d.y + 1#16 } else { d with x := d.x + 1#16 }
  if d1.h ≤ d1.y then { d1 with state := .exhausted } else d1

/-! ### The encoder's cursor (40_cursor.md R126, R127) -/

/-- The host's geometry writes and CUR_RESET put the cursor at (0,0). -/
def EncState.atOrigin (e : EncState) : EncState := { e with x := 0#16, y := 0#16 }

end Sys2Proof.Machine
end

