-- ==== Sys2Proof/Machine/Operands.lean ====
section
/-! DEFINITION. The operands of the commands: the raster geometry and the helpers of spec/00_scope.md R8, the cursor's
address calculation and moves (40_cursor.md R121 to R128), run detection (41_encoder.md R142) and the regions of
20_memory.md R61. Arithmetic on positions is on natural numbers (00_scope.md R6). -/

namespace Sys2Proof.Machine

/-! ### Geometry -/

/-- RASTER_DIM.WIDTH (10_state.md R25). -/
def State.widthField (s : State) : Half := s.rasterDim.extractLsb' 0 16

/-- RASTER_DIM.HEIGHT (R25). -/
def State.heightField (s : State) : Half := s.rasterDim.extractLsb' 16 16

/-- `W` (00_scope.md R8). -/
def State.W (s : State) : Nat := s.widthField.toNat

/-- `H` (R8). -/
def State.H (s : State) : Nat := s.heightField.toNat

/-- `P` (R8). -/
def State.P (s : State) : Nat := s.rasterPitch.toNat

/-- `N = W * H`: the number of pixels in the raster (R8). -/
def State.N (s : State) : Nat := s.W * s.H

/-- `AtEnd(x, y)` (R8; 40_cursor.md R122). -/
def State.atEnd (s : State) (_x y : Nat) : Bool := decide (s.H ≤ y) || decide (s.W = 0)

/-- `AtEnd(enc.x, enc.y)`. -/
def State.cursorAtEnd (s : State) : Bool := s.atEnd s.enc.x.toNat s.enc.y.toNat

/-- `Lin(enc.x, enc.y)` (R8). -/
def State.cursorLin (s : State) : Nat := s.enc.y.toNat * s.W + s.enc.x.toNat

/-! ### Pixels -/

/-- `addr(x, y)` (40_cursor.md R121). -/
def pixelAddr (s : State) (x y : Nat) : Word := byteAddr s.rasterBase (x / 8 + y * s.P)

/-- `bit(x) = 7 - (x mod 8)` (R121). -/
def pixelBit (x : Nat) : Nat := 7 - x % 8

/-- `PixelAt(x, y)` (R121). -/
def pixelAt (s : State) (x y : Nat) : Bit := (memRead s (pixelAddr s x y) >>> pixelBit x).extractLsb' 0 1

/-- `Pix(i)`: the pixel at raster position `i`, 0 past the last one, where no memory is read (R8; 40_cursor.md R123). -/
def pix (s : State) (i : Nat) : Bit := if s.N ≤ i then 0#1 else pixelAt s (i % s.W) (i / s.W)

/-! ### Cursor moves -/

/-- Advance (40_cursor.md R124). -/
def advanceCursor (s : State) : State :=
  if s.enc.x.toNat + 1 = s.W then { s with enc := { s.enc with x := 0#16, y := s.enc.y + 1#16 } }
  else { s with enc := { s.enc with x := s.enc.x + 1#16 } }

/-- `SetLin(i)` (R127). -/
def setLin (i : Nat) (s : State) : State :=
  { s with enc := { s.enc with x := BitVec.ofNat 16 (i % s.W), y := BitVec.ofNat 16 (i / s.W) } }

/-- `Rewind(k)` (R128). -/
def rewind (k : Nat) (s : State) : State := setLin (s.cursorLin - k) s

/-! ### Run detection (41_encoder.md R142) -/

/-- How many of the positions `i`, `i + 1`, ... hold a real pixel of colour `c`, up to `cap` of them. -/
def runLength (s : State) (c : Bit) : Nat → Nat → Nat
  | 0, _ => 0
  | cap + 1, i => if i < s.N ∧ pix s i = c then runLength s c cap (i + 1) + 1 else 0

/-- `run` of `RunDetect(i0)`: the largest `k` up to 71 and up to `N - i0` such that the pixels `i0 .. i0 + k - 1` all
have the colour of `i0`. -/
def runDetect (s : State) (i0 : Nat) : Nat := runLength s (pix s i0) Config.maxRun i0

/-- `color` of `RunDetect(i0)`: 0 at the end, where `pix` is the sentinel. -/
def runColor (s : State) (i0 : Nat) : Bit := pix s i0

/-- The six literal pixels at `i0 .. i0 + 5`, the first in bit 5 (R147). -/
def uncompLiteral (s : State) (i0 : Nat) : BitVec 6 :=
  pix s i0 ++ pix s (i0 + 1) ++ pix s (i0 + 2) ++ pix s (i0 + 3) ++ pix s (i0 + 4) ++ pix s (i0 + 5)

/-! ### Regions (20_memory.md R61, R74) -/

/-- `a` lies in the raster region `RASTER_BASE + [0, PITCH*HEIGHT)`, modulo 2^32. -/
def inRaster (s : State) (a : Word) : Bool := decide ((a - s.rasterBase).toNat < s.P * s.H)

/-- `a` lies in the output region `OUT_BASE + [0, OUT_CAP)`, modulo 2^32. -/
def inOutput (s : State) (a : Word) : Bool := decide ((a - s.outBase).toNat < s.outCap.toNat)

/-- `a` lies in the stream region `dec.base + [0, dec.limit)`, modulo 2^32. -/
def inStream (s : State) (a : Word) : Bool := decide ((a - s.dec.base).toNat < s.dec.limit.toNat)

/-- Where ENC_STEP writes its chunk byte: `OUT_BASE + enc.out_len` (R69). -/
def chunkAddr (s : State) : Word := byteAddr s.outBase s.enc.outLen.toNat

/-- One of the six header bytes ENC_INIT would write lies in the raster region (R69, R74). -/
def headerOverlaps (s : State) : Bool := (List.range Config.headerLen).any fun k => inRaster s (byteAddr s.outBase k)

/-- The chunk byte ENC_STEP would write lies in the raster region (R69, R74). -/
def chunkOverlaps (s : State) : Bool := inRaster s (chunkAddr s)

end Sys2Proof.Machine
end

