-- ==== Sys2Proof/Machine/Flags.lean ====
section
/-! DEFINITION. The host-visible words computed from the state: STATUS (spec/10_state.md R24), DEC_RUN (R35) and the
cursor and dimension registers (R25, R26, R34, R37). -/

namespace Sys2Proof.Machine

/-- STATUS.ENC_PHASE (R24). -/
def EncPhase.code : EncPhase → BitVec 2
  | .idle => 0#2
  | .running => 1#2
  | .done => 2#2

/-- STATUS.DEC_STATE (R24). -/
def DecMode.code : DecMode → BitVec 2
  | .uninitialized => 0#2
  | .ready => 1#2
  | .exhausted => 2#2

/-- STATUS.FAULT (60_exceptions.md R221). -/
def FaultCode.code : FaultCode → BitVec 4
  | .none => 0#4
  | .param => 1#4
  | .outOverflow => 2#4
  | .streamOverrun => 3#4
  | .illegalCmd => 4#4
  | .decNotReady => 5#4
  | .encNotReady => 6#4
  | .busyViolation => 7#4

/-- STATUS (R24), from bit 31 down: reserved, FAULT, reserved, CUR_AT_END (computed), ENC_PHASE, DEC_STATE,
INVALID_FORMAT, BUSY. -/
def statusWord (s : State) : Word :=
  0#20 ++ s.fault.code ++ 0#1 ++ BitVec.ofBool s.cursorAtEnd ++ s.enc.phase.code ++ s.dec.state.code
    ++ BitVec.ofBool s.invalidFormat ++ BitVec.ofBool s.busy

/-- DEC_RUN (R35), from bit 31 down: reserved, CHUNK, reserved, START_COLOR, COLOR, reserved, LEN2, reserved, LEN. -/
def decRunWord (d : DecState) : Word :=
  0#8 ++ d.chunk ++ 0#2 ++ d.startColor ++ d.color ++ 0#1 ++ d.len2 ++ 0#1 ++ d.len

/-- A register of two 16-bit fields, the first in [15:0] (R26, R34, R37). -/
def pairWord (lo hi : Half) : Word := hi ++ lo

/-- A register with one bit in [0] (R27, R38). -/
def bitWord (b : Bit) : Word := b.setWidth 32

end Sys2Proof.Machine
end

