-- ==== Sys2Proof/Machine/Cursor.lean ====
section
/-! DEFINITION. The cursor unit's commands (spec/40_cursor.md R125, R126). -/

namespace Sys2Proof.Machine

/-- CUR_RESET (R126). -/
def execCurReset (s : State) : Host.Outcome State Fault Refusal :=
  .next (completed { s with enc := s.enc.atOrigin })

/-- The effect of CUR_READ (R125): a sentinel read at the end (R123), else the pixel at the cursor and one advance. -/
def curReadEffect (s : State) : State :=
  if s.cursorAtEnd then { s with enc := { s.enc with curPixel := 0#1 } }
  else advanceCursor { s with enc := { s.enc with curPixel := pixelAt s s.enc.x.toNat s.enc.y.toNat } }

/-- CUR_READ (R125): it checks no precondition and raises no fault. -/
def execCurRead (s : State) : Host.Outcome State Fault Refusal := .next (completed (curReadEffect s))

end Sys2Proof.Machine
end

