-- ==== Sys2Proof/Machine/Decoder.lean ====
section
/-! DEFINITION. The decoder: the three chunk kinds and the header as the instructions of its stream, and the commands
DEC_INIT and DEC_PIXEL (spec/42_decoder.md). -/

namespace Sys2Proof.Machine

/-! ### Chunks (R182 to R184) -/

/-- A LONG chunk as it loads (R182). -/
def execLong (c : Bit) (n : Nat) (s : State) : Host.Outcome State Fault Refusal :=
  .next { s with dec := loadLong c n s.dec }

/-- An UNCOMP chunk as it loads (R183). -/
def execUncomp (p : BitVec 6) (s : State) : Host.Outcome State Fault Refusal :=
  .next { s with dec := loadUncomp p s.dec }

/-- A SHORT chunk as it loads (R184). -/
def execShort (c : Bit) (r1 r2 : Nat) (s : State) : Host.Outcome State Fault Refusal :=
  .next { s with dec := loadShort c r1 r2 s.dec }

/-! ### DEC_INIT (R185 to R187) -/

/-- The byte at offset `k` of the stream that STREAM_BASE names. -/
def newStreamByte (s : State) (k : Nat) : Byte := memRead s (byteAddr s.streamBase k)

/-- The elements `commit` writes before the chunk loads (R185). -/
def committed (c0 : Bit) (w h : Half) (ptr : Word) (mode : DecMode) (s : State) : DecState :=
  { state := mode, w := w, h := h, startColor := c0, base := s.streamBase, limit := s.streamLen, ptr := ptr,
    chunk := 0#8, len := 0#7, len2 := 0#3, color := 0#1, x := 0#16, y := 0#16, pixel := 0#1 }

/-- A valid header as DEC_INIT takes it (R185, from the width and height on): an empty image commits Exhausted with no
chunk read (R187); any other needs the chunk byte at offset 6 and commits Ready. -/
def execHeader (c0 : Bit) (w h : Half) (s : State) : Host.Outcome State Fault Refusal :=
  if w = 0#16 ∨ h = 0#16 then
    .next (completed { s with dec := committed c0 w h (BitVec.ofNat 32 Config.headerLen) .exhausted s })
  else if s.streamLen.toNat < Config.headerLen + 1 then raiseFault .streamOverrun s
  else
    .next (completed
      { s with
        dec := loadChunk (newStreamByte s Config.headerLen)
          (committed c0 w h (BitVec.ofNat 32 (Config.headerLen + 1)) .ready s) })

/-- DEC_INIT (R185): each length check comes just before the byte it guards (60_exceptions.md R227). -/
def execDecInit (s : State) : Host.Outcome State Fault Refusal :=
  if s.streamLen.toNat < 1 then raiseFault .streamOverrun s
  else if newStreamByte s 0 ≠ Config.magic0 then .next (badMagic s)
  else if s.streamLen.toNat < 2 then raiseFault .streamOverrun s
  else if isMagic1 (newStreamByte s 1) = false then .next (badMagic s)
  else if s.streamLen.toNat < Config.headerLen then raiseFault .streamOverrun s
  else
    execHeader ((newStreamByte s 1).extractLsb' 0 1) (newStreamByte s 3 ++ newStreamByte s 2)
      (newStreamByte s 5 ++ newStreamByte s 4) s

/-! ### DEC_PIXEL (R188) -/

/-- DEC_NOT_READY, then STREAM_OVERRUN when a chunk is needed past `dec.limit` (R188, R181; 60_exceptions.md R227). -/
def decPixelFault (s : State) : Option FaultCode :=
  match s.dec.state with
  | .uninitialized => some .decNotReady
  | .exhausted => none
  | .ready => if s.dec.needsChunk && decide (s.dec.limit ≤ s.dec.ptr) then some .streamOverrun else none

/-- Step 1 (R188): read the chunk byte at `dec.ptr`, move the pointer on (R181) and load it, if the counters have run out. -/
def fetchChunk (s : State) : DecState :=
  if s.dec.needsChunk then loadChunk (streamByte s) { s.dec with ptr := s.dec.ptr + 1#32 } else s.dec

/-- The effect of a DEC_PIXEL that raises no fault: 0 from Exhausted (R193), else steps 1 to 3 of R188. -/
def decPixelEffect (s : State) : State :=
  match s.dec.state with
  | .uninitialized => s
  | .exhausted => { s with dec := { s.dec with pixel := 0#1 } }
  | .ready => { s with dec := advanceOutput (producePixel (fetchChunk s)) }

/-- DEC_PIXEL (R188). -/
def execDecPixel (s : State) : Host.Outcome State Fault Refusal :=
  match decPixelFault s with
  | some c => raiseFault c s
  | none => .next (completed (decPixelEffect s))

end Sys2Proof.Machine
end

