-- ==== Sys2Proof/Machine/Encoder.lean ====
section
/-! DEFINITION. The encoder's commands (spec/41_encoder.md). Each is a fault condition in the order of
60_exceptions.md R227, the refusal of 20_memory.md R74, and an effect. -/

namespace Sys2Proof.Machine

/-! ### One pass (R144 to R150) -/

/-- The chunk byte and the next raster position of the pass at `i0`: LONG (R145), UNCOMP (R147), SHORT (R148, whose
`next` is where R150's rewind ends) or SHORT at the image end (R149). -/
def encPass (s : State) (i0 : Nat) : Byte × Nat :=
  let run1 := runDetect s i0
  let color1 := runColor s i0
  let run2 := runDetect s (i0 + run1)
  if Config.longThreshold < run1 then (longByte color1 run1, i0 + run1)
  else if run1 + run2 < Config.economyThreshold then
    (uncompByte (uncompLiteral s i0), min (i0 + Config.uncompPixels) s.N)
  else if 1 ≤ run2 then
    (shortByte color1 run1 (min run2 Config.shortRun2Max), i0 + run1 + min run2 Config.shortRun2Max)
  else (shortFieldByte color1 run1 Config.tailShortField, s.N)

/-! ### ENC_INIT (R152) -/

/-- `W > 0`, `H > 0` and `P >= ceil(W/8)` (R141). -/
def paramsOk (s : State) : Bool := decide (s.W ≠ 0) && decide (s.H ≠ 0) && decide ((s.W + 7) / 8 ≤ s.P)

/-- PARAM, then OUT_OVERFLOW (R152; 60_exceptions.md R227). -/
def encInitFault (s : State) : Option FaultCode :=
  if paramsOk s = false then some .param
  else if s.outCap.toNat < Config.headerLen then some .outOverflow
  else none

/-- The six header bytes (R151). -/
def headerBytes (s : State) : List Byte :=
  [Config.magic0, headerByte1 (pixelAt s 0 0), lowByte s.widthField, highByte s.widthField,
   lowByte s.heightField, highByte s.heightField]

/-- The session of a successful ENC_INIT starts with the cursor at (0,0) and the header written. -/
def encInitEffect (s : State) : State :=
  writeBytes s.outBase 0 (headerBytes s)
    { s with enc := { s.enc.atOrigin with outLen := BitVec.ofNat 32 Config.headerLen, phase := .running } }

/-- ENC_INIT (R152). -/
def execEncInit (s : State) : Host.Outcome State Fault Refusal :=
  match encInitFault s with
  | some c => raiseFault c s
  | none => if headerOverlaps s then .refused .rasterOverlap else .next (completed (encInitEffect s))

/-! ### ENC_STEP (R153) -/

/-- A step that emits a chunk: the phase is RUNNING and the cursor is not at the end. -/
def emits (s : State) : Bool := decide (s.enc.phase = .running) && !s.cursorAtEnd

/-- ENC_NOT_READY in IDLE; OUT_OVERFLOW when a chunk is to be written and no capacity is left (R153; R227). -/
def encStepFault (s : State) : Option FaultCode :=
  if s.enc.phase = .idle then some .encNotReady
  else if emits s && decide (s.outCap.toNat ≤ s.enc.outLen.toNat) then some .outOverflow
  else none

/-- A RUNNING session whose cursor is at the end is DONE. -/
def closeIfAtEnd (s : State) : State :=
  if s.cursorAtEnd then { s with enc := { s.enc with phase := .done } } else s

/-- The pass of R144 at the cursor: one chunk byte written, `enc.out_len` one more, the cursor at the pass's end. -/
def emitChunk (s : State) : State :=
  let (chunk, next) := encPass s s.cursorLin
  let s1 := memWrite (chunkAddr s) chunk s
  setLin next { s1 with enc := { s1.enc with outLen := s1.enc.outLen + 1#32 } }

/-- The effect of an ENC_STEP that raises no fault. -/
def encStepEffect (s : State) : State :=
  match s.enc.phase with
  | .idle => s
  | .done => s
  | .running => if s.cursorAtEnd then closeIfAtEnd s else closeIfAtEnd (emitChunk s)

/-- ENC_STEP (R153). -/
def execEncStep (s : State) : Host.Outcome State Fault Refusal :=
  match encStepFault s with
  | some c => raiseFault c s
  | none =>
    if emits s && chunkOverlaps s then .refused .rasterOverlap else .next (completed (encStepEffect s))

/-! ### ENC_RUN (R154) -/

/-- `while enc.phase = RUNNING: perform ENC_STEP`, for at most `fuel` passes. A fault keeps the passes before it and leaves
STATUS.INVALID_FORMAT as it was before the command (60_exceptions.md R223, R226; notes/assumptions/7.md). A pass that would write
over the raster refuses the whole command (notes/assumptions/15.md). -/
def encRunLoop : Nat → State → Host.Outcome State Fault Refusal
  | 0, s => .next (completed s)
  | fuel + 1, s =>
    if s.enc.phase = .running then
      match encStepFault s with
      | some c => raiseFault c s
      | none =>
        if emits s && chunkOverlaps s then .refused .rasterOverlap else encRunLoop fuel (encStepEffect s)
    else .next (completed s)

/-- ENC_RUN (R154): at most `N` passes run (R162), so the loop's bound of `N + 1` is never what ends it. -/
def execEncRun (s : State) : Host.Outcome State Fault Refusal :=
  match encInitFault s with
  | some c => raiseFault c s
  | none => if headerOverlaps s then .refused .rasterOverlap else encRunLoop (s.N + 1) (encInitEffect s)

end Sys2Proof.Machine
end

