-- ==== Sys2Proof/Machine/Dispatch.lean ====
section
/-! DEFINITION. The meaning of every instruction: one arm for each row of spec/opcode_table.json. -/

namespace Sys2Proof.Machine

def exec (i : Instr) (s : State) : Host.Outcome State Fault Refusal :=
  match i with
  | .long c n => Sys2Proof.Machine.execLong c n s
  | .uncomp p => Sys2Proof.Machine.execUncomp p s
  | .short c r1 r2 => Sys2Proof.Machine.execShort c r1 r2 s
  | .header c0 w h => Sys2Proof.Machine.execHeader c0 w h s
  | .curReset => Sys2Proof.Machine.execCurReset s
  | .curRead => Sys2Proof.Machine.execCurRead s
  | .encInit => Sys2Proof.Machine.execEncInit s
  | .encStep => Sys2Proof.Machine.execEncStep s
  | .encRun => Sys2Proof.Machine.execEncRun s
  | .decInit => Sys2Proof.Machine.execDecInit s
  | .decPixel => Sys2Proof.Machine.execDecPixel s

end Sys2Proof.Machine
end

