-- ==== Sys2Proof/Machine/HostPort.lean ====
section
/-! DEFINITION. The register window (spec/10_state.md R21 to R38): which register an access names, what a read returns,
what a write does, the order of checks on a CMD write (60_exceptions.md R227), and one access of the host agent. -/

namespace Sys2Proof.Machine

/-- The registers of R21; `reserved` is any of the offsets 0x28 to 0x3C and 0x5C. -/
inductive Reg where
  | cmd
  | status
  | rasterBase
  | rasterDim
  | rasterPitch
  | cursor
  | curPixel
  | outBase
  | outCap
  | outLen
  | reserved
  | streamBase
  | streamLen
  | decDim
  | decRun
  | decPtr
  | decCursor
  | decPixel
  deriving DecidableEq, Repr

/-- The register at the offset `4 * k` (R21), for `k` below 24. -/
def regAt (k : Nat) : Reg :=
  if k = 0 then .cmd
  else if k = 1 then .status
  else if k = 2 then .rasterBase
  else if k = 3 then .rasterDim
  else if k = 4 then .rasterPitch
  else if k = 5 then .cursor
  else if k = 6 then .curPixel
  else if k = 7 then .outBase
  else if k = 8 then .outCap
  else if k = 9 then .outLen
  else if k = 16 then .streamBase
  else if k = 17 then .streamLen
  else if k = 18 then .decDim
  else if k = 19 then .decRun
  else if k = 20 then .decPtr
  else if k = 21 then .decCursor
  else if k = 22 then .decPixel
  else .reserved

/-- What a read of a register returns. CMD and the reserved offsets read 0 (R22). -/
def readReg (s : State) : Reg → Word
  | .cmd => 0#32
  | .status => statusWord s
  | .rasterBase => s.rasterBase
  | .rasterDim => s.rasterDim
  | .rasterPitch => pairWord s.rasterPitch 0#16
  | .cursor => pairWord s.enc.x s.enc.y
  | .curPixel => bitWord s.enc.curPixel
  | .outBase => s.outBase
  | .outCap => s.outCap
  | .outLen => s.enc.outLen
  | .reserved => 0#32
  | .streamBase => s.streamBase
  | .streamLen => s.streamLen
  | .decDim => pairWord s.dec.w s.dec.h
  | .decRun => decRunWord s.dec
  | .decPtr => s.dec.ptr
  | .decCursor => pairWord s.dec.x s.dec.y
  | .decPixel => bitWord s.dec.pixel

/-- A geometry write moves the cursor to (0,0) and ends the encoding session (R25). -/
def EncState.onGeometryWrite (e : EncState) : EncState := { e.atOrigin with phase := .idle }

/-- A write of the output buffer's registers ends the session and leaves the cursor alone (R28). -/
def EncState.onOutputWrite (e : EncState) : EncState := { e with phase := .idle }

/-- A write to CMD with STATUS.BUSY = 0 (R23, R224, R227): ignored while a fault is set; ILLEGAL_CMD for a word that decodes
to no command (30_encoding.md R97); else the command. -/
def writeCmd (v : Word) (s : State) : Host.Outcome State Fault Refusal :=
  if s.fault ≠ .none then .next s
  else
    match decode (.command v) with
    | .error _ => raiseFault .illegalCmd s
    | .ok i => exec i s

/-- A register write with STATUS.BUSY = 0. Writes to read-only registers and reserved offsets are ignored (R22). -/
def writeReg (r : Reg) (v : Word) (s : State) : Host.Outcome State Fault Refusal :=
  match r with
  | .cmd => writeCmd v s
  | .rasterBase => .next { s with rasterBase := v, enc := s.enc.onGeometryWrite }
  | .rasterDim => .next { s with rasterDim := v, enc := s.enc.onGeometryWrite }
  | .rasterPitch => .next { s with rasterPitch := v.extractLsb' 0 16, enc := s.enc.onGeometryWrite }
  | .outBase => .next { s with outBase := v, enc := s.enc.onOutputWrite }
  | .outCap => .next { s with outCap := v, enc := s.enc.onOutputWrite }
  | .streamBase => .next { s with streamBase := v }
  | .streamLen => .next { s with streamLen := v }
  | .status => .next s
  | .cursor => .next s
  | .curPixel => .next s
  | .outLen => .next s
  | .reserved => .next s
  | .decDim => .next s
  | .decRun => .next s
  | .decPtr => .next s
  | .decCursor => .next s
  | .decPixel => .next s

/-- A register write while STATUS.BUSY = 1 is ignored and raises BUSY_VIOLATION (R233), unless an earlier fault is set, which is
kept (R224, R227; notes/assumptions/5.md). STATUS.BUSY is always 0 in the model (10_state.md R24). -/
def writeWhileBusy (s : State) : Host.Outcome State Fault Refusal :=
  if s.fault ≠ .none then .next s else raiseFault .busyViolation s

/-- A register access must be 32 bits wide at a multiple of 4 (R22, 20_memory.md R63). -/
def accessAllowed (off bytes : Nat) : Bool := decide (bytes = 4) && decide (off % 4 = 0)

/-- The window's size in bytes: 24 registers of 32 bits (R21). -/
def windowBytes : Nat := 0x60

/-- A host register write. -/
def hostWrite (off bytes : Nat) (v : Word) (s : State) : Host.Outcome State Fault Refusal :=
  if accessAllowed off bytes = false then .refused (.registerAccess off bytes)
  else if windowBytes ≤ off then .fault (.outsideWindow off)
  else if s.busy then writeWhileBusy s
  else writeReg (regAt (off / 4)) v s

/-- A host register read. It changes nothing of the block (R22): the word goes to the host agent. -/
def hostRead (off bytes : Nat) (s : State) : Host.Outcome State Fault Refusal :=
  if accessAllowed off bytes = false then .refused (.registerAccess off bytes)
  else if windowBytes ≤ off then .fault (.outsideWindow off)
  else .next { s with host := { s.host with lastRead := some (readReg s (regAt (off / 4))) } }

/-- One access of the host agent. -/
def perform (a : HostAccess) (s : State) : Host.Outcome State Fault Refusal :=
  match a with
  | .regWrite off bytes v => hostWrite off bytes v s
  | .regRead off bytes => hostRead off bytes s
  | .memWrite addr v => .next (memWrite addr v s)
  | .reset => .next (resetBlock s)

/-- The host agent's next access is taken off its list. -/
def popHost (rest : List HostAccess) (s : State) : State := { s with host := { s.host with pending := rest } }

/-- One step: the host's next access, or nothing when the host has none (the block keeps its state while idle, R237). -/
def stepHost (s : State) : Host.Outcome State Fault Refusal :=
  match s.host.pending with
  | [] => .next s
  | a :: rest => perform a (popHost rest s)

/-! ### Placing an instruction where the next step runs it -/

/-- A write of the word `w` to CMD as the host's next access, on a block that accepts commands. -/
def placeCommand (w : Word) (s : State) : State :=
  { s with busy := false, fault := .none,
           host := { s.host with pending := .regWrite 0 4 w :: s.host.pending } }

/-- A chunk byte as the one the next DEC_PIXEL loads: a Ready decoder with its counters run out, inside a stream and an image
that go on, and the byte at `dec.ptr`. -/
def placeChunk (b : Byte) (s : State) : State :=
  let ptr := if s.dec.ptr < s.dec.limit then s.dec.ptr else 0#32
  let limit := if ptr < s.dec.limit then s.dec.limit else ptr + 1#32
  let inImage := s.dec.x < s.dec.w ∧ s.dec.y < s.dec.h
  let d : DecState :=
    { s.dec with
      state := .ready, len := 0#7, len2 := 0#3, ptr := ptr, limit := limit,
      w := if inImage then s.dec.w else 1#16, h := if inImage then s.dec.h else 1#16,
      x := if inImage then s.dec.x else 0#16, y := if inImage then s.dec.y else 0#16 }
  placeCommand 0x21#32 (memWrite (byteAddr d.base d.ptr.toNat) b { s with dec := d })

/-- Six header bytes as the ones the next DEC_INIT reads, in a stream long enough for a first chunk byte. -/
def placeHeader (bs : List Byte) (s : State) : State :=
  let s1 := writeBytes s.streamBase 0 bs s
  placeCommand 0x20#32
    { s1 with streamLen := if s.streamLen.toNat ≤ Config.headerLen then 7#32 else s.streamLen }

/-- Place an encoded form. -/
def placeCode (c : Code) (s : State) : State :=
  match c with
  | .chunk b => placeChunk b s
  | .header b0 b1 b2 b3 b4 b5 => placeHeader [b0, b1, b2, b3, b4, b5] s
  | .command w => placeCommand w s

end Sys2Proof.Machine
end

