-- ==== Sys2Proof/Machine/Step.lean ====
section
/-! DEFINITION. The machine's step, one access of the host agent, a command being one atomic step (spec/00_scope.md R1,
20_memory.md R71), and where an instruction is placed so that the next step runs it. -/

namespace Sys2Proof.Machine

def step (s : State) : Host.Outcome State Fault Refusal := stepHost s

/-- `s` with an opcode-table word placed where the next step runs it (notes/assumptions/6.md): a command word as the host's
next CMD write, a chunk byte as the one the next DEC_PIXEL loads, a header as the one the next DEC_INIT reads. -/
def State.withFetchWord (s : State) (nbits w : Nat) : State :=
  match Code.ofTable nbits w with
  | none => s
  | some code => placeCode code s

end Sys2Proof.Machine
end

