-- ==== Sys2Proof/Machine/Platform.lean ====
section
/-! DEFINITION. A platform of `N_INSTANCES` cores (spec/00_scope.md R4; 60_exceptions.md R238): each core has its own window and its
own state, and they share nothing but host memory. -/

namespace Sys2Proof.Machine

/-- The cores' own states, and the memory they share. `N_INSTANCES` is at least 1 (R4), so there is a first core and a list of others.
A core's `mem` field lists nothing here: the shared memory is put in for a step. -/
structure Platform where
  first : State
  others : List State
  mem : Memory
  deriving DecidableEq, Repr

/-- The cores, numbered from 0. -/
def Platform.cores (p : Platform) : List State := p.first :: p.others

/-- `N_INSTANCES` (R4). -/
def Platform.instances (p : Platform) : Nat := p.cores.length

/-- Core `k` gets the state `s`. -/
def Platform.setCore : Nat → State → Platform → Platform
  | 0, s, p => { p with first := s }
  | k + 1, s, p => { p with others := p.others.set k s }

/-- A platform of `extra + 1` cores after power-on, which is a reset of each (70_reset_and_hazards.md R260). -/
def Platform.powerOn (extra : Nat) : Platform :=
  { first := State.reset, others := List.replicate extra State.reset, mem := [] }

/-- The core takes its step on the shared memory. -/
def withMemory (m : Memory) (s : State) : State := { s with mem := m }

/-- Core `k` of the platform takes one step; the hosts choose which core is next (R238, 20_memory.md R71). A platform has no other
core, so a number past the last one names nothing and nothing happens. -/
def platformStep (k : Nat) (p : Platform) : Host.Outcome Platform Fault Refusal :=
  match p.cores[k]? with
  | none => .next p
  | some s =>
    match step (withMemory p.mem s) with
    | .next t => .next { p.setCore k (withMemory [] t) with mem := t.mem }
    | .fault r => .fault r
    | .refused r => .refused r

end Sys2Proof.Machine
end

