-- ==== Sys2Proof/Safety.lean ====
section
/-! DEFINITION. What holds of every reachable state, from the spec's own statements of it (spec/10_state.md R24, R26, R29,
R32, R33, R39; 41_encoder.md R141), and what a safe run is. -/

namespace Sys2Proof.Machine

/-- The cursor is inside the raster, at the end `(0, H)`, or at (0,0) (10_state.md R26; 40_cursor.md R130). -/
def State.cursorInv (s : State) : Prop :=
  (s.enc.x.toNat < s.W ∧ s.enc.y.toNat < s.H) ∨ (s.enc.x = 0#16 ∧ s.enc.y = s.heightField) ∨
    (s.enc.x = 0#16 ∧ s.enc.y = 0#16)

/-- In RUNNING and DONE: `6 <= enc.out_len <= OUT_CAP` (R29), and the registers still meet what ENC_INIT checked (R141),
since a write to any of them sets IDLE (R25, R28). -/
def State.sessionInv (s : State) : Prop :=
  s.enc.phase ≠ .idle → 6 ≤ s.enc.outLen.toNat ∧ s.enc.outLen.toNat ≤ s.outCap.toNat ∧ paramsOk s = true

/-- The decoder's invariants of R32, R33 and R39. -/
structure DecState.Inv (d : DecState) : Prop where
  /-- R32: `dec.len` is at most 71 and `dec.len2` at most 4. -/
  counters : d.len.toNat ≤ 71 ∧ d.len2.toNat ≤ 4
  /-- R39: in Ready, at most 71 pixels of the chunk remain. -/
  sum : d.state = .ready → d.len.toNat + d.len2.toNat ≤ 71
  /-- R39: in Ready the output cursor is inside the image. -/
  readyCursor : d.state = .ready → d.x.toNat < d.w.toNat ∧ d.y.toNat < d.h.toNat
  /-- R39: outside a SHORT, `dec.len2` is 0. -/
  noSecondRun : d.chunk.extractLsb' 7 1 = 0#1 ∨ d.chunk.extractLsb' 6 1 = 0#1 → d.len2 = 0#3
  /-- R39: in an UNCOMP, `dec.len` is at most 6. -/
  uncompLen : d.chunk.extractLsb' 6 2 = 2#2 → d.len.toNat ≤ 6
  /-- R39: in a SHORT, `dec.len` is at most 8. -/
  shortLen : d.chunk.extractLsb' 6 2 = 3#2 → d.len.toNat ≤ 8
  /-- R39: Exhausted after a nonempty image leaves the output cursor at `(0, dec.H)`. -/
  exhaustedCursor : d.state = .exhausted → d.w ≠ 0#16 → d.h ≠ 0#16 → d.x = 0#16 ∧ d.y = d.h
  /-- R39: in Uninitialized every element holds its reset value. -/
  uninitialized : d.state = .uninitialized → d = DecState.reset
  /-- R33: the pointer never passes `dec.limit`. -/
  ptrBound : d.ptr.toNat ≤ d.limit.toNat

/-- The invariant that every step keeps. -/
structure State.Inv (s : State) : Prop where
  mem : s.mem.wf = true
  cursor : s.cursorInv
  session : s.sessionInv
  dec : s.dec.Inv
  /-- STATUS.BUSY is always 0 in the model (R24). -/
  busy : s.busy = false

/-! ### Words the claims use -/

/-- `run` is what RunDetect gives at `i` (41_encoder.md R142), said without a scan: real pixels of one colour, as many as the cap of 71,
the image end or the next pixel allow. -/
structure IsRun (s : State) (i run : Nat) : Prop where
  cap : run ≤ 71
  inside : run = 0 ∨ i + run ≤ s.N
  same : ∀ j < run, pix s (i + j) = pix s i
  stop : run = 71 ∨ s.N ≤ i + run ∨ pix s (i + run) ≠ pix s i

/-- The host writes the same word to CMD `k` times. -/
def repeatCmd (w : Word) : Nat → State → Host.Outcome State Fault Refusal
  | 0, s => .next s
  | k + 1, s =>
    match writeCmd w s with
    | .next t => repeatCmd w k t
    | .fault r => .fault r
    | .refused r => .refused r

/-- `t` is reached from `s` by `k` ENC_STEPs, each to a next state. -/
def encSteps : Nat → State → State → Prop
  | 0, s, t => t = s
  | k + 1, s, t => ∃ u, exec .encStep s = .next u ∧ encSteps k u t

/-- Byte `k` of the stream that STREAM_BASE names, as the spec writes it: `MemRead(bl + k, 1)` (42_decoder.md R185). -/
def headByte (s : State) (k : Nat) : Byte := memRead s (s.streamBase + BitVec.ofNat 32 k)

/-- DEC_INIT finds bad magic: a byte it reads before any length check stops it is wrong (R185, R186). -/
def findsBadMagic (s : State) : Prop :=
  1 ≤ s.streamLen.toNat ∧
    (headByte s 0 ≠ 0xFE#8 ∨ (2 ≤ s.streamLen.toNat ∧ headByte s 1 &&& 0xFE#8 ≠ 0xEC#8))

/-- `a` lies in `RASTER_BASE + [0, PITCH*HEIGHT)` (20_memory.md R61). -/
def inRasterRegion (s : State) (a : Word) : Prop := ∃ k, k < s.P * s.H ∧ a = s.rasterBase + BitVec.ofNat 32 k

/-- `a` lies in `OUT_BASE + [0, OUT_CAP)` (R61). -/
def inOutputRegion (s : State) (a : Word) : Prop := ∃ k, k < s.outCap.toNat ∧ a = s.outBase + BitVec.ofNat 32 k

/-- `m` becoming `m'` and `n` becoming `n'` by the same writes: every address holds the same byte after both, or was left alone by
both. -/
def sameWrites (m n m' n' : Memory) : Prop :=
  ∀ a : Word, n'.read a.toNat = m'.read a.toNat ∨ (m'.read a.toNat = m.read a.toNat ∧ n'.read a.toNat = n.read a.toNat)

/-- What ENC_INIT checks (41_encoder.md R141). -/
def geometryOk (s : State) : Prop := 1 ≤ s.W ∧ 1 ≤ s.H ∧ (s.W + 7) / 8 ≤ s.P

/-- A safe run: it has stopped with no fault and no refusal, and no sticky fault is set (60_exceptions.md R220). -/
def Safe (o : Host.Outcome State Fault Refusal) : Prop := ∃ s, o = .next s ∧ s.fault = .none

end Sys2Proof.Machine
end

