-- ==== Sys2Proof/Certificates/Slice0/Obligations.lean ====
section
/-! DEFINITION. The statements for the provers, one `Prop` each. Rule numbers are those of spec/; the file that holds a rule is
named in OBLIGATIONS.json. -/

open Sys2Proof Sys2Proof.Machine

/-! ### Encodings -/

/-- R101: an instruction's encoded form decodes to it, at every operand the listing admits. -/
def Obligations.DecodeEncodeRoundTrip : Prop :=
  ∀ i : Instr, i.wf = true → decode (encode i) = .ok i

/-- R101: what a form decodes to is well-formed and encodes to that form again, so no form has two readings. -/
def Obligations.EncodeDecodeRoundTrip : Prop :=
  ∀ (c : Code) (i : Instr), decode c = .ok i → encode i = c ∧ i.wf = true

/-- R101, R96, R186: the spec's own example words. -/
def Obligations.SpecExampleWordsDecode : Prop :=
  decode (.chunk 0b00001000#8) = .ok (.long 0#1 16) ∧
  decode (.chunk 0b10010101#8) = .ok (.uncomp 0b010101#6) ∧
  decode (.chunk 0b11001011#8) = .ok (.short 0#1 3 4) ∧
  decode (.header 0xFE#8 0xEC#8 0x10#8 0x00#8 0x01#8 0x00#8) = .ok (.header 0#1 16#16 1#16) ∧
  decode (.header 0xFE#8 0xED#8 0x10#8 0x00#8 0x01#8 0x00#8) = .ok (.header 1#1 16#16 1#16) ∧
  decode (.header 0xFE#8 0xEE#8 0x10#8 0x00#8 0x01#8 0x00#8) = .error .badMagic1 ∧
  decode (.command 0x00000012#32) = .ok .encRun ∧
  decode (.command 0x00000020#32) = .ok .decInit ∧
  decode (.command 0x00000113#32) = .error .reservedBits

/-- R98: the six header bytes, and which six bytes are a header. -/
def Obligations.HeaderLayout : Prop :=
  (∀ (c0 : Bit) (w h : Half),
    encode (.header c0 w h) =
      .header 0xFE#8 (BitVec.ofNat 8 (0xEC + c0.toNat)) (BitVec.ofNat 8 (w.toNat % 256)) (BitVec.ofNat 8 (w.toNat / 256))
        (BitVec.ofNat 8 (h.toNat % 256)) (BitVec.ofNat 8 (h.toNat / 256))) ∧
  (∀ b0 b1 b2 b3 b4 b5 : Byte,
    (b0 = 0xFE#8 ∧ b1 &&& 0xFE#8 = 0xEC#8 →
      decode (.header b0 b1 b2 b3 b4 b5) =
        .ok (.header (BitVec.ofBool (b1.getLsbD 0)) (BitVec.ofNat 16 (b3.toNat * 256 + b2.toNat))
          (BitVec.ofNat 16 (b5.toNat * 256 + b4.toNat)))) ∧
    (¬ (b0 = 0xFE#8 ∧ b1 &&& 0xFE#8 = 0xEC#8) → ∃ r, decode (.header b0 b1 b2 b3 b4 b5) = .error r))

/-- R95: `ChunkPixels(b)` by kind, its range over all bytes, and that a chunk's expansion has that many pixels. -/
def Obligations.ChunkPixelCount : Prop :=
  (∀ b : Byte,
    (b.getLsbD 7 = false → chunkPixels b = b.toNat % 64 + 8) ∧
    (b.getLsbD 7 = true → b.getLsbD 6 = false → chunkPixels b = 6) ∧
    (b.getLsbD 7 = true → b.getLsbD 6 = true → chunkPixels b = b.toNat / 4 % 8 + 1 + b.toNat % 4 + 1) ∧
    2 ≤ chunkPixels b ∧ chunkPixels b ≤ 71 ∧ (chunkExpansion b).length = chunkPixels b) ∧
  (∃ b : Byte, chunkPixels b = 2) ∧ (∃ b : Byte, chunkPixels b = 71)

/-- R97: every word but the seven of R96 raises ILLEGAL_CMD, unless a fault is set; 249 CODE values are unassigned. -/
def Obligations.IllegalCommandWords : Prop :=
  (∀ (w : Word) (s : State), s.busy = false → w.toNat ∉ [0x01, 0x02, 0x10, 0x11, 0x12, 0x20, 0x21] →
    (s.fault = .none → hostWrite 0 4 w s = .next { s with fault := .illegalCmd }) ∧
    (s.fault ≠ .none → hostWrite 0 4 w s = .next s)) ∧
  ((List.range 256).filter fun c => (decode (.command (BitVec.ofNat 32 c))).toOption.isNone).length = 249

/-! ### The stream's instructions -/

/-- R182: loading a LONG chunk. -/
def Obligations.LongChunkLoads : Prop :=
  ∀ (b : Byte) (s : State), b.getLsbD 7 = false →
    decode (.chunk b) = .ok (.long (BitVec.ofBool (b.getLsbD 6)) (b.toNat % 64 + 8)) ∧
    exec (.long (BitVec.ofBool (b.getLsbD 6)) (b.toNat % 64 + 8)) s =
      .next { s with dec := { s.dec with
        chunk := b, len := BitVec.ofNat 7 (b.toNat % 64 + 8), len2 := 0#3, color := BitVec.ofBool (b.getLsbD 6) } }

/-- R183: loading an UNCOMP chunk leaves the colour alone. -/
def Obligations.UncompChunkLoads : Prop :=
  ∀ (b : Byte) (s : State), b.getLsbD 7 = true → b.getLsbD 6 = false →
    decode (.chunk b) = .ok (.uncomp (BitVec.ofNat 6 (b.toNat % 64))) ∧
    exec (.uncomp (BitVec.ofNat 6 (b.toNat % 64))) s =
      .next { s with dec := { s.dec with chunk := b, len := 6#7, len2 := 0#3 } }

/-- R184: loading a SHORT chunk, and that `LoadChunk(b)` is the load of whichever chunk the byte decodes to. -/
def Obligations.ShortChunkLoads : Prop :=
  (∀ (b : Byte) (s : State), b.getLsbD 7 = true → b.getLsbD 6 = true →
    decode (.chunk b) = .ok (.short (BitVec.ofBool (b.getLsbD 5)) (b.toNat / 4 % 8 + 1) (b.toNat % 4 + 1)) ∧
    exec (.short (BitVec.ofBool (b.getLsbD 5)) (b.toNat / 4 % 8 + 1) (b.toNat % 4 + 1)) s =
      .next { s with dec := { s.dec with
        chunk := b, len := BitVec.ofNat 7 (b.toNat / 4 % 8 + 1), len2 := BitVec.ofNat 3 (b.toNat % 4 + 1),
        color := BitVec.ofBool (b.getLsbD 5) } }) ∧
  (∀ (b : Byte) (s : State), ∃ i, decode (.chunk b) = .ok i ∧ exec i s = .next { s with dec := loadChunk b s.dec })

/-- R185, from the width and height on, and R187: what a valid header does (that this is HEADER's own meaning is log 10). An empty image
commits Exhausted; any other commits Ready and loads the chunk byte at offset 6; a stream that ends before that byte is
STREAM_OVERRUN. -/
def Obligations.HeaderInstructionOutcomes : Prop :=
  ∀ (c0 : Bit) (w h : Half) (s : State),
    (w = 0#16 ∨ h = 0#16 →
      exec (.header c0 w h) s =
        .next { s with
          invalidFormat := false,
          dec := { DecState.reset with
            state := .exhausted, w := w, h := h, startColor := c0, base := s.streamBase, limit := s.streamLen, ptr := 6#32 } }) ∧
    (w ≠ 0#16 → h ≠ 0#16 → s.streamLen.toNat ≤ 6 →
      exec (.header c0 w h) s = .next { s with fault := .streamOverrun }) ∧
    (w ≠ 0#16 → h ≠ 0#16 → 7 ≤ s.streamLen.toNat →
      ∃ i t, decode (.chunk (headByte s 6)) = .ok i ∧ exec (.header c0 w h) s = .next t ∧
        exec i { s with
          invalidFormat := false,
          dec := { DecState.reset with
            state := .ready, w := w, h := h, startColor := c0, base := s.streamBase, limit := s.streamLen, ptr := 7#32 } } =
          .next t)

/-- R185: every outcome of DEC_INIT, from the stream's bytes and STREAM_LEN. -/
def Obligations.DecInitOutcomes : Prop :=
  decode (.command 0x20#32) = .ok .decInit ∧
  ∀ s : State,
    let L := s.streamLen.toNat
    let magic0 := headByte s 0 = 0xFE#8
    let magic1 := headByte s 1 &&& 0xFE#8 = 0xEC#8
    let c0 : Bit := BitVec.ofBool ((headByte s 1).getLsbD 0)
    let w : Half := BitVec.ofNat 16 ((headByte s 3).toNat * 256 + (headByte s 2).toNat)
    let h : Half := BitVec.ofNat 16 ((headByte s 5).toNat * 256 + (headByte s 4).toNat)
    (L = 0 → exec .decInit s = .next { s with fault := .streamOverrun }) ∧
    (1 ≤ L → ¬ magic0 → exec .decInit s = .next { s with invalidFormat := true }) ∧
    (L = 1 → magic0 → exec .decInit s = .next { s with fault := .streamOverrun }) ∧
    (2 ≤ L → magic0 → ¬ magic1 → exec .decInit s = .next { s with invalidFormat := true }) ∧
    (2 ≤ L → L ≤ 5 → magic0 → magic1 → exec .decInit s = .next { s with fault := .streamOverrun }) ∧
    (6 ≤ L → magic0 → magic1 → w = 0#16 ∨ h = 0#16 →
      exec .decInit s = .next { s with
        invalidFormat := false,
        dec := { state := .exhausted, w := w, h := h, startColor := c0, base := s.streamBase, limit := s.streamLen, ptr := 6#32,
                 chunk := 0#8, len := 0#7, len2 := 0#3, color := 0#1, x := 0#16, y := 0#16, pixel := 0#1 } }) ∧
    (L = 6 → magic0 → magic1 → w ≠ 0#16 → h ≠ 0#16 → exec .decInit s = .next { s with fault := .streamOverrun }) ∧
    (7 ≤ L → magic0 → magic1 → w ≠ 0#16 → h ≠ 0#16 →
      ∃ i t, decode (.chunk (headByte s 6)) = .ok i ∧ exec .decInit s = .next t ∧
        exec i { s with
          invalidFormat := false,
          dec := { state := .ready, w := w, h := h, startColor := c0, base := s.streamBase, limit := s.streamLen, ptr := 7#32,
                   chunk := 0#8, len := 0#7, len2 := 0#3, color := 0#1, x := 0#16, y := 0#16, pixel := 0#1 } } = .next t)

/-! ### DEC_PIXEL -/

/-- R189: in a LONG chunk the pixel is the current colour. -/
def Obligations.LongPixelRule : Prop :=
  ∀ s : State, s.dec.state = .ready → s.dec.chunk.getLsbD 7 = false → 1 ≤ s.dec.len.toNat →
    ∃ t, exec .decPixel s = .next t ∧ t.fault = s.fault ∧ t.dec.pixel = s.dec.color ∧ t.dec.len.toNat = s.dec.len.toNat - 1 ∧
      t.dec = { s.dec with pixel := t.dec.pixel, len := t.dec.len, x := t.dec.x, y := t.dec.y, state := t.dec.state }

/-- R190: in an UNCOMP chunk the pixel is bit `len - 1` of the chunk byte. -/
def Obligations.UncompPixelRule : Prop :=
  ∀ s : State, s.dec.state = .ready → s.dec.chunk.getLsbD 7 = true → s.dec.chunk.getLsbD 6 = false →
    1 ≤ s.dec.len.toNat → s.dec.len.toNat ≤ 6 →
    ∃ t, exec .decPixel s = .next t ∧ t.fault = s.fault ∧
      t.dec.pixel = BitVec.ofBool (s.dec.chunk.getLsbD (s.dec.len.toNat - 1)) ∧ t.dec.len.toNat = s.dec.len.toNat - 1 ∧
      t.dec = { s.dec with pixel := t.dec.pixel, len := t.dec.len, x := t.dec.x, y := t.dec.y, state := t.dec.state }

/-- R191: a SHORT chunk gives its first run in `color`, then its second in the other colour. -/
def Obligations.ShortPixelRule : Prop :=
  ∀ s : State, s.dec.state = .ready → s.dec.chunk.getLsbD 7 = true → s.dec.chunk.getLsbD 6 = true →
    (1 ≤ s.dec.len.toNat →
      ∃ t, exec .decPixel s = .next t ∧ t.fault = s.fault ∧ t.dec.pixel = s.dec.color ∧ t.dec.len.toNat = s.dec.len.toNat - 1 ∧
        t.dec = { s.dec with pixel := t.dec.pixel, len := t.dec.len, x := t.dec.x, y := t.dec.y, state := t.dec.state }) ∧
    (s.dec.len.toNat = 0 → 1 ≤ s.dec.len2.toNat →
      ∃ t, exec .decPixel s = .next t ∧ t.fault = s.fault ∧ t.dec.pixel.toNat = 1 - s.dec.color.toNat ∧
        t.dec.len2.toNat = s.dec.len2.toNat - 1 ∧
        t.dec = { s.dec with pixel := t.dec.pixel, len2 := t.dec.len2, x := t.dec.x, y := t.dec.y, state := t.dec.state })

/-- R181, R188 step 1: with both counters at 0 and a stream byte left, DEC_PIXEL reads the byte at `dec.ptr`, moves the pointer on by one,
runs the chunk the byte decodes to, and goes on as a DEC_PIXEL on the loaded chunk; with no byte left it is STREAM_OVERRUN. -/
def Obligations.DecPixelLoadsNextChunk : Prop :=
  ∀ s : State, s.dec.state = .ready → s.dec.len = 0#7 → s.dec.len2 = 0#3 →
    (s.dec.ptr.toNat < s.dec.limit.toNat →
      ∃ i u t, decode (.chunk (memRead s (s.dec.base + s.dec.ptr))) = .ok i ∧
        exec i { s with dec := { s.dec with ptr := s.dec.ptr + 1#32 } } = .next u ∧ u.dec.state = .ready ∧
        1 ≤ u.dec.len.toNat ∧ exec .decPixel s = .next t ∧ exec .decPixel u = .next t) ∧
    (s.dec.limit.toNat ≤ s.dec.ptr.toNat → exec .decPixel s = .next { s with fault := .streamOverrun })

/-- R193, R194: DEC_PIXEL in Exhausted and in Uninitialized. -/
def Obligations.DecPixelOutsideReady : Prop :=
  ∀ s : State,
    (s.dec.state = .exhausted →
      exec .decPixel s = .next { s with dec := { s.dec with pixel := 0#1 }, invalidFormat := false }) ∧
    (s.dec.state = .uninitialized → exec .decPixel s = .next { s with fault := .decNotReady })

/-- R192: each pixel moves the output cursor on by one position in raster order, and after exactly `dec.W * dec.H` pixels the decoder is
Exhausted with its cursor at `(0, dec.H)`. -/
def Obligations.OutputCursorAdvances : Prop :=
  (∀ s : State, s.dec.state = .ready → s.dec.x.toNat < s.dec.w.toNat → s.dec.y.toNat < s.dec.h.toNat →
    (s.dec.len ≠ 0#7 ∨ s.dec.len2 ≠ 0#3 ∨ s.dec.ptr.toNat < s.dec.limit.toNat) →
    ∃ t, exec .decPixel s = .next t ∧ t.dec.w = s.dec.w ∧ t.dec.h = s.dec.h ∧
      t.dec.y.toNat * s.dec.w.toNat + t.dec.x.toNat = s.dec.y.toNat * s.dec.w.toNat + s.dec.x.toNat + 1 ∧
      t.dec.x.toNat < s.dec.w.toNat ∧
      (t.dec.y.toNat < s.dec.h.toNat → t.dec.state = .ready) ∧
      (s.dec.h.toNat ≤ t.dec.y.toNat → t.dec.state = .exhausted)) ∧
  (∀ s v t : State, ∀ k : Nat, s.fault = .none →
    writeCmd 0x20#32 s = .next v → v.fault = .none → v.invalidFormat = false →
    repeatCmd 0x21#32 k v = .next t → t.fault = .none → k ≤ v.dec.w.toNat * v.dec.h.toNat →
    t.dec.y.toNat * v.dec.w.toNat + t.dec.x.toNat = k ∧
    (k = v.dec.w.toNat * v.dec.h.toNat ↔ t.dec.state = .exhausted) ∧
    (t.dec.state = .exhausted → v.dec.w ≠ 0#16 → v.dec.h ≠ 0#16 → t.dec.x = 0#16 ∧ t.dec.y = v.dec.h))

/-! ### The cursor -/

/-- R121: the pixel at `(x, y)` is bit `7 - (x mod 8)` of the byte at offset `(x div 8) + y * PITCH`; the spec's example. -/
def Obligations.PixelAddressing : Prop :=
  (∀ (s : State) (x y : Nat), x < s.W → y < s.H →
    pix s (y * s.W + x) =
      BitVec.ofBool ((memRead s (s.rasterBase + BitVec.ofNat 32 (x / 8 + y * s.P))).getLsbD (7 - x % 8))) ∧
  (∀ s : State, s.rasterBase = 0x1000#32 → s.rasterPitch = 4#16 → pixelAddr s 13 2 = 0x1009#32 ∧ pixelBit 13 = 2)

/-- R67: under ENC_INIT's preconditions every pixel's byte lies in the raster region, at an offset below 2^32. -/
def Obligations.RasterOffsetsStayInRegion : Prop :=
  ∀ (s : State) (x y : Nat), geometryOk s → x < s.W → y < s.H →
    inRasterRegion s (pixelAddr s x y) ∧ x / 8 + y * s.P < s.P * s.H ∧ x / 8 + y * s.P ≤ 4294778881

/-- R125: CUR_READ gives the pixel at the cursor and moves on by one position, or gives 0 at the end of the image. -/
def Obligations.CurReadReadsAndAdvances : Prop :=
  decode (.command 0x02#32) = .ok .curRead ∧
  ∀ s : State,
    (s.H ≤ s.enc.y.toNat ∨ s.W = 0 →
      exec .curRead s = .next { s with enc := { s.enc with curPixel := 0#1 }, invalidFormat := false }) ∧
    (s.enc.x.toNat < s.W → s.enc.y.toNat < s.H →
      ∃ t, exec .curRead s = .next t ∧ t.enc.curPixel = pix s (s.enc.y.toNat * s.W + s.enc.x.toNat) ∧
        t.enc.y.toNat * s.W + t.enc.x.toNat = s.enc.y.toNat * s.W + s.enc.x.toNat + 1 ∧ t.enc.x.toNat < s.W ∧
        t = { s with
          enc := { s.enc with x := t.enc.x, y := t.enc.y, curPixel := t.enc.curPixel }, invalidFormat := false })

/-- R123: at the end of the image a read gives 0 whatever memory holds, and moves nothing. -/
def Obligations.SentinelReadIgnoresMemory : Prop :=
  ∀ (s : State) (m : Memory), s.H ≤ s.enc.y.toNat ∨ s.W = 0 →
    ∃ t, exec .curRead { s with mem := m } = .next t ∧ t.enc.curPixel = 0#1 ∧ t.enc.x = s.enc.x ∧ t.enc.y = s.enc.y ∧
      t.fault = s.fault ∧ t.mem = m ∧ (∀ i, s.N ≤ i → pix { s with mem := m } i = 0#1)

/-- R126: CUR_RESET. -/
def Obligations.CurResetMovesToOrigin : Prop :=
  decode (.command 0x01#32) = .ok .curReset ∧
  ∀ s : State, exec .curReset s = .next { s with enc := { s.enc with x := 0#16, y := 0#16 }, invalidFormat := false }

/-- R127: setting the cursor from a linear position, its inverse, and the end position. -/
def Obligations.SetLinIsInverse : Prop :=
  (∀ (s : State) (i : Nat), 1 ≤ s.W → i ≤ s.N →
    (setLin i s).enc.x.toNat = i % s.W ∧ (setLin i s).enc.y.toNat = i / s.W ∧ (setLin i s).cursorLin = i ∧
    setLin i s = { s with enc := { s.enc with x := (setLin i s).enc.x, y := (setLin i s).enc.y } }) ∧
  (∀ s : State, 1 ≤ s.W → (setLin s.N s).enc.x = 0#16 ∧ (setLin s.N s).enc.y = s.heightField) ∧
  (∀ s : State, 1 ≤ s.W → s.cursorInv → setLin s.cursorLin s = s)

/-- R128: a rewind of `k` positions, across as many rows as it needs. -/
def Obligations.RewindMovesBack : Prop :=
  ∀ (s : State) (k : Nat), 1 ≤ s.W → s.cursorInv → k ≤ s.cursorLin →
    (rewind k s).cursorLin = s.cursorLin - k ∧ (rewind k s).cursorInv ∧
    rewind k s = { s with enc := { s.enc with x := (rewind k s).enc.x, y := (rewind k s).enc.y } }

/-! ### The encoder -/

/-- R142: run detection gives the longest run of real pixels of one colour, up to 71, and nothing else is such a run. -/
def Obligations.RunDetectionIsLongest : Prop :=
  ∀ (s : State) (i : Nat),
    IsRun s i (runDetect s i) ∧ (∀ run, IsRun s i run → run = runDetect s i) ∧
    (s.N ≤ i → runDetect s i = 0 ∧ runColor s i = 0#1) ∧
    (i < s.N → 1 ≤ runDetect s i ∧ runColor s i = pix s i)

/-- R161: after a first run of at most 8 pixels, the second run is empty exactly when the first reached the image end, and where it is
not, run detection there gives the other colour. -/
def Obligations.SecondRunHasOtherColour : Prop :=
  ∀ (s : State) (i : Nat), i < s.N → runDetect s i ≤ 8 →
    (runDetect s (i + runDetect s i) = 0 ↔ i + runDetect s i = s.N) ∧
    (1 ≤ runDetect s (i + runDetect s i) →
      (runColor s (i + runDetect s i)).toNat = 1 - (runColor s i).toNat)

/-- R145, R147, R148, R149: which chunk a pass emits, the byte's value and where the pass ends. -/
def Obligations.PassChoosesChunk : Prop :=
  ∀ (s : State) (i r1 r2 : Nat), i < s.N → IsRun s i r1 → IsRun s (i + r1) r2 →
    let c := (pix s i).toNat
    (8 < r1 → encPass s i = (BitVec.ofNat 8 (c * 64 + (r1 - 8)), i + r1)) ∧
    (r1 ≤ 8 → r1 + r2 < 7 →
      encPass s i =
        (BitVec.ofNat 8 (128 + (pix s i).toNat * 32 + (pix s (i + 1)).toNat * 16 + (pix s (i + 2)).toNat * 8
          + (pix s (i + 3)).toNat * 4 + (pix s (i + 4)).toNat * 2 + (pix s (i + 5)).toNat), min (i + 6) s.N)) ∧
    (r1 ≤ 8 → 7 ≤ r1 + r2 → 1 ≤ r2 →
      encPass s i = (BitVec.ofNat 8 (192 + c * 32 + (r1 - 1) * 4 + (min r2 4 - 1)), i + r1 + min r2 4)) ∧
    (r1 ≤ 8 → 7 ≤ r1 + r2 → r2 = 0 →
      i + r1 = s.N ∧ encPass s i = (BitVec.ofNat 8 (192 + c * 32 + (r1 - 1) * 4), s.N))

/-- R156: every chunk the encoder emits keeps its kind's bounds; a SHORT with no second run has `r2 = 1` (the tail of R149). -/
def Obligations.EmittedChunkBounds : Prop :=
  ∀ (s : State) (i : Nat), i < s.N →
    (∃ c n, decode (.chunk (encPass s i).1) = .ok (.long c n) ∧ 9 ≤ n ∧ n ≤ 71) ∨
    (∃ c r1 r2, decode (.chunk (encPass s i).1) = .ok (.short c r1 r2) ∧ 1 ≤ r1 ∧ r1 ≤ 8 ∧ 1 ≤ r2 ∧ r2 ≤ 4 ∧
      (r2 = 4 ∨ 7 ≤ r1 + r2) ∧ (IsRun s (i + r1) 0 → r2 = 1)) ∨
    (∃ p r1 r2, decode (.chunk (encPass s i).1) = .ok (.uncomp p) ∧ IsRun s i r1 ∧ IsRun s (i + r1) r2 ∧ r1 + r2 < 7)

/-- R157: how far a pass moves on: at least one pixel, never past the image, and at least 5 unless it is the last. -/
def Obligations.PassProgress : Prop :=
  ∀ (s : State) (i r1 r2 : Nat), i < s.N → IsRun s i r1 → IsRun s (i + r1) r2 →
    i + 1 ≤ (encPass s i).2 ∧ (encPass s i).2 ≤ s.N ∧ ((encPass s i).2 < s.N → i + 5 ≤ (encPass s i).2) ∧
    (8 < r1 → (encPass s i).2 = i + r1) ∧
    (r1 ≤ 8 → r1 + r2 < 7 → (encPass s i).2 = min (i + 6) s.N) ∧
    (r1 ≤ 8 → 7 ≤ r1 + r2 → 1 ≤ r2 → (encPass s i).2 = i + r1 + min r2 4 ∧ i + 5 ≤ (encPass s i).2) ∧
    (r1 ≤ 8 → 7 ≤ r1 + r2 → r2 = 0 → (encPass s i).2 = i + r1 ∧ (r1 = 7 ∨ r1 = 8))

/-- R158 for one pass: the chunk's pixels begin with the raster's pixels that the pass moves over; only the last chunk has excess pixels,
and at most 5. -/
def Obligations.PassEncodesItsPixels : Prop :=
  ∀ (s : State) (i : Nat), i < s.N →
    (chunkExpansion (encPass s i).1).take ((encPass s i).2 - i)
      = (List.range ((encPass s i).2 - i)).map (fun k => pix s (i + k)) ∧
    (encPass s i).2 - i ≤ chunkPixels (encPass s i).1 ∧
    chunkPixels (encPass s i).1 ≤ (encPass s i).2 - i + 5 ∧
    ((encPass s i).2 < s.N → chunkPixels (encPass s i).1 = (encPass s i).2 - i)

/-- R152 with R141, R151 and R74: every outcome of ENC_INIT. That its faults come before R74's refusal is log 15. -/
def Obligations.EncInitOutcomes : Prop :=
  decode (.command 0x10#32) = .ok .encInit ∧
  ∀ s : State, s.mem.wf = true →
    (¬ geometryOk s → exec .encInit s = .next { s with fault := .param }) ∧
    (geometryOk s → s.outCap.toNat < 6 → exec .encInit s = .next { s with fault := .outOverflow }) ∧
    (geometryOk s → 6 ≤ s.outCap.toNat → (∃ k < 6, inRasterRegion s (s.outBase + BitVec.ofNat 32 k)) →
      exec .encInit s = .refused .rasterOverlap) ∧
    (geometryOk s → 6 ≤ s.outCap.toNat → (∀ k < 6, ¬ inRasterRegion s (s.outBase + BitVec.ofNat 32 k)) →
      ∃ t, exec .encInit s = .next t ∧
        t = { s with
          mem := t.mem, invalidFormat := false,
          enc := { s.enc with x := 0#16, y := 0#16, outLen := 6#32, phase := .running } } ∧
        pix s 0 = BitVec.ofBool ((memRead s s.rasterBase).getLsbD 7) ∧
        memRead t s.outBase = 0xFE#8 ∧ memRead t (s.outBase + 1#32) = BitVec.ofNat 8 (0xEC + (pix s 0).toNat) ∧
        memRead t (s.outBase + 2#32) = BitVec.ofNat 8 (s.W % 256) ∧ memRead t (s.outBase + 3#32) = BitVec.ofNat 8 (s.W / 256) ∧
        memRead t (s.outBase + 4#32) = BitVec.ofNat 8 (s.H % 256) ∧ memRead t (s.outBase + 5#32) = BitVec.ofNat 8 (s.H / 256) ∧
        (∀ a : Word, (∀ k < 6, a ≠ s.outBase + BitVec.ofNat 32 k) → memRead t a = memRead s a))

/-- R153 with R74: every outcome of ENC_STEP. That its faults come before R74's refusal is log 15. -/
def Obligations.EncStepOutcomes : Prop :=
  decode (.command 0x11#32) = .ok .encStep ∧
  ∀ s : State, s.mem.wf = true →
    (s.enc.phase = .idle → exec .encStep s = .next { s with fault := .encNotReady }) ∧
    (s.enc.phase = .done → exec .encStep s = .next { s with invalidFormat := false }) ∧
    (s.enc.phase = .running → s.H ≤ s.enc.y.toNat ∨ s.W = 0 →
      exec .encStep s = .next { s with enc := { s.enc with phase := .done }, invalidFormat := false }) ∧
    (s.enc.phase = .running → 1 ≤ s.W → s.enc.y.toNat < s.H → s.outCap.toNat ≤ s.enc.outLen.toNat →
      exec .encStep s = .next { s with fault := .outOverflow }) ∧
    (s.enc.phase = .running → 1 ≤ s.W → s.enc.y.toNat < s.H → s.enc.outLen.toNat < s.outCap.toNat →
      inRasterRegion s (s.outBase + s.enc.outLen) → exec .encStep s = .refused .rasterOverlap) ∧
    (s.enc.phase = .running → s.enc.x.toNat < s.W → s.enc.y.toNat < s.H → s.enc.outLen.toNat < s.outCap.toNat →
      ¬ inRasterRegion s (s.outBase + s.enc.outLen) →
      ∃ t, exec .encStep s = .next t ∧
        t = { s with enc := { t.enc with curPixel := s.enc.curPixel }, mem := t.mem, invalidFormat := false } ∧
        memRead t (s.outBase + s.enc.outLen) = (encPass s (s.enc.y.toNat * s.W + s.enc.x.toNat)).1 ∧
        (∀ a : Word, a ≠ s.outBase + s.enc.outLen → memRead t a = memRead s a) ∧
        t.enc.outLen.toNat = s.enc.outLen.toNat + 1 ∧
        t.enc.y.toNat * s.W + t.enc.x.toNat = (encPass s (s.enc.y.toNat * s.W + s.enc.x.toNat)).2 ∧
        t.enc.x.toNat < s.W ∧
        (t.enc.y.toNat < s.H → t.enc.phase = .running) ∧ (s.H ≤ t.enc.y.toNat → t.enc.phase = .done))

/-- R154: an ENC_RUN without a fault is ENC_INIT and then ENC_STEPs until DONE, at most `N` of them (R162), each writing one chunk. -/
def Obligations.EncRunIsInitThenSteps : Prop :=
  ∀ s t : State, s.mem.wf = true → s.fault = .none → exec .encRun s = .next t → t.fault = .none →
    ∃ u k, exec .encInit s = .next u ∧ encSteps k u t ∧ 1 ≤ k ∧ k ≤ s.N ∧
      t.enc.phase = .done ∧ t.enc.x = 0#16 ∧ t.enc.y = s.heightField ∧ t.enc.outLen.toNat = 6 + k

/-- R155, R162: an ENC_RUN whose output region holds `7 + floor((N - 1)/5)` bytes and lies apart from the raster completes. -/
def Obligations.EncRunCompletesWithRoom : Prop :=
  ∀ s : State, s.mem.wf = true → s.fault = .none → geometryOk s → 7 + (s.N - 1) / 5 ≤ s.outCap.toNat →
    (∀ a, inOutputRegion s a → ¬ inRasterRegion s a) →
    ∃ t, exec .encRun s = .next t ∧ t.fault = .none ∧ t.enc.phase = .done ∧ t.invalidFormat = false ∧
      7 ≤ t.enc.outLen.toNat ∧ t.enc.outLen.toNat ≤ 7 + (s.N - 1) / 5

/-- R159: the stream of a raster of one colour. -/
def Obligations.OneColourRasterStream : Prop :=
  ∀ (s t : State) (c : Bit), s.mem.wf = true → s.fault = .none → 8 ≤ s.N → (∀ i < s.N, pix s i = c) →
    exec .encRun s = .next t → t.fault = .none →
    t.enc.outLen.toNat = 6 + (s.N + 70) / 71 ∧
    (∀ q < s.N / 71, decode (.chunk (memRead t (s.outBase + BitVec.ofNat 32 (6 + q)))) = .ok (.long c 71)) ∧
    (∀ r, r = s.N % 71 → r ≠ 0 →
      let tail := memRead t (s.outBase + BitVec.ofNat 32 (6 + s.N / 71))
      (9 ≤ r → decode (.chunk tail) = .ok (.long c r)) ∧
      (7 ≤ r → r ≤ 8 → decode (.chunk tail) = .ok (.short c r 1)) ∧
      (r ≤ 6 → chunkExpansion tail = List.replicate r c ++ List.replicate (6 - r) 0#1 ∧
        ∃ p, decode (.chunk tail) = .ok (.uncomp p)))

/-- R160: equal widths, heights and pixels give byte-identical streams, whatever the pitch, the bases and the padding. -/
def Obligations.EncoderIgnoresPitchAndPadding : Prop :=
  ∀ s s' t t' : State, s.mem.wf = true → s'.mem.wf = true → s.fault = .none → s'.fault = .none →
    s'.rasterDim = s.rasterDim → (∀ i < s.N, pix s' i = pix s i) →
    exec .encRun s = .next t → t.fault = .none → exec .encRun s' = .next t' → t'.fault = .none →
    t'.enc.outLen = t.enc.outLen ∧
    ∀ k < t.enc.outLen.toNat,
      memRead t' (s'.outBase + BitVec.ofNat 32 k) = memRead t (s.outBase + BitVec.ofNat 32 k)

/-! ### Frames -/

/-- R125, R126: the cursor commands change only the cursor, CUR_PIXEL and the result flag; they never fault. -/
def Obligations.CursorCommandsFrame : Prop :=
  ∀ s : State, ∀ i ∈ [Instr.curReset, Instr.curRead],
    ∃ t, exec i s = .next t ∧
      t = { s with
        invalidFormat := false,
        enc := { s.enc with x := t.enc.x, y := t.enc.y, curPixel := t.enc.curPixel } } ∧
      (∀ a, memRead t a = memRead s a) ∧ (i = .curReset → t.enc.curPixel = s.enc.curPixel)

/-- R20, R33, R61, R239: the decoder's instructions change only the decoder, the result flag and the fault code, and never memory
(HEADER is an instruction by log 10). A DEC_PIXEL leaves the session's elements alone and moves `dec.ptr` only by the one byte it loads. -/
def Obligations.DecoderInstructionsFrame : Prop :=
  ∀ (i : Instr) (s t : State),
    ((∃ c n, i = .long c n) ∨ (∃ p, i = .uncomp p) ∨ (∃ c r1 r2, i = .short c r1 r2) ∨ (∃ c w h, i = .header c w h) ∨
      i = .decInit ∨ i = .decPixel) →
    exec i s = .next t →
    t = { s with dec := t.dec, invalidFormat := t.invalidFormat, fault := t.fault } ∧
    (∀ a, memRead t a = memRead s a) ∧
    (i = .decPixel →
      t.dec.w = s.dec.w ∧ t.dec.h = s.dec.h ∧ t.dec.startColor = s.dec.startColor ∧ t.dec.base = s.dec.base ∧
      t.dec.limit = s.dec.limit ∧
      (t.dec.ptr = s.dec.ptr ∨
        (s.dec.len = 0#7 ∧ s.dec.len2 = 0#3 ∧ s.dec.ptr.toNat < s.dec.limit.toNat ∧
          t.dec.ptr.toNat = s.dec.ptr.toNat + 1)))

/-- R20, R61, R69, R239: the encoder's commands change only the encoder without CUR_PIXEL, the result flag, the fault code and memory:
ENC_INIT the six header bytes, ENC_STEP the byte at `chunkAddr s` and only when it emits a chunk, ENC_RUN bytes of the output
region. -/
def Obligations.EncoderCommandsFrame : Prop :=
  ∀ s t : State, ∀ i ∈ [Instr.encInit, Instr.encStep, Instr.encRun], exec i s = .next t →
    t = { s with
      enc := { t.enc with curPixel := s.enc.curPixel }, mem := t.mem, invalidFormat := t.invalidFormat, fault := t.fault } ∧
    (i = .encInit → ∀ a : Word, (∀ k < 6, a ≠ s.outBase + BitVec.ofNat 32 k) → memRead t a = memRead s a) ∧
    (i = .encStep → ∀ a : Word, a ≠ chunkAddr s → memRead t a = memRead s a) ∧
    (i = .encStep → emits s = false → ∀ a, memRead t a = memRead s a) ∧
    (i = .encRun → ∀ a : Word, ¬ inOutputRegion s a → memRead t a = memRead s a)

/-- R74, R61: an encoding command that has a step leaves every byte of the raster region as it was, and one that has none is refused
because a byte of its output region is in the raster region (log 15). -/
def Obligations.EncoderLeavesRasterAlone : Prop :=
  ∀ s : State, ∀ i ∈ [Instr.encInit, Instr.encStep, Instr.encRun],
    (∀ t, exec i s = .next t → ∀ a, inRasterRegion s a → memRead t a = memRead s a) ∧
    (∀ r, exec i s = .refused r → r = .rasterOverlap ∧ ∃ a, inOutputRegion s a ∧ inRasterRegion s a) ∧
    (∀ f, exec i s ≠ .fault f)

/-- R61, R67, R68: DEC_PIXEL and DEC_INIT depend on memory only through their stream's bytes. With the preconditions of ENC_INIT, CUR_READ
inside the raster or at its end, ENC_INIT, ENC_STEP and ENC_RUN depend on it only through the raster region: over another memory that
agrees there they give the same state and write the same bytes. An encoder pass gives the same chunk and the same end. -/
def Obligations.EngineReadsOnlyItsRegions : Prop :=
  (∀ (s t : State) (m : Memory),
    (∀ k < s.dec.limit.toNat, memRead { s with mem := m } (s.dec.base + BitVec.ofNat 32 k) = memRead s (s.dec.base + BitVec.ofNat 32 k)) →
    exec .decPixel s = .next t → exec .decPixel { s with mem := m } = .next { t with mem := m }) ∧
  (∀ (s t : State) (m : Memory),
    (∀ k < s.streamLen.toNat, headByte { s with mem := m } k = headByte s k) →
    exec .decInit s = .next t → exec .decInit { s with mem := m } = .next { t with mem := m }) ∧
  (∀ (s : State) (m : Memory), geometryOk s →
    (∀ a, inRasterRegion s a → memRead { s with mem := m } a = memRead s a) →
    (∀ i, encPass { s with mem := m } i = encPass s i) ∧
    (∀ t, s.enc.x.toNat < s.W ∨ s.H ≤ s.enc.y.toNat → exec .curRead s = .next t →
      exec .curRead { s with mem := m } = .next { t with mem := m }) ∧
    (∀ t, s.mem.wf = true → m.wf = true → ∀ i ∈ [Instr.encInit, Instr.encStep, Instr.encRun], exec i s = .next t →
      ∃ m', exec i { s with mem := m } = .next { t with mem := m' } ∧ sameWrites s.mem m t.mem m'))

/-! ### Results and faults -/

/-- R226: what becomes of STATUS.INVALID_FORMAT. For an ENC_RUN that faults in a pass this is log 7's reading. -/
def Obligations.InvalidFormatRule : Prop :=
  (∀ s t : State, ∀ i ∈ [Instr.curReset, Instr.curRead, Instr.encInit, Instr.encStep, Instr.encRun, Instr.decInit, Instr.decPixel],
    s.fault = .none → exec i s = .next t →
    (t.fault ≠ .none → t.invalidFormat = s.invalidFormat) ∧
    (t.fault = .none → (t.invalidFormat = true ↔ i = .decInit ∧ findsBadMagic s))) ∧
  (∀ s : State, findsBadMagic s → exec .decInit s = .next { s with invalidFormat := true }) ∧
  (∀ (s : State) (w : Word), s.fault ≠ .none → writeCmd w s = .next s) ∧
  (∀ s t : State, hostRead 4 4 s = .next t → t.invalidFormat = s.invalidFormat)

/-- R223: faults are precise. A faulting command changes STATUS.FAULT and nothing else; a fault in a pass of ENC_RUN keeps the header
and the passes before it (STATUS.INVALID_FORMAT: log 7). -/
def Obligations.FaultsArePrecise : Prop :=
  ∀ (i : Instr) (s t : State), s.fault = .none → exec i s = .next t → t.fault ≠ .none →
    t = { s with fault := t.fault } ∨
    (i = .encRun ∧ ∃ k u v, exec .encInit s = .next u ∧ encSteps k u v ∧ v.fault = .none ∧
      exec .encStep v = .next { v with fault := t.fault } ∧
      t = { v with fault := t.fault, invalidFormat := s.invalidFormat })

/-- R221, R222: the codes; which command raises each, and the cause; and that neither a chunk nor, but for the stream's length in
DEC_INIT and the number of chunks in ENC_RUN, what memory holds decides whether a command faults; only DEC_INIT
sets INVALID_FORMAT. That HEADER can raise STREAM_OVERRUN is
log 10's reading of R185. -/
def Obligations.FaultCodesAndCauses : Prop :=
  ([FaultCode.none, .param, .outOverflow, .streamOverrun, .illegalCmd, .decNotReady, .encNotReady, .busyViolation].map
    fun c => c.code.toNat) = [0, 1, 2, 3, 4, 5, 6, 7] ∧
  (∀ (i : Instr) (s t : State), s.fault = .none → exec i s = .next t →
    (t.fault = .param → (i = .encInit ∨ i = .encRun) ∧ ¬ geometryOk s) ∧
    (t.fault = .outOverflow →
      ((i = .encInit ∨ i = .encRun) ∧ geometryOk s ∧ s.outCap.toNat < 6) ∨
      (i = .encStep ∧ s.enc.phase = .running ∧ s.enc.y.toNat < s.H ∧ s.outCap.toNat ≤ s.enc.outLen.toNat) ∨
      (i = .encRun ∧ ∃ k u v, exec .encInit s = .next u ∧ encSteps k u v ∧
        v.enc.phase = .running ∧ v.enc.y.toNat < v.H ∧ v.outCap.toNat ≤ v.enc.outLen.toNat)) ∧
    (t.fault = .streamOverrun →
      (i = .decPixel ∧ s.dec.state = .ready ∧ s.dec.len = 0#7 ∧ s.dec.len2 = 0#3 ∧ s.dec.limit.toNat ≤ s.dec.ptr.toNat) ∨
      (i = .decInit ∧ ¬ findsBadMagic s ∧ s.streamLen.toNat ≤ 6 ∧
        (s.streamLen.toNat = 6 →
          (headByte s 2 ≠ 0#8 ∨ headByte s 3 ≠ 0#8) ∧ (headByte s 4 ≠ 0#8 ∨ headByte s 5 ≠ 0#8))) ∨
      (s.streamLen.toNat ≤ 6 ∧ ∃ c w h, i = .header c w h ∧ w ≠ 0#16 ∧ h ≠ 0#16)) ∧
    (t.fault = .decNotReady → i = .decPixel ∧ s.dec.state = .uninitialized) ∧
    (t.fault = .encNotReady → i = .encStep ∧ s.enc.phase = .idle) ∧
    t.fault ≠ .illegalCmd ∧ t.fault ≠ .busyViolation) ∧
  (∀ (s : State) (b : Byte), ∃ i t, decode (.chunk b) = .ok i ∧ exec i s = .next t ∧ t.fault = s.fault) ∧
  (∀ (s t u : State) (m : Memory), ∀ i ∈ [Instr.curReset, Instr.curRead, Instr.encInit, Instr.encStep, Instr.decPixel],
    exec i s = .next t → exec i { s with mem := m } = .next u → u.fault = t.fault) ∧
  (∀ (i : Instr) (s t : State), exec i s = .next t → s.invalidFormat = false → t.invalidFormat = true → i = .decInit)

/-- R224, R225: while a fault is set a CMD write is ignored, other register writes and register reads work as they do without it, and
only reset clears it. That accesses go on under a fault is R224 as log 3 reads it; in a state with STATUS.BUSY = 1, which no run reaches,
that a write keeps the fault is log 5. -/
def Obligations.FaultIsSticky : Prop :=
  (∀ s : State, s.fault ≠ .none →
    (∀ w, writeCmd w s = .next s) ∧
    (∀ r v t, r ≠ .cmd → writeReg r v { s with fault := .none } = .next t → writeReg r v s = .next { t with fault := s.fault }) ∧
    (∀ r, r ≠ .status → readReg s r = readReg { s with fault := .none } r) ∧
    (∀ t, (∀ rest, s.host.pending ≠ .reset :: rest) → step s = .next t → t.fault = s.fault)) ∧
  (∀ (s : State) (rest : List HostAccess), s.host.pending = .reset :: rest → ∃ t, step s = .next t ∧ t.fault = .none)

/-- R227 (its first three checks and the command), R233: the order of checks on a register write. -/
def Obligations.CommandWriteCheckOrder : Prop :=
  ∀ (s : State) (w : Word),
    (s.fault ≠ .none → hostWrite 0 4 w s = .next s) ∧
    (s.fault = .none → s.busy = true → ∀ k < 24, hostWrite (4 * k) 4 w s = .next { s with fault := .busyViolation }) ∧
    (s.fault = .none → s.busy = false →
      (∀ r, decode (.command w) = .error r → hostWrite 0 4 w s = .next { s with fault := .illegalCmd }) ∧
      (∀ i, decode (.command w) = .ok i → hostWrite 0 4 w s = exec i s))

/-! ### The step, reset and the register window -/

/-- R1, R23, R181, R185: a step runs the decoded instruction: the command a CMD write holds, the header a DEC_INIT reads, the chunk a
DEC_PIXEL loads (whose pixel it then gives); a host with nothing pending leaves the block as it is (R237; the
host's list is log 2). That a DEC_INIT is exec of its header is log 10's reading of R185. The last clause is about the model's own placing
of a command word (log 6). -/
def Obligations.StepRunsDecodedInstruction : Prop :=
  (∀ (s : State) (rest : List HostAccess) (w : Word) (i : Instr),
    s.host.pending = .regWrite 0 4 w :: rest → s.busy = false → s.fault = .none → decode (.command w) = .ok i →
    step s = exec i { s with host := { s.host with pending := rest } }) ∧
  (∀ (s : State) (rest : List HostAccess) (i : Instr),
    s.host.pending = .regWrite 0 4 0x20#32 :: rest → s.busy = false → s.fault = .none → 6 ≤ s.streamLen.toNat →
    decode (.header (headByte s 0) (headByte s 1) (headByte s 2) (headByte s 3) (headByte s 4) (headByte s 5)) = .ok i →
    step s = exec i { s with host := { s.host with pending := rest } }) ∧
  (∀ (s : State) (rest : List HostAccess) (i : Instr),
    s.host.pending = .regWrite 0 4 0x21#32 :: rest → s.busy = false → s.fault = .none → s.dec.state = .ready →
    s.dec.len = 0#7 → s.dec.len2 = 0#3 → s.dec.ptr.toNat < s.dec.limit.toNat →
    decode (.chunk (memRead s (s.dec.base + s.dec.ptr))) = .ok i →
    ∃ u, exec i { s with host := { s.host with pending := rest }, dec := { s.dec with ptr := s.dec.ptr + 1#32 } } = .next u ∧
      step s = exec .decPixel u) ∧
  (∀ s : State, s.host.pending = [] → step s = .next s) ∧
  (∀ (s : State) (w : Nat) (i : Instr), decodeTableWord 32 w = some i →
    step (s.withFetchWord 32 w) = exec i { s with busy := false, fault := .none })

/-- R43, R260, R261: the state after reset, and the reset input: every element to its reset value, host memory unchanged
(R260). That reset leaves the host's list is log 12. -/
def Obligations.ResetValues : Prop :=
  (readReg State.reset .status = 0x40#32 ∧ ∀ r, r ≠ .status → readReg State.reset r = 0#32) ∧
  (∀ (s : State) (rest : List HostAccess), s.host.pending = .reset :: rest →
    ∃ t, step s = .next t ∧ t.mem = s.mem ∧ t.host = { s.host with pending := rest } ∧
      t.rasterBase = 0#32 ∧ t.rasterDim = 0#32 ∧ t.rasterPitch = 0#16 ∧ t.outBase = 0#32 ∧ t.outCap = 0#32 ∧
      t.streamBase = 0#32 ∧ t.streamLen = 0#32 ∧
      t.enc = { x := 0#16, y := 0#16, phase := .idle, outLen := 0#32, curPixel := 0#1 } ∧
      t.dec = { state := .uninitialized, w := 0#16, h := 0#16, startColor := 0#1, base := 0#32, limit := 0#32, ptr := 0#32,
                chunk := 0#8, len := 0#7, len2 := 0#3, color := 0#1, x := 0#16, y := 0#16, pixel := 0#1 } ∧
      t.busy = false ∧ t.invalidFormat = false ∧ t.fault = .none ∧ statusWord t = 0x40#32)

/-- R21, R22, R26, R27, R29, R34, R36, R37, R38: what a read of each of the 24 registers returns; a read changes nothing of the block. -/
def Obligations.RegisterReads : Prop :=
  ∀ s : State,
    ∀ p ∈ [(0x00, 0#32), (0x04, statusWord s), (0x08, s.rasterBase), (0x0C, s.rasterDim),
      (0x10, BitVec.ofNat 32 s.rasterPitch.toNat), (0x14, BitVec.ofNat 32 (s.enc.y.toNat * 65536 + s.enc.x.toNat)),
      (0x18, BitVec.ofNat 32 s.enc.curPixel.toNat), (0x1C, s.outBase), (0x20, s.outCap), (0x24, s.enc.outLen),
      (0x28, 0#32), (0x2C, 0#32), (0x30, 0#32), (0x34, 0#32), (0x38, 0#32), (0x3C, 0#32),
      (0x40, s.streamBase), (0x44, s.streamLen), (0x48, BitVec.ofNat 32 (s.dec.h.toNat * 65536 + s.dec.w.toNat)),
      (0x4C, decRunWord s.dec), (0x50, s.dec.ptr), (0x54, BitVec.ofNat 32 (s.dec.y.toNat * 65536 + s.dec.x.toNat)),
      (0x58, BitVec.ofNat 32 s.dec.pixel.toNat), (0x5C, 0#32)],
    hostRead p.1 4 s = .next { s with host := { s.host with lastRead := some p.2 } }

/-- R22, R63: accesses of another width or alignment are refused; writes to read-only registers and reserved offsets are ignored. -/
def Obligations.RegisterAccessRules : Prop :=
  (∀ (s : State) (off bytes : Nat) (v : Word), bytes ≠ 4 ∨ off % 4 ≠ 0 →
    hostWrite off bytes v s = .refused (.registerAccess off bytes) ∧ hostRead off bytes s = .refused (.registerAccess off bytes)) ∧
  (∀ (s : State) (v : Word), s.busy = false →
    ∀ off ∈ [0x04, 0x14, 0x18, 0x24, 0x28, 0x2C, 0x30, 0x34, 0x38, 0x3C, 0x48, 0x4C, 0x50, 0x54, 0x58, 0x5C],
      hostWrite off 4 v s = .next s)

/-- R25: a geometry write stores its register, moves the cursor to (0,0) and sets IDLE, whatever the value. -/
def Obligations.GeometryWrites : Prop :=
  ∀ (s : State) (v : Word), s.busy = false →
    let e : EncState := { s.enc with x := 0#16, y := 0#16, phase := .idle }
    hostWrite 0x08 4 v s = .next { s with rasterBase := v, enc := e } ∧
    (∃ t, hostWrite 0x0C 4 v s = .next t ∧ t = { s with rasterDim := t.rasterDim, enc := e } ∧
      t.W = v.toNat % 65536 ∧ t.H = v.toNat / 65536) ∧
    (∃ t, hostWrite 0x10 4 v s = .next t ∧ t = { s with rasterPitch := t.rasterPitch, enc := e } ∧ t.P = v.toNat % 65536)

/-- R28, R31: an output register's write stores it, sets IDLE and leaves the cursor alone; a stream register's write changes nothing else. -/
def Obligations.OutputAndStreamWrites : Prop :=
  ∀ (s : State) (v : Word), s.busy = false →
    hostWrite 0x1C 4 v s = .next { s with outBase := v, enc := { s.enc with phase := .idle } } ∧
    hostWrite 0x20 4 v s = .next { s with outCap := v, enc := { s.enc with phase := .idle } } ∧
    hostWrite 0x40 4 v s = .next { s with streamBase := v } ∧
    hostWrite 0x44 4 v s = .next { s with streamLen := v }

/-- R24: the fields of STATUS. -/
def Obligations.StatusFields : Prop :=
  ∀ s : State,
    (statusWord s).getLsbD 0 = s.busy ∧ (statusWord s).getLsbD 1 = s.invalidFormat ∧
    ((statusWord s).toNat / 4 % 4 = match s.dec.state with | .uninitialized => 0 | .ready => 1 | .exhausted => 2) ∧
    ((statusWord s).toNat / 16 % 4 = match s.enc.phase with | .idle => 0 | .running => 1 | .done => 2) ∧
    ((statusWord s).getLsbD 6 = true ↔ s.H ≤ s.enc.y.toNat ∨ s.W = 0) ∧
    (statusWord s).getLsbD 7 = false ∧ (statusWord s).toNat / 256 = s.fault.code.toNat ∧ s.fault.code.toNat ≤ 7

/-- R35: the fields of DEC_RUN, and its reset value. -/
def Obligations.DecRunFields : Prop :=
  (∀ d : DecState,
    (decRunWord d).toNat =
      d.len.toNat + d.len2.toNat * 2 ^ 8 + d.color.toNat * 2 ^ 12 + d.startColor.toNat * 2 ^ 13 + d.chunk.toNat * 2 ^ 16) ∧
  decRunWord State.reset.dec = 0#32

/-- R75, R267: a host write of a memory byte is seen by later reads, changes no other byte and nothing of the block. -/
def Obligations.HostMemoryWrite : Prop :=
  ∀ (s : State) (a : Word) (v : Byte) (rest : List HostAccess), s.mem.wf = true → s.host.pending = .memWrite a v :: rest →
    ∃ t, step s = .next t ∧ t = { s with mem := t.mem, host := { s.host with pending := rest } } ∧
      memRead t a = v ∧ (∀ b, b ≠ a → memRead t b = memRead s b) ∧ t.mem.wf = true

/-- R4, R238: a platform has at least one core; a step of one core leaves every other as it is, and they share only host memory (the
model's form of a platform is log 13). -/
def Obligations.PlatformCoresAreIndependent : Prop :=
  (∀ p : Platform, 1 ≤ p.instances) ∧
  (∀ (p q : Platform) (k : Nat) (s : State), p.cores[k]? = some s → platformStep k p = .next q →
    q.instances = p.instances ∧ (∀ j, j ≠ k → q.cores[j]? = p.cores[j]?) ∧
    ∃ t, step { s with mem := p.mem } = .next t ∧ q.mem = t.mem ∧ q.cores[k]? = some { t with mem := [] })

/-! ### Invariants and the round trip -/

/-- R24, R26, R29, R39, R43: the invariant holds after reset. -/
def Obligations.InvariantHoldsAtReset : Prop := State.reset.Inv

/-- R24, R26, R29, R32, R33, R39, R130: every step keeps the invariant. -/
def Obligations.InvariantKeptByStep : Prop :=
  ∀ s t : State, s.Inv → step s = .next t → t.Inv

/-- R196, R198: a stream that ENC_RUN wrote without a fault decodes to the raster. With STREAM_BASE at the output and STREAM_LEN at least
OUT_LEN, DEC_INIT succeeds, the j-th DEC_PIXEL returns `Pix(j)` with the output cursor at `FromLin(j)` before it, none of the
`W * H` of them faults, and after the last the decoder is Exhausted with `dec.ptr` at OUT_LEN. -/
def Obligations.EncodeThenDecodeRoundTrip : Prop :=
  ∀ (s t : State) (L : Word), s.mem.wf = true → s.fault = .none →
    exec .encRun s = .next t → t.fault = .none → t.enc.outLen.toNat ≤ L.toNat →
    ∃ v, writeCmd 0x20#32 { t with streamBase := s.outBase, streamLen := L } = .next v ∧
      v.fault = .none ∧ v.dec.state = .ready ∧ v.dec.w.toNat = s.W ∧ v.dec.h.toNat = s.H ∧ v.dec.startColor = pix s 0 ∧
      (∀ j < s.N, ∃ w z, repeatCmd 0x21#32 j v = .next w ∧ w.dec.x.toNat = j % s.W ∧ w.dec.y.toNat = j / s.W ∧
        writeCmd 0x21#32 w = .next z ∧ z.fault = .none ∧ z.dec.pixel = pix s j) ∧
      ∃ z, repeatCmd 0x21#32 s.N v = .next z ∧ z.fault = .none ∧ z.dec.state = .exhausted ∧ z.dec.ptr = t.enc.outLen
end

