-- ==== Sys2Proof/Laws/Bits.lean ====
section
/-! SUPPORT. Facts about bits and bytes that the encodings rest on (spec/30_encoding.md R91 to R93, R98). -/

namespace Sys2Proof

/-- A bit is 0 or 1. -/
theorem bit_cases (c : Bit) : c = 0#1 ∨ c = 1#1 := by
  have h := c.isLt
  rcases (by omega : c.toNat = 0 ∨ c.toNat = 1) with h | h
  · exact .inl (BitVec.eq_of_toNat_eq h)
  · exact .inr (BitVec.eq_of_toNat_eq h)

/-- The bit that a right shift brings to the bottom. -/
theorem shift_bit (b : Byte) (k : Nat) : (b >>> k).extractLsb' 0 1 = BitVec.ofBool (b.getLsbD k) := by
  apply BitVec.eq_of_getLsbD_eq
  intro i hi
  rw [show i = 0 by omega]
  simp

theorem append_toNat {n m : Nat} (a : BitVec n) (b : BitVec m) : (a ++ b).toNat = a.toNat * 2 ^ m + b.toNat := by
  rw [BitVec.toNat_append, ← Nat.shiftLeft_add_eq_or_of_lt b.isLt, Nat.shiftLeft_eq]

theorem setWidth_toNat_of_le {n m : Nat} (h : n ≤ m) (a : BitVec n) : (a.setWidth m).toNat = a.toNat := by
  simp [BitVec.toNat_setWidth, Nat.mod_eq_of_lt (Nat.lt_of_lt_of_le a.isLt (Nat.pow_le_pow_right (by decide) h))]

/-! ### The header's 16-bit integers are little-endian -/

theorem highByte_append_lowByte (w : Half) : highByte w ++ lowByte w = w := by
  apply BitVec.eq_of_toNat_eq
  have h := w.isLt
  rw [append_toNat]
  simp only [highByte, lowByte, BitVec.extractLsb'_toNat, Nat.shiftRight_eq_div_pow]
  omega

theorem lowByte_append (a b : Byte) : lowByte (a ++ b) = b := by
  apply BitVec.eq_of_toNat_eq
  have h := b.isLt
  simp only [lowByte, BitVec.extractLsb'_toNat, append_toNat, Nat.shiftRight_eq_div_pow]
  omega

theorem highByte_append (a b : Byte) : highByte (a ++ b) = a := by
  apply BitVec.eq_of_toNat_eq
  have h := b.isLt
  have h' := a.isLt
  simp only [highByte, BitVec.extractLsb'_toNat, append_toNat, Nat.shiftRight_eq_div_pow]
  omega

theorem isMagic1_headerByte1 : ∀ c0 : Bit, isMagic1 (headerByte1 c0) = true := by decide

theorem headerByte1_bit0 : ∀ c0 : Bit, (headerByte1 c0).extractLsb' 0 1 = c0 := by decide

/-! ### Chunk bytes, by kind -/

theorem longByte_kind (c : Bit) (n : Nat) : (longByte c n).extractLsb' 7 1 = 0#1 := by
  have h : ∀ (c : Bit) (k : BitVec 6), (0#1 ++ c ++ k : Byte).extractLsb' 7 1 = 0#1 := by decide
  exact h c _

theorem uncompByte_kind : ∀ p : BitVec 6,
    (uncompByte p).extractLsb' 7 1 = 1#1 ∧ (uncompByte p).extractLsb' 6 1 = 0#1 := by decide

theorem shortFieldByte_kind (c : Bit) (r1 : Nat) (f : BitVec 2) :
    (shortFieldByte c r1 f).extractLsb' 7 1 = 1#1 ∧ (shortFieldByte c r1 f).extractLsb' 6 1 = 1#1 := by
  have h : ∀ (c : Bit) (k : BitVec 3) (f : BitVec 2),
      (3#2 ++ c ++ k ++ f : Byte).extractLsb' 7 1 = 1#1 ∧ (3#2 ++ c ++ k ++ f : Byte).extractLsb' 6 1 = 1#1 := by
    decide
  exact h c _ f

/-- A byte decodes to a chunk, whatever it is (R94). -/
theorem decodeChunk_cases (b : Byte) :
    (∃ c n, decodeChunk b = .long c n ∧ 8 ≤ n ∧ n ≤ 71) ∨ (∃ p, decodeChunk b = .uncomp p) ∨
      (∃ c r1 r2, decodeChunk b = .short c r1 r2 ∧ 1 ≤ r1 ∧ r1 ≤ 8 ∧ 1 ≤ r2 ∧ r2 ≤ 4) := by
  unfold decodeChunk
  split
  · have h := (b.extractLsb' 0 6).isLt
    exact .inl ⟨_, _, rfl, by simp only [Config.longBias]; omega, by simp only [Config.longBias]; omega⟩
  · split
    · exact .inr (.inl ⟨_, rfl⟩)
    · have h := (b.extractLsb' 2 3).isLt
      have h' := (b.extractLsb' 0 2).isLt
      exact .inr (.inr ⟨_, _, _, rfl, by omega, by omega, by omega, by omega⟩)

end Sys2Proof
end

