-- ==== Sys2Proof/Laws/State.lean ====
section
/-! SUPPORT. One lemma per field for each named update of the state, true by `rfl`, and how the update functions of the encoder and the
decoder act on the fields of their units. -/

namespace Sys2Proof.Machine

/-! ### `memWrite` -/

@[simp] theorem memWrite_rasterBase (a : Word) (v : Byte) (s : State) : (memWrite a v s).rasterBase = s.rasterBase := rfl
@[simp] theorem memWrite_rasterDim (a : Word) (v : Byte) (s : State) : (memWrite a v s).rasterDim = s.rasterDim := rfl
@[simp] theorem memWrite_rasterPitch (a : Word) (v : Byte) (s : State) : (memWrite a v s).rasterPitch = s.rasterPitch := rfl
@[simp] theorem memWrite_outBase (a : Word) (v : Byte) (s : State) : (memWrite a v s).outBase = s.outBase := rfl
@[simp] theorem memWrite_outCap (a : Word) (v : Byte) (s : State) : (memWrite a v s).outCap = s.outCap := rfl
@[simp] theorem memWrite_streamBase (a : Word) (v : Byte) (s : State) : (memWrite a v s).streamBase = s.streamBase := rfl
@[simp] theorem memWrite_streamLen (a : Word) (v : Byte) (s : State) : (memWrite a v s).streamLen = s.streamLen := rfl
@[simp] theorem memWrite_enc (a : Word) (v : Byte) (s : State) : (memWrite a v s).enc = s.enc := rfl
@[simp] theorem memWrite_dec (a : Word) (v : Byte) (s : State) : (memWrite a v s).dec = s.dec := rfl
@[simp] theorem memWrite_busy (a : Word) (v : Byte) (s : State) : (memWrite a v s).busy = s.busy := rfl
@[simp] theorem memWrite_invalidFormat (a : Word) (v : Byte) (s : State) : (memWrite a v s).invalidFormat = s.invalidFormat := rfl
@[simp] theorem memWrite_fault (a : Word) (v : Byte) (s : State) : (memWrite a v s).fault = s.fault := rfl
@[simp] theorem memWrite_mem (a : Word) (v : Byte) (s : State) : (memWrite a v s).mem = s.mem.write a.toNat v := rfl
@[simp] theorem memWrite_host (a : Word) (v : Byte) (s : State) : (memWrite a v s).host = s.host := rfl

/-! ### `completed` -/

@[simp] theorem completed_rasterBase (s : State) : (completed s).rasterBase = s.rasterBase := rfl
@[simp] theorem completed_rasterDim (s : State) : (completed s).rasterDim = s.rasterDim := rfl
@[simp] theorem completed_rasterPitch (s : State) : (completed s).rasterPitch = s.rasterPitch := rfl
@[simp] theorem completed_outBase (s : State) : (completed s).outBase = s.outBase := rfl
@[simp] theorem completed_outCap (s : State) : (completed s).outCap = s.outCap := rfl
@[simp] theorem completed_streamBase (s : State) : (completed s).streamBase = s.streamBase := rfl
@[simp] theorem completed_streamLen (s : State) : (completed s).streamLen = s.streamLen := rfl
@[simp] theorem completed_enc (s : State) : (completed s).enc = s.enc := rfl
@[simp] theorem completed_dec (s : State) : (completed s).dec = s.dec := rfl
@[simp] theorem completed_busy (s : State) : (completed s).busy = s.busy := rfl
@[simp] theorem completed_invalidFormat (s : State) : (completed s).invalidFormat = false := rfl
@[simp] theorem completed_fault (s : State) : (completed s).fault = s.fault := rfl
@[simp] theorem completed_mem (s : State) : (completed s).mem = s.mem := rfl
@[simp] theorem completed_host (s : State) : (completed s).host = s.host := rfl

/-! ### `badMagic` -/

@[simp] theorem badMagic_rasterBase (s : State) : (badMagic s).rasterBase = s.rasterBase := rfl
@[simp] theorem badMagic_rasterDim (s : State) : (badMagic s).rasterDim = s.rasterDim := rfl
@[simp] theorem badMagic_rasterPitch (s : State) : (badMagic s).rasterPitch = s.rasterPitch := rfl
@[simp] theorem badMagic_outBase (s : State) : (badMagic s).outBase = s.outBase := rfl
@[simp] theorem badMagic_outCap (s : State) : (badMagic s).outCap = s.outCap := rfl
@[simp] theorem badMagic_streamBase (s : State) : (badMagic s).streamBase = s.streamBase := rfl
@[simp] theorem badMagic_streamLen (s : State) : (badMagic s).streamLen = s.streamLen := rfl
@[simp] theorem badMagic_enc (s : State) : (badMagic s).enc = s.enc := rfl
@[simp] theorem badMagic_dec (s : State) : (badMagic s).dec = s.dec := rfl
@[simp] theorem badMagic_busy (s : State) : (badMagic s).busy = s.busy := rfl
@[simp] theorem badMagic_invalidFormat (s : State) : (badMagic s).invalidFormat = true := rfl
@[simp] theorem badMagic_fault (s : State) : (badMagic s).fault = s.fault := rfl
@[simp] theorem badMagic_mem (s : State) : (badMagic s).mem = s.mem := rfl
@[simp] theorem badMagic_host (s : State) : (badMagic s).host = s.host := rfl

/-! ### `popHost` -/

@[simp] theorem popHost_rasterBase (rest : List HostAccess) (s : State) : (popHost rest s).rasterBase = s.rasterBase := rfl
@[simp] theorem popHost_rasterDim (rest : List HostAccess) (s : State) : (popHost rest s).rasterDim = s.rasterDim := rfl
@[simp] theorem popHost_rasterPitch (rest : List HostAccess) (s : State) : (popHost rest s).rasterPitch = s.rasterPitch := rfl
@[simp] theorem popHost_outBase (rest : List HostAccess) (s : State) : (popHost rest s).outBase = s.outBase := rfl
@[simp] theorem popHost_outCap (rest : List HostAccess) (s : State) : (popHost rest s).outCap = s.outCap := rfl
@[simp] theorem popHost_streamBase (rest : List HostAccess) (s : State) : (popHost rest s).streamBase = s.streamBase := rfl
@[simp] theorem popHost_streamLen (rest : List HostAccess) (s : State) : (popHost rest s).streamLen = s.streamLen := rfl
@[simp] theorem popHost_enc (rest : List HostAccess) (s : State) : (popHost rest s).enc = s.enc := rfl
@[simp] theorem popHost_dec (rest : List HostAccess) (s : State) : (popHost rest s).dec = s.dec := rfl
@[simp] theorem popHost_busy (rest : List HostAccess) (s : State) : (popHost rest s).busy = s.busy := rfl
@[simp] theorem popHost_invalidFormat (rest : List HostAccess) (s : State) : (popHost rest s).invalidFormat = s.invalidFormat := rfl
@[simp] theorem popHost_fault (rest : List HostAccess) (s : State) : (popHost rest s).fault = s.fault := rfl
@[simp] theorem popHost_mem (rest : List HostAccess) (s : State) : (popHost rest s).mem = s.mem := rfl
@[simp] theorem popHost_host (rest : List HostAccess) (s : State) : (popHost rest s).host = { s.host with pending := rest } := rfl

/-! ### `setLin` -/

@[simp] theorem setLin_rasterBase (i : Nat) (s : State) : (setLin i s).rasterBase = s.rasterBase := rfl
@[simp] theorem setLin_rasterDim (i : Nat) (s : State) : (setLin i s).rasterDim = s.rasterDim := rfl
@[simp] theorem setLin_rasterPitch (i : Nat) (s : State) : (setLin i s).rasterPitch = s.rasterPitch := rfl
@[simp] theorem setLin_outBase (i : Nat) (s : State) : (setLin i s).outBase = s.outBase := rfl
@[simp] theorem setLin_outCap (i : Nat) (s : State) : (setLin i s).outCap = s.outCap := rfl
@[simp] theorem setLin_streamBase (i : Nat) (s : State) : (setLin i s).streamBase = s.streamBase := rfl
@[simp] theorem setLin_streamLen (i : Nat) (s : State) : (setLin i s).streamLen = s.streamLen := rfl
@[simp] theorem setLin_enc (i : Nat) (s : State) : (setLin i s).enc = { s.enc with x := BitVec.ofNat 16 (i % s.W), y := BitVec.ofNat 16 (i / s.W) } := rfl
@[simp] theorem setLin_dec (i : Nat) (s : State) : (setLin i s).dec = s.dec := rfl
@[simp] theorem setLin_busy (i : Nat) (s : State) : (setLin i s).busy = s.busy := rfl
@[simp] theorem setLin_invalidFormat (i : Nat) (s : State) : (setLin i s).invalidFormat = s.invalidFormat := rfl
@[simp] theorem setLin_fault (i : Nat) (s : State) : (setLin i s).fault = s.fault := rfl
@[simp] theorem setLin_mem (i : Nat) (s : State) : (setLin i s).mem = s.mem := rfl
@[simp] theorem setLin_host (i : Nat) (s : State) : (setLin i s).host = s.host := rfl

/-! ### `resetBlock` -/

@[simp] theorem resetBlock_rasterBase (s : State) : (resetBlock s).rasterBase = 0#32 := rfl
@[simp] theorem resetBlock_rasterDim (s : State) : (resetBlock s).rasterDim = 0#32 := rfl
@[simp] theorem resetBlock_rasterPitch (s : State) : (resetBlock s).rasterPitch = 0#16 := rfl
@[simp] theorem resetBlock_outBase (s : State) : (resetBlock s).outBase = 0#32 := rfl
@[simp] theorem resetBlock_outCap (s : State) : (resetBlock s).outCap = 0#32 := rfl
@[simp] theorem resetBlock_streamBase (s : State) : (resetBlock s).streamBase = 0#32 := rfl
@[simp] theorem resetBlock_streamLen (s : State) : (resetBlock s).streamLen = 0#32 := rfl
@[simp] theorem resetBlock_enc (s : State) : (resetBlock s).enc = EncState.reset := rfl
@[simp] theorem resetBlock_dec (s : State) : (resetBlock s).dec = DecState.reset := rfl
@[simp] theorem resetBlock_busy (s : State) : (resetBlock s).busy = false := rfl
@[simp] theorem resetBlock_invalidFormat (s : State) : (resetBlock s).invalidFormat = false := rfl
@[simp] theorem resetBlock_fault (s : State) : (resetBlock s).fault = .none := rfl
@[simp] theorem resetBlock_mem (s : State) : (resetBlock s).mem = s.mem := rfl
@[simp] theorem resetBlock_host (s : State) : (resetBlock s).host = s.host := rfl

/-! ### `withMemory` -/

@[simp] theorem withMemory_rasterBase (m : Memory) (s : State) : (withMemory m s).rasterBase = s.rasterBase := rfl
@[simp] theorem withMemory_rasterDim (m : Memory) (s : State) : (withMemory m s).rasterDim = s.rasterDim := rfl
@[simp] theorem withMemory_rasterPitch (m : Memory) (s : State) : (withMemory m s).rasterPitch = s.rasterPitch := rfl
@[simp] theorem withMemory_outBase (m : Memory) (s : State) : (withMemory m s).outBase = s.outBase := rfl
@[simp] theorem withMemory_outCap (m : Memory) (s : State) : (withMemory m s).outCap = s.outCap := rfl
@[simp] theorem withMemory_streamBase (m : Memory) (s : State) : (withMemory m s).streamBase = s.streamBase := rfl
@[simp] theorem withMemory_streamLen (m : Memory) (s : State) : (withMemory m s).streamLen = s.streamLen := rfl
@[simp] theorem withMemory_enc (m : Memory) (s : State) : (withMemory m s).enc = s.enc := rfl
@[simp] theorem withMemory_dec (m : Memory) (s : State) : (withMemory m s).dec = s.dec := rfl
@[simp] theorem withMemory_busy (m : Memory) (s : State) : (withMemory m s).busy = s.busy := rfl
@[simp] theorem withMemory_invalidFormat (m : Memory) (s : State) : (withMemory m s).invalidFormat = s.invalidFormat := rfl
@[simp] theorem withMemory_fault (m : Memory) (s : State) : (withMemory m s).fault = s.fault := rfl
@[simp] theorem withMemory_mem (m : Memory) (s : State) : (withMemory m s).mem = m := rfl
@[simp] theorem withMemory_host (m : Memory) (s : State) : (withMemory m s).host = s.host := rfl

/-! ### Updates under a condition -/

@[simp] theorem advanceCursor_rasterBase (s : State) : (advanceCursor s).rasterBase = s.rasterBase := by
  unfold advanceCursor; split <;> rfl
@[simp] theorem advanceCursor_rasterDim (s : State) : (advanceCursor s).rasterDim = s.rasterDim := by
  unfold advanceCursor; split <;> rfl
@[simp] theorem advanceCursor_rasterPitch (s : State) : (advanceCursor s).rasterPitch = s.rasterPitch := by
  unfold advanceCursor; split <;> rfl
@[simp] theorem advanceCursor_outBase (s : State) : (advanceCursor s).outBase = s.outBase := by
  unfold advanceCursor; split <;> rfl
@[simp] theorem advanceCursor_outCap (s : State) : (advanceCursor s).outCap = s.outCap := by
  unfold advanceCursor; split <;> rfl
@[simp] theorem advanceCursor_streamBase (s : State) : (advanceCursor s).streamBase = s.streamBase := by
  unfold advanceCursor; split <;> rfl
@[simp] theorem advanceCursor_streamLen (s : State) : (advanceCursor s).streamLen = s.streamLen := by
  unfold advanceCursor; split <;> rfl
@[simp] theorem advanceCursor_dec (s : State) : (advanceCursor s).dec = s.dec := by
  unfold advanceCursor; split <;> rfl
@[simp] theorem advanceCursor_busy (s : State) : (advanceCursor s).busy = s.busy := by
  unfold advanceCursor; split <;> rfl
@[simp] theorem advanceCursor_invalidFormat (s : State) : (advanceCursor s).invalidFormat = s.invalidFormat := by
  unfold advanceCursor; split <;> rfl
@[simp] theorem advanceCursor_fault (s : State) : (advanceCursor s).fault = s.fault := by
  unfold advanceCursor; split <;> rfl
@[simp] theorem advanceCursor_mem (s : State) : (advanceCursor s).mem = s.mem := by
  unfold advanceCursor; split <;> rfl
@[simp] theorem advanceCursor_host (s : State) : (advanceCursor s).host = s.host := by
  unfold advanceCursor; split <;> rfl

@[simp] theorem closeIfAtEnd_rasterBase (s : State) : (closeIfAtEnd s).rasterBase = s.rasterBase := by
  unfold closeIfAtEnd; split <;> rfl
@[simp] theorem closeIfAtEnd_rasterDim (s : State) : (closeIfAtEnd s).rasterDim = s.rasterDim := by
  unfold closeIfAtEnd; split <;> rfl
@[simp] theorem closeIfAtEnd_rasterPitch (s : State) : (closeIfAtEnd s).rasterPitch = s.rasterPitch := by
  unfold closeIfAtEnd; split <;> rfl
@[simp] theorem closeIfAtEnd_outBase (s : State) : (closeIfAtEnd s).outBase = s.outBase := by
  unfold closeIfAtEnd; split <;> rfl
@[simp] theorem closeIfAtEnd_outCap (s : State) : (closeIfAtEnd s).outCap = s.outCap := by
  unfold closeIfAtEnd; split <;> rfl
@[simp] theorem closeIfAtEnd_streamBase (s : State) : (closeIfAtEnd s).streamBase = s.streamBase := by
  unfold closeIfAtEnd; split <;> rfl
@[simp] theorem closeIfAtEnd_streamLen (s : State) : (closeIfAtEnd s).streamLen = s.streamLen := by
  unfold closeIfAtEnd; split <;> rfl
@[simp] theorem closeIfAtEnd_dec (s : State) : (closeIfAtEnd s).dec = s.dec := by
  unfold closeIfAtEnd; split <;> rfl
@[simp] theorem closeIfAtEnd_busy (s : State) : (closeIfAtEnd s).busy = s.busy := by
  unfold closeIfAtEnd; split <;> rfl
@[simp] theorem closeIfAtEnd_invalidFormat (s : State) : (closeIfAtEnd s).invalidFormat = s.invalidFormat := by
  unfold closeIfAtEnd; split <;> rfl
@[simp] theorem closeIfAtEnd_fault (s : State) : (closeIfAtEnd s).fault = s.fault := by
  unfold closeIfAtEnd; split <;> rfl
@[simp] theorem closeIfAtEnd_mem (s : State) : (closeIfAtEnd s).mem = s.mem := by
  unfold closeIfAtEnd; split <;> rfl
@[simp] theorem closeIfAtEnd_host (s : State) : (closeIfAtEnd s).host = s.host := by
  unfold closeIfAtEnd; split <;> rfl

@[simp] theorem emitChunk_rasterBase (s : State) : (emitChunk s).rasterBase = s.rasterBase := rfl
@[simp] theorem emitChunk_rasterDim (s : State) : (emitChunk s).rasterDim = s.rasterDim := rfl
@[simp] theorem emitChunk_rasterPitch (s : State) : (emitChunk s).rasterPitch = s.rasterPitch := rfl
@[simp] theorem emitChunk_outBase (s : State) : (emitChunk s).outBase = s.outBase := rfl
@[simp] theorem emitChunk_outCap (s : State) : (emitChunk s).outCap = s.outCap := rfl
@[simp] theorem emitChunk_streamBase (s : State) : (emitChunk s).streamBase = s.streamBase := rfl
@[simp] theorem emitChunk_streamLen (s : State) : (emitChunk s).streamLen = s.streamLen := rfl
@[simp] theorem emitChunk_dec (s : State) : (emitChunk s).dec = s.dec := rfl
@[simp] theorem emitChunk_busy (s : State) : (emitChunk s).busy = s.busy := rfl
@[simp] theorem emitChunk_invalidFormat (s : State) : (emitChunk s).invalidFormat = s.invalidFormat := rfl
@[simp] theorem emitChunk_fault (s : State) : (emitChunk s).fault = s.fault := rfl
@[simp] theorem emitChunk_host (s : State) : (emitChunk s).host = s.host := rfl

/-! ### `writeBytes` changes memory only -/

@[simp] theorem writeBytes_rasterBase (base : Word) (k : Nat) (bs : List Byte) (s : State) :
    (writeBytes base k bs s).rasterBase = s.rasterBase := by
  induction bs generalizing k s with
  | nil => rfl
  | cons b bs ih => simp [writeBytes, ih]

@[simp] theorem writeBytes_rasterDim (base : Word) (k : Nat) (bs : List Byte) (s : State) :
    (writeBytes base k bs s).rasterDim = s.rasterDim := by
  induction bs generalizing k s with
  | nil => rfl
  | cons b bs ih => simp [writeBytes, ih]

@[simp] theorem writeBytes_rasterPitch (base : Word) (k : Nat) (bs : List Byte) (s : State) :
    (writeBytes base k bs s).rasterPitch = s.rasterPitch := by
  induction bs generalizing k s with
  | nil => rfl
  | cons b bs ih => simp [writeBytes, ih]

@[simp] theorem writeBytes_outBase (base : Word) (k : Nat) (bs : List Byte) (s : State) :
    (writeBytes base k bs s).outBase = s.outBase := by
  induction bs generalizing k s with
  | nil => rfl
  | cons b bs ih => simp [writeBytes, ih]

@[simp] theorem writeBytes_outCap (base : Word) (k : Nat) (bs : List Byte) (s : State) :
    (writeBytes base k bs s).outCap = s.outCap := by
  induction bs generalizing k s with
  | nil => rfl
  | cons b bs ih => simp [writeBytes, ih]

@[simp] theorem writeBytes_streamBase (base : Word) (k : Nat) (bs : List Byte) (s : State) :
    (writeBytes base k bs s).streamBase = s.streamBase := by
  induction bs generalizing k s with
  | nil => rfl
  | cons b bs ih => simp [writeBytes, ih]

@[simp] theorem writeBytes_streamLen (base : Word) (k : Nat) (bs : List Byte) (s : State) :
    (writeBytes base k bs s).streamLen = s.streamLen := by
  induction bs generalizing k s with
  | nil => rfl
  | cons b bs ih => simp [writeBytes, ih]

@[simp] theorem writeBytes_enc (base : Word) (k : Nat) (bs : List Byte) (s : State) :
    (writeBytes base k bs s).enc = s.enc := by
  induction bs generalizing k s with
  | nil => rfl
  | cons b bs ih => simp [writeBytes, ih]

@[simp] theorem writeBytes_dec (base : Word) (k : Nat) (bs : List Byte) (s : State) :
    (writeBytes base k bs s).dec = s.dec := by
  induction bs generalizing k s with
  | nil => rfl
  | cons b bs ih => simp [writeBytes, ih]

@[simp] theorem writeBytes_busy (base : Word) (k : Nat) (bs : List Byte) (s : State) :
    (writeBytes base k bs s).busy = s.busy := by
  induction bs generalizing k s with
  | nil => rfl
  | cons b bs ih => simp [writeBytes, ih]

@[simp] theorem writeBytes_invalidFormat (base : Word) (k : Nat) (bs : List Byte) (s : State) :
    (writeBytes base k bs s).invalidFormat = s.invalidFormat := by
  induction bs generalizing k s with
  | nil => rfl
  | cons b bs ih => simp [writeBytes, ih]

@[simp] theorem writeBytes_fault (base : Word) (k : Nat) (bs : List Byte) (s : State) :
    (writeBytes base k bs s).fault = s.fault := by
  induction bs generalizing k s with
  | nil => rfl
  | cons b bs ih => simp [writeBytes, ih]

@[simp] theorem writeBytes_host (base : Word) (k : Nat) (bs : List Byte) (s : State) :
    (writeBytes base k bs s).host = s.host := by
  induction bs generalizing k s with
  | nil => rfl
  | cons b bs ih => simp [writeBytes, ih]

@[simp] theorem encInitEffect_rasterBase (s : State) : (encInitEffect s).rasterBase = s.rasterBase := by
  simp [encInitEffect]
@[simp] theorem encInitEffect_rasterDim (s : State) : (encInitEffect s).rasterDim = s.rasterDim := by
  simp [encInitEffect]
@[simp] theorem encInitEffect_rasterPitch (s : State) : (encInitEffect s).rasterPitch = s.rasterPitch := by
  simp [encInitEffect]
@[simp] theorem encInitEffect_outBase (s : State) : (encInitEffect s).outBase = s.outBase := by
  simp [encInitEffect]
@[simp] theorem encInitEffect_outCap (s : State) : (encInitEffect s).outCap = s.outCap := by
  simp [encInitEffect]
@[simp] theorem encInitEffect_streamBase (s : State) : (encInitEffect s).streamBase = s.streamBase := by
  simp [encInitEffect]
@[simp] theorem encInitEffect_streamLen (s : State) : (encInitEffect s).streamLen = s.streamLen := by
  simp [encInitEffect]
@[simp] theorem encInitEffect_dec (s : State) : (encInitEffect s).dec = s.dec := by
  simp [encInitEffect]
@[simp] theorem encInitEffect_busy (s : State) : (encInitEffect s).busy = s.busy := by
  simp [encInitEffect]
@[simp] theorem encInitEffect_invalidFormat (s : State) : (encInitEffect s).invalidFormat = s.invalidFormat := by
  simp [encInitEffect]
@[simp] theorem encInitEffect_fault (s : State) : (encInitEffect s).fault = s.fault := by
  simp [encInitEffect]
@[simp] theorem encInitEffect_host (s : State) : (encInitEffect s).host = s.host := by
  simp [encInitEffect]

@[simp] theorem encInitEffect_enc (s : State) :
    (encInitEffect s).enc = { s.enc with x := 0#16, y := 0#16, outLen := 6#32, phase := .running } := by
  simp [encInitEffect, EncState.atOrigin, Config.headerLen]

@[simp] theorem encStepEffect_rasterBase (s : State) : (encStepEffect s).rasterBase = s.rasterBase := by
  unfold encStepEffect; split <;> (try split) <;> simp
@[simp] theorem encStepEffect_rasterDim (s : State) : (encStepEffect s).rasterDim = s.rasterDim := by
  unfold encStepEffect; split <;> (try split) <;> simp
@[simp] theorem encStepEffect_rasterPitch (s : State) : (encStepEffect s).rasterPitch = s.rasterPitch := by
  unfold encStepEffect; split <;> (try split) <;> simp
@[simp] theorem encStepEffect_outBase (s : State) : (encStepEffect s).outBase = s.outBase := by
  unfold encStepEffect; split <;> (try split) <;> simp
@[simp] theorem encStepEffect_outCap (s : State) : (encStepEffect s).outCap = s.outCap := by
  unfold encStepEffect; split <;> (try split) <;> simp
@[simp] theorem encStepEffect_streamBase (s : State) : (encStepEffect s).streamBase = s.streamBase := by
  unfold encStepEffect; split <;> (try split) <;> simp
@[simp] theorem encStepEffect_streamLen (s : State) : (encStepEffect s).streamLen = s.streamLen := by
  unfold encStepEffect; split <;> (try split) <;> simp
@[simp] theorem encStepEffect_dec (s : State) : (encStepEffect s).dec = s.dec := by
  unfold encStepEffect; split <;> (try split) <;> simp
@[simp] theorem encStepEffect_busy (s : State) : (encStepEffect s).busy = s.busy := by
  unfold encStepEffect; split <;> (try split) <;> simp
@[simp] theorem encStepEffect_invalidFormat (s : State) : (encStepEffect s).invalidFormat = s.invalidFormat := by
  unfold encStepEffect; split <;> (try split) <;> simp
@[simp] theorem encStepEffect_fault (s : State) : (encStepEffect s).fault = s.fault := by
  unfold encStepEffect; split <;> (try split) <;> simp
@[simp] theorem encStepEffect_host (s : State) : (encStepEffect s).host = s.host := by
  unfold encStepEffect; split <;> (try split) <;> simp
@[simp] theorem curReadEffect_rasterBase (s : State) : (curReadEffect s).rasterBase = s.rasterBase := by
  unfold curReadEffect; split <;> simp
@[simp] theorem curReadEffect_rasterDim (s : State) : (curReadEffect s).rasterDim = s.rasterDim := by
  unfold curReadEffect; split <;> simp
@[simp] theorem curReadEffect_rasterPitch (s : State) : (curReadEffect s).rasterPitch = s.rasterPitch := by
  unfold curReadEffect; split <;> simp
@[simp] theorem curReadEffect_outBase (s : State) : (curReadEffect s).outBase = s.outBase := by
  unfold curReadEffect; split <;> simp
@[simp] theorem curReadEffect_outCap (s : State) : (curReadEffect s).outCap = s.outCap := by
  unfold curReadEffect; split <;> simp
@[simp] theorem curReadEffect_streamBase (s : State) : (curReadEffect s).streamBase = s.streamBase := by
  unfold curReadEffect; split <;> simp
@[simp] theorem curReadEffect_streamLen (s : State) : (curReadEffect s).streamLen = s.streamLen := by
  unfold curReadEffect; split <;> simp
@[simp] theorem curReadEffect_dec (s : State) : (curReadEffect s).dec = s.dec := by
  unfold curReadEffect; split <;> simp
@[simp] theorem curReadEffect_busy (s : State) : (curReadEffect s).busy = s.busy := by
  unfold curReadEffect; split <;> simp
@[simp] theorem curReadEffect_invalidFormat (s : State) : (curReadEffect s).invalidFormat = s.invalidFormat := by
  unfold curReadEffect; split <;> simp
@[simp] theorem curReadEffect_fault (s : State) : (curReadEffect s).fault = s.fault := by
  unfold curReadEffect; split <;> simp
@[simp] theorem curReadEffect_mem (s : State) : (curReadEffect s).mem = s.mem := by
  unfold curReadEffect; split <;> simp
@[simp] theorem curReadEffect_host (s : State) : (curReadEffect s).host = s.host := by
  unfold curReadEffect; split <;> simp
@[simp] theorem decPixelEffect_rasterBase (s : State) : (decPixelEffect s).rasterBase = s.rasterBase := by
  unfold decPixelEffect; split <;> rfl
@[simp] theorem decPixelEffect_rasterDim (s : State) : (decPixelEffect s).rasterDim = s.rasterDim := by
  unfold decPixelEffect; split <;> rfl
@[simp] theorem decPixelEffect_rasterPitch (s : State) : (decPixelEffect s).rasterPitch = s.rasterPitch := by
  unfold decPixelEffect; split <;> rfl
@[simp] theorem decPixelEffect_outBase (s : State) : (decPixelEffect s).outBase = s.outBase := by
  unfold decPixelEffect; split <;> rfl
@[simp] theorem decPixelEffect_outCap (s : State) : (decPixelEffect s).outCap = s.outCap := by
  unfold decPixelEffect; split <;> rfl
@[simp] theorem decPixelEffect_streamBase (s : State) : (decPixelEffect s).streamBase = s.streamBase := by
  unfold decPixelEffect; split <;> rfl
@[simp] theorem decPixelEffect_streamLen (s : State) : (decPixelEffect s).streamLen = s.streamLen := by
  unfold decPixelEffect; split <;> rfl
@[simp] theorem decPixelEffect_enc (s : State) : (decPixelEffect s).enc = s.enc := by
  unfold decPixelEffect; split <;> rfl
@[simp] theorem decPixelEffect_busy (s : State) : (decPixelEffect s).busy = s.busy := by
  unfold decPixelEffect; split <;> rfl
@[simp] theorem decPixelEffect_invalidFormat (s : State) : (decPixelEffect s).invalidFormat = s.invalidFormat := by
  unfold decPixelEffect; split <;> rfl
@[simp] theorem decPixelEffect_fault (s : State) : (decPixelEffect s).fault = s.fault := by
  unfold decPixelEffect; split <;> rfl
@[simp] theorem decPixelEffect_mem (s : State) : (decPixelEffect s).mem = s.mem := by
  unfold decPixelEffect; split <;> rfl
@[simp] theorem decPixelEffect_host (s : State) : (decPixelEffect s).host = s.host := by
  unfold decPixelEffect; split <;> rfl

/-! ### Geometry looks at RASTER_DIM and RASTER_PITCH only -/

theorem W_congr {s t : State} (h : t.rasterDim = s.rasterDim) : t.W = s.W := by
  simp [State.W, State.widthField, h]

theorem H_congr {s t : State} (h : t.rasterDim = s.rasterDim) : t.H = s.H := by
  simp [State.H, State.heightField, h]

theorem P_congr {s t : State} (h : t.rasterPitch = s.rasterPitch) : t.P = s.P := by
  simp [State.P, h]

theorem N_congr {s t : State} (h : t.rasterDim = s.rasterDim) : t.N = s.N := by
  simp [State.N, W_congr h, H_congr h]

theorem W_lt (s : State) : s.W < 65536 := s.widthField.isLt

theorem H_lt (s : State) : s.H < 65536 := s.heightField.isLt

theorem P_lt (s : State) : s.P < 65536 := s.rasterPitch.isLt

end Sys2Proof.Machine
end

