-- ==== Sys2Proof/Laws/Memory.lean ====
section
/-! SUPPORT. Host memory: a read after a write, and the canonical form that every write keeps. -/

namespace Sys2Proof.Machine

/-! ### The list -/

theorem Memory.wfFrom_mono {lo lo' : Nat} {m : Memory} (h : lo' ≤ lo) (hm : Memory.wfFrom lo m = true) :
    Memory.wfFrom lo' m = true := by
  cases m with
  | nil => rfl
  | cons c m =>
    simp only [Memory.wfFrom, Bool.and_eq_true, decide_eq_true_eq] at hm ⊢
    exact ⟨⟨⟨by omega, hm.1.1.2⟩, hm.1.2⟩, hm.2⟩

/-- An address below every listed one is unlisted. -/
theorem Memory.read_of_lt {lo a : Nat} {m : Memory} (hm : Memory.wfFrom lo m = true) (h : a < lo) :
    Memory.read m a = Config.unlistedByte := by
  induction m generalizing lo with
  | nil => rfl
  | cons c m ih =>
    obtain ⟨k, b⟩ := c
    simp only [Memory.wfFrom, Bool.and_eq_true, decide_eq_true_eq] at hm
    rw [Memory.read, if_neg (by omega)]
    exact ih hm.2 (by omega)

/-- A write leaves every other address alone, whatever the list. -/
theorem Memory.read_write_of_ne (m : Memory) {a a' : Nat} (v : Byte) (h : a' ≠ a) :
    Memory.read (Memory.write m a v) a' = Memory.read m a' := by
  induction m with
  | nil =>
    unfold Memory.write
    split
    · rfl
    · simp [Memory.read, Ne.symm h]
  | cons c m ih =>
    obtain ⟨k, b⟩ := c
    unfold Memory.write
    split
    · split
      · rfl
      · simp [Memory.read, Ne.symm h]
    · split
      · rename_i hk
        subst hk
        split <;> simp [Memory.read, Ne.symm h]
      · simp [Memory.read, ih]

/-- A read after a write to the same address gives the byte written. -/
theorem Memory.read_write_self {lo : Nat} {m : Memory} (a : Nat) (v : Byte) (hm : Memory.wfFrom lo m = true) :
    Memory.read (Memory.write m a v) a = v := by
  induction m generalizing lo with
  | nil =>
    unfold Memory.write
    split
    · rename_i hv; simp [Memory.read, hv]
    · simp [Memory.read]
  | cons c m ih =>
    obtain ⟨k, b⟩ := c
    simp only [Memory.wfFrom, Bool.and_eq_true, decide_eq_true_eq] at hm
    unfold Memory.write
    split
    · rename_i hlt
      split
      · rename_i hv
        rw [Memory.read, if_neg (by omega), Memory.read_of_lt hm.2 (by omega), hv]
      · simp [Memory.read]
    · split
      · rename_i hk
        subst hk
        split
        · rename_i hv
          rw [Memory.read_of_lt hm.2 (by omega), hv]
        · simp [Memory.read]
      · rename_i hlt hk
        rw [Memory.read, if_neg (by omega)]
        exact ih hm.2

/-- A write at an address of the space keeps the canonical form. -/
theorem Memory.wfFrom_write {lo : Nat} {m : Memory} {a : Nat} (v : Byte) (hm : Memory.wfFrom lo m = true) (hlo : lo ≤ a)
    (ha : a < 2 ^ 32) : Memory.wfFrom lo (Memory.write m a v) = true := by
  induction m generalizing lo with
  | nil =>
    unfold Memory.write
    split
    · rfl
    · simp_all [Memory.wfFrom]
  | cons c m ih =>
    obtain ⟨k, b⟩ := c
    have hm' := hm
    simp only [Memory.wfFrom, Bool.and_eq_true, decide_eq_true_eq] at hm'
    obtain ⟨⟨⟨h1, h2⟩, h3⟩, h4⟩ := hm'
    unfold Memory.write
    split
    · rename_i hlt
      split
      · exact hm
      · rename_i hv
        simp only [Memory.wfFrom, Bool.and_eq_true, decide_eq_true_eq]
        exact ⟨⟨⟨hlo, ha⟩, hv⟩, ⟨⟨⟨by omega, h2⟩, h3⟩, h4⟩⟩
    · split
      · rename_i hk
        subst hk
        split
        · exact Memory.wfFrom_mono (by omega) h4
        · rename_i hv
          simp only [Memory.wfFrom, Bool.and_eq_true, decide_eq_true_eq]
          exact ⟨⟨⟨hlo, ha⟩, hv⟩, h4⟩
      · simp only [Memory.wfFrom, Bool.and_eq_true, decide_eq_true_eq]
        exact ⟨⟨⟨h1, h2⟩, h3⟩, ih h4 (by omega)⟩

theorem Memory.wf_nil : Memory.wf [] = true := rfl

theorem Memory.wf_write {m : Memory} (a : Word) (v : Byte) (hm : m.wf = true) : (m.write a.toNat v).wf = true :=
  Memory.wfFrom_write v hm (Nat.zero_le _) a.isLt

/-! ### `memRead` and `memWrite` -/

theorem memRead_congr {s t : State} (h : t.mem = s.mem) (a : Word) : memRead t a = memRead s a := by
  simp [memRead, h]

theorem memRead_memWrite_self {s : State} (a : Word) (v : Byte) (h : s.mem.wf = true) :
    memRead (memWrite a v s) a = v :=
  Memory.read_write_self _ v h

theorem memRead_memWrite_of_ne (s : State) {a a' : Word} (v : Byte) (h : a' ≠ a) :
    memRead (memWrite a v s) a' = memRead s a' :=
  Memory.read_write_of_ne _ v fun e => h (BitVec.eq_of_toNat_eq e)

theorem memWrite_wf {s : State} (a : Word) (v : Byte) (h : s.mem.wf = true) : (memWrite a v s).mem.wf = true :=
  Memory.wf_write a v h

/-! ### `byteAddr` and `writeBytes` -/

theorem byteAddr_eq (base : Word) (k : Nat) : byteAddr base k = base + BitVec.ofNat 32 k := rfl

theorem byteAddr_toNat (base a : Word) : byteAddr base a.toNat = base + a := by
  simp [byteAddr]

theorem byteAddr_zero (base : Word) : byteAddr base 0 = base := by
  simp [byteAddr]

/-- Offsets below 2^32 give different addresses. -/
theorem byteAddr_injective {base : Word} {j k : Nat} (hj : j < 2 ^ 32) (hk : k < 2 ^ 32)
    (h : byteAddr base j = byteAddr base k) : j = k := by
  have h' := congrArg BitVec.toNat h
  simp only [byteAddr, BitVec.toNat_add, BitVec.toNat_ofNat] at h'
  omega

theorem writeBytes_wf {base : Word} {k : Nat} {bs : List Byte} {s : State} (h : s.mem.wf = true) :
    (writeBytes base k bs s).mem.wf = true := by
  induction bs generalizing k s with
  | nil => exact h
  | cons b bs ih => exact ih (memWrite_wf _ _ h)

/-- Writing bytes leaves every address but theirs alone. -/
theorem memRead_writeBytes_of_ne {base : Word} {k : Nat} {bs : List Byte} {s : State} {a : Word}
    (h : ∀ j, k ≤ j → j < k + bs.length → a ≠ byteAddr base j) :
    memRead (writeBytes base k bs s) a = memRead s a := by
  induction bs generalizing k s with
  | nil => rfl
  | cons b bs ih =>
    rw [writeBytes, ih, memRead_memWrite_of_ne]
    · exact h k (Nat.le_refl _) (by simp)
    · intro j h1 h2
      exact h j (by omega) (by simp only [List.length_cons]; omega)

/-- Each byte written reads back. -/
theorem memRead_writeBytes {base : Word} {k : Nat} {bs : List Byte} {s : State} (hwf : s.mem.wf = true)
    (hk : k + bs.length ≤ 2 ^ 32) (j : Nat) (hj : j < bs.length) :
    memRead (writeBytes base k bs s) (byteAddr base (k + j)) = bs[j] := by
  induction bs generalizing k s j with
  | nil => simp at hj
  | cons b bs ih =>
    simp only [List.length_cons] at hk hj
    rw [writeBytes]
    cases j with
    | zero =>
      rw [memRead_writeBytes_of_ne]
      · simpa using memRead_memWrite_self _ b hwf
      · intro i h1 h2 e
        have := byteAddr_injective (by omega) (by omega) e
        omega
    | succ j =>
      have h := ih (k := k + 1) (s := memWrite (byteAddr base k) b s) (memWrite_wf _ _ hwf) (by omega) j (by omega)
      have e : k + 1 + j = k + (j + 1) := by omega
      rw [e] at h
      simpa using h

end Sys2Proof.Machine
end

