-- ==== Sys2Proof/Laws/Decoder.lean ====
section
/-! SUPPORT. What the decoder's operations do: chunk loads, pixel production and the output cursor (spec/42_decoder.md R181 to R192). -/

namespace Sys2Proof.Machine

theorem extract7_iff (b : Byte) : b.extractLsb' 7 1 = 0#1 ↔ b.getLsbD 7 = false := by
  revert b; decide +kernel

theorem extract6_iff (b : Byte) : b.extractLsb' 6 1 = 0#1 ↔ b.getLsbD 6 = false := by
  revert b; decide +kernel

theorem needsChunk_iff (d : DecState) : d.needsChunk = true ↔ d.len = 0#7 ∧ d.len2 = 0#3 := by
  simp [DecState.needsChunk]

/-! ### Chunk loads -/

/-- A byte's chunk, run as an instruction, is its load. -/
theorem exec_decodeChunk (b : Byte) (s : State) :
    exec (decodeChunk b) s = .next { s with dec := loadChunk b s.dec } := by
  rcases decodeChunk_cases b with ⟨c, n, h, -⟩ | ⟨p, h⟩ | ⟨c, r1, r2, h, -⟩ <;>
    simp [h, exec, loadChunk, execLong, execUncomp, execShort]

theorem loadChunk_frame (b : Byte) (d : DecState) :
    loadChunk b d =
      { d with
        chunk := (loadChunk b d).chunk, len := (loadChunk b d).len, len2 := (loadChunk b d).len2,
        color := (loadChunk b d).color } := by
  rcases decodeChunk_cases b with ⟨c, n, h, -⟩ | ⟨p, h⟩ | ⟨c, r1, r2, h, -⟩ <;>
    simp [h, loadChunk, loadLong, loadUncomp, loadShort]

@[simp] theorem loadChunk_state (b : Byte) (d : DecState) : (loadChunk b d).state = d.state := by rw [loadChunk_frame]
@[simp] theorem loadChunk_w (b : Byte) (d : DecState) : (loadChunk b d).w = d.w := by rw [loadChunk_frame]
@[simp] theorem loadChunk_h (b : Byte) (d : DecState) : (loadChunk b d).h = d.h := by rw [loadChunk_frame]
@[simp] theorem loadChunk_startColor (b : Byte) (d : DecState) : (loadChunk b d).startColor = d.startColor := by
  rw [loadChunk_frame]
@[simp] theorem loadChunk_base (b : Byte) (d : DecState) : (loadChunk b d).base = d.base := by rw [loadChunk_frame]
@[simp] theorem loadChunk_limit (b : Byte) (d : DecState) : (loadChunk b d).limit = d.limit := by rw [loadChunk_frame]
@[simp] theorem loadChunk_ptr (b : Byte) (d : DecState) : (loadChunk b d).ptr = d.ptr := by rw [loadChunk_frame]
@[simp] theorem loadChunk_x (b : Byte) (d : DecState) : (loadChunk b d).x = d.x := by rw [loadChunk_frame]
@[simp] theorem loadChunk_y (b : Byte) (d : DecState) : (loadChunk b d).y = d.y := by rw [loadChunk_frame]
@[simp] theorem loadChunk_pixel (b : Byte) (d : DecState) : (loadChunk b d).pixel = d.pixel := by rw [loadChunk_frame]

/-- A loaded chunk has at least one pixel in its first counter, so the kind dispatch that follows finds one (R188). -/
theorem loadChunk_len_pos (b : Byte) (d : DecState) : 1 ≤ (loadChunk b d).len.toNat := by
  rcases decodeChunk_cases b with ⟨c, n, h, h1, h2⟩ | ⟨p, h⟩ | ⟨c, r1, r2, h, h1, h2, h3, h4⟩
  · simp only [h, loadChunk, loadLong, BitVec.toNat_ofNat]; omega
  · simp [h, loadChunk, loadUncomp, Config.uncompPixels]
  · simp only [h, loadChunk, loadShort, BitVec.toNat_ofNat]; omega

theorem loadChunk_not_needsChunk (b : Byte) (d : DecState) : (loadChunk b d).needsChunk = false := by
  rw [Bool.eq_false_iff, ne_eq, needsChunk_iff]
  intro e
  have h := loadChunk_len_pos b d
  rw [e.1] at h
  simp at h

/-- The counters and the kept byte, in terms of the byte (R182 to R184). -/
theorem loadChunk_counters (b : Byte) (d : DecState) :
    (loadChunk b d).chunk = b ∧
    (b.getLsbD 7 = false → (loadChunk b d).len.toNat = b.toNat % 64 + 8 ∧ (loadChunk b d).len2 = 0#3) ∧
    (b.getLsbD 7 = true → b.getLsbD 6 = false → (loadChunk b d).len.toNat = 6 ∧ (loadChunk b d).len2 = 0#3) ∧
    (b.getLsbD 7 = true → b.getLsbD 6 = true →
      (loadChunk b d).len.toNat = b.toNat / 4 % 8 + 1 ∧ (loadChunk b d).len2.toNat = b.toNat % 4 + 1) := by
  have key : ∀ b : Byte,
      (loadChunk b DecState.reset).chunk = b ∧
      (b.getLsbD 7 = false →
        (loadChunk b DecState.reset).len.toNat = b.toNat % 64 + 8 ∧ (loadChunk b DecState.reset).len2 = 0#3) ∧
      (b.getLsbD 7 = true → b.getLsbD 6 = false →
        (loadChunk b DecState.reset).len.toNat = 6 ∧ (loadChunk b DecState.reset).len2 = 0#3) ∧
      (b.getLsbD 7 = true → b.getLsbD 6 = true →
        (loadChunk b DecState.reset).len.toNat = b.toNat / 4 % 8 + 1 ∧
          (loadChunk b DecState.reset).len2.toNat = b.toNat % 4 + 1) := by
    decide +kernel
  have same : (loadChunk b d).chunk = (loadChunk b DecState.reset).chunk ∧
      (loadChunk b d).len = (loadChunk b DecState.reset).len ∧
      (loadChunk b d).len2 = (loadChunk b DecState.reset).len2 := by
    rcases decodeChunk_cases b with ⟨c, n, h, -⟩ | ⟨p, h⟩ | ⟨c, r1, r2, h, -⟩ <;>
      simp [h, loadChunk, loadLong, loadUncomp, loadShort]
  rw [same.1, same.2.1, same.2.2]
  exact key b

/-! ### Step 1: the fetch -/

theorem fetchChunk_frame (s : State) :
    fetchChunk s =
      { s.dec with
        ptr := (fetchChunk s).ptr, chunk := (fetchChunk s).chunk, len := (fetchChunk s).len,
        len2 := (fetchChunk s).len2, color := (fetchChunk s).color } := by
  unfold fetchChunk
  split
  · rw [loadChunk_frame]
  · rfl

theorem fetchChunk_of_loaded {s : State} (h : s.dec.needsChunk = false) : fetchChunk s = s.dec := by
  simp [fetchChunk, h]

theorem fetchChunk_of_needs {s : State} (h : s.dec.needsChunk = true) :
    fetchChunk s = loadChunk (memRead s (s.dec.base + s.dec.ptr)) { s.dec with ptr := s.dec.ptr + 1#32 } := by
  simp [fetchChunk, h, streamByte, byteAddr_toNat]

/-! ### Step 2: the pixel -/

theorem producePixel_frame (d : DecState) :
    producePixel d =
      { d with
        pixel := (producePixel d).pixel, len := (producePixel d).len, len2 := (producePixel d).len2 } := by
  unfold producePixel longPixel uncompPixel shortPixel
  repeat' split
  all_goals rfl

theorem producePixel_long {d : DecState} (h : d.chunk.getLsbD 7 = false) : producePixel d = longPixel d := by
  rw [producePixel, if_pos ((extract7_iff _).2 h)]

theorem producePixel_uncomp {d : DecState} (h : d.chunk.getLsbD 7 = true) (h' : d.chunk.getLsbD 6 = false) :
    producePixel d = uncompPixel d := by
  rw [producePixel, if_neg (by rw [extract7_iff, h]; decide), if_pos ((extract6_iff _).2 h')]

theorem producePixel_short {d : DecState} (h : d.chunk.getLsbD 7 = true) (h' : d.chunk.getLsbD 6 = true) :
    producePixel d = shortPixel d := by
  rw [producePixel, if_neg (by rw [extract7_iff, h]; decide), if_neg (by rw [extract6_iff, h']; decide)]

/-! ### Step 3: the output cursor -/

theorem advanceOutput_frame (d : DecState) :
    advanceOutput d =
      { d with
        x := (advanceOutput d).x, y := (advanceOutput d).y, state := (advanceOutput d).state } := by
  unfold advanceOutput
  simp only
  repeat' split
  all_goals rfl

@[simp] theorem advanceOutput_pixel (d : DecState) : (advanceOutput d).pixel = d.pixel := by rw [advanceOutput_frame]
@[simp] theorem advanceOutput_len (d : DecState) : (advanceOutput d).len = d.len := by rw [advanceOutput_frame]
@[simp] theorem advanceOutput_len2 (d : DecState) : (advanceOutput d).len2 = d.len2 := by rw [advanceOutput_frame]
@[simp] theorem advanceOutput_chunk (d : DecState) : (advanceOutput d).chunk = d.chunk := by rw [advanceOutput_frame]
@[simp] theorem advanceOutput_color (d : DecState) : (advanceOutput d).color = d.color := by rw [advanceOutput_frame]
@[simp] theorem advanceOutput_w (d : DecState) : (advanceOutput d).w = d.w := by rw [advanceOutput_frame]
@[simp] theorem advanceOutput_h (d : DecState) : (advanceOutput d).h = d.h := by rw [advanceOutput_frame]
@[simp] theorem advanceOutput_ptr (d : DecState) : (advanceOutput d).ptr = d.ptr := by rw [advanceOutput_frame]
@[simp] theorem advanceOutput_base (d : DecState) : (advanceOutput d).base = d.base := by rw [advanceOutput_frame]
@[simp] theorem advanceOutput_limit (d : DecState) : (advanceOutput d).limit = d.limit := by rw [advanceOutput_frame]

/-- From inside the image, one position further in raster order; Exhausted with `x = 0` once `y` reaches the height. -/
theorem advanceOutput_spec {d : DecState} (hx : d.x.toNat < d.w.toNat) (hy : d.y.toNat < d.h.toNat) (hs : d.state = .ready) :
    (advanceOutput d).y.toNat * d.w.toNat + (advanceOutput d).x.toNat = d.y.toNat * d.w.toNat + d.x.toNat + 1 ∧
      (advanceOutput d).x.toNat < d.w.toNat ∧ (advanceOutput d).y.toNat ≤ d.h.toNat ∧
      ((advanceOutput d).y.toNat < d.h.toNat → (advanceOutput d).state = .ready) ∧
      (d.h.toNat ≤ (advanceOutput d).y.toNat → (advanceOutput d).state = .exhausted ∧ (advanceOutput d).x = 0#16) := by
  have hw := d.w.isLt
  have hh := d.h.isLt
  have e1 : (d.x + 1#16).toNat = d.x.toNat + 1 := by simp; omega
  have e2 : (d.y + 1#16).toNat = d.y.toNat + 1 := by simp; omega
  have ex : d.x + 1#16 = d.w ↔ d.x.toNat + 1 = d.w.toNat := by rw [← BitVec.toNat_inj, e1]
  unfold advanceOutput
  by_cases hc : d.x + 1#16 = d.w
  · have hc' := ex.1 hc
    have hm : (d.y.toNat + 1) * d.w.toNat = d.y.toNat * d.w.toNat + d.w.toNat := by rw [Nat.add_mul, Nat.one_mul]
    simp only [hc, if_true]
    split
    · rename_i hh'
      rw [BitVec.le_def] at hh'
      simp only [e2] at hh' ⊢
      exact ⟨by simp; omega, by simp; omega, by omega, by omega, by simp⟩
    · rename_i hh'
      rw [BitVec.le_def] at hh'
      simp only [e2] at hh' ⊢
      exact ⟨by simp; omega, by simp; omega, by omega, by simp [hs], by omega⟩
  · have hc' : ¬ d.x.toNat + 1 = d.w.toNat := fun e => hc (ex.2 e)
    simp only [hc, if_false]
    split
    · rename_i hh'
      rw [BitVec.le_def] at hh'
      omega
    · simp only [e1]
      exact ⟨by omega, by omega, by omega, by simp [hs], by omega⟩

/-! ### DEC_PIXEL as a whole -/

theorem decPixelFault_ready {s : State} (h : s.dec.state = .ready)
    (hf : s.dec.len ≠ 0#7 ∨ s.dec.len2 ≠ 0#3 ∨ s.dec.ptr.toNat < s.dec.limit.toNat) : decPixelFault s = none := by
  have : (s.dec.needsChunk && decide (s.dec.limit ≤ s.dec.ptr)) = false := by
    rw [Bool.eq_false_iff]
    simp only [ne_eq, Bool.and_eq_true, needsChunk_iff, decide_eq_true_eq, BitVec.le_def]
    rintro ⟨⟨a, b⟩, c⟩
    rcases hf with h | h | h
    · exact h a
    · exact h b
    · omega
  simp [decPixelFault, h, this]

/-- A Ready decoder with a pixel or a byte left gives its pixel. -/
theorem exec_decPixel_ready {s : State} (h : s.dec.state = .ready)
    (hf : s.dec.len ≠ 0#7 ∨ s.dec.len2 ≠ 0#3 ∨ s.dec.ptr.toNat < s.dec.limit.toNat) :
    exec .decPixel s = .next (completed { s with dec := advanceOutput (producePixel (fetchChunk s)) }) := by
  simp [exec, execDecPixel, decPixelFault_ready h hf, decPixelEffect, h]

/-- A Ready decoder with nothing left overruns its stream. -/
theorem exec_decPixel_overrun {s : State} (h : s.dec.state = .ready) (h1 : s.dec.len = 0#7) (h2 : s.dec.len2 = 0#3)
    (h3 : s.dec.limit.toNat ≤ s.dec.ptr.toNat) : exec .decPixel s = .next { s with fault := .streamOverrun } := by
  have hn := (needsChunk_iff _).2 ⟨h1, h2⟩
  have hp : s.dec.limit ≤ s.dec.ptr := by rw [BitVec.le_def]; exact h3
  simp [exec, execDecPixel, decPixelFault, h, hn, hp, raiseFault]

end Sys2Proof.Machine
end

