-- ==== Sys2Proof/Laws/DecCommands.lean ====
section
/-! SUPPORT. The decoder's commands by cases, and the pixels that a loaded chunk still holds (spec/42_decoder.md R185 to R194). -/

namespace Sys2Proof.Machine

/-! ### The commands by cases -/

theorem decPixel_cases {s t : State} (h : exec .decPixel s = .next t) :
    (∃ c, decPixelFault s = some c ∧ t = { s with fault := c }) ∨
      (decPixelFault s = none ∧ t = completed (decPixelEffect s)) := by
  simp only [exec, execDecPixel] at h
  split at h
  · rename_i c hc
    cases h
    exact .inl ⟨c, hc, rfl⟩
  · rename_i hc
    cases h
    exact .inr ⟨hc, rfl⟩

theorem decPixelFault_cases {s : State} {c : FaultCode} (h : decPixelFault s = some c) :
    (c = .decNotReady ∧ s.dec.state = .uninitialized) ∨
      (c = .streamOverrun ∧ s.dec.state = .ready ∧ s.dec.needsChunk = true ∧ s.dec.limit ≤ s.dec.ptr) := by
  unfold decPixelFault at h
  split at h
  · cases h
    exact .inl ⟨rfl, by assumption⟩
  · cases h
  · split at h <;> cases h
    rename_i hr hc
    rw [Bool.and_eq_true, decide_eq_true_eq] at hc
    exact .inr ⟨rfl, hr, hc⟩

/-- A valid header overruns the stream, or commits a new decoder. -/
theorem header_cases {c0 : Bit} {w h : Half} {s t : State} (e : exec (.header c0 w h) s = .next t) :
    (t = { s with fault := .streamOverrun } ∧ w ≠ 0#16 ∧ h ≠ 0#16 ∧ s.streamLen.toNat ≤ 6) ∨
      ∃ d, t = completed { s with dec := d } := by
  simp only [exec, execHeader] at e
  split at e
  · cases e
    exact .inr ⟨_, rfl⟩
  · rename_i hz
    split at e
    · rename_i hl
      cases e
      exact .inl ⟨rfl, fun z => hz (.inl z), fun z => hz (.inr z), Nat.le_of_lt_succ hl⟩
    · cases e
      exact .inr ⟨_, rfl⟩

theorem isMagic1_iff (b : Byte) : isMagic1 b = true ↔ b &&& 0xFE#8 = 0xEC#8 := by
  simp [isMagic1]

/-- DEC_INIT overruns a stream of at most six bytes (of six only for an image that is not empty), finds bad magic, or commits a new
decoder. -/
theorem decInit_cases {s t : State} (e : exec .decInit s = .next t) :
    (t = { s with fault := .streamOverrun } ∧ ¬ findsBadMagic s ∧ s.streamLen.toNat ≤ 6 ∧
        (s.streamLen.toNat = 6 → headByte s 3 ++ headByte s 2 ≠ 0#16 ∧ headByte s 5 ++ headByte s 4 ≠ 0#16)) ∨ (t = badMagic s ∧ findsBadMagic s) ∨
      ((∃ d, t = completed { s with dec := d }) ∧ ¬ findsBadMagic s) := by
  have nb : ∀ k, newStreamByte s k = headByte s k := fun _ => rfl
  simp only [exec, execDecInit, nb] at e
  unfold findsBadMagic
  split at e
  · cases e
    exact .inl ⟨rfl, by omega, by omega, by omega⟩
  split at e
  · rename_i c1
    cases e
    exact .inr (.inl ⟨rfl, by omega, .inl c1⟩)
  rename_i c1
  split at e
  · cases e
    refine .inl ⟨rfl, ?_, by omega, by omega⟩
    rintro ⟨-, h | h⟩
    · exact c1 h
    · omega
  split at e
  · rename_i c3
    cases e
    refine .inr (.inl ⟨rfl, by omega, .inr ⟨by omega, ?_⟩⟩)
    rw [ne_eq, ← isMagic1_iff, c3]
    decide
  rename_i c3
  have good : ¬ (1 ≤ s.streamLen.toNat ∧
      (headByte s 0 ≠ 0xFE#8 ∨ 2 ≤ s.streamLen.toNat ∧ headByte s 1 &&& 0xFE#8 ≠ 0xEC#8)) := by
    rintro ⟨-, h | h⟩
    · exact c1 h
    · exact h.2 ((isMagic1_iff _).1 (by simpa using c3))
  split at e
  · rename_i hl
    cases e
    exact .inl ⟨rfl, good, by simp only [Config.headerLen] at hl; omega, by simp only [Config.headerLen] at hl; omega⟩
  rcases header_cases e with ⟨h, hw, hh, hl⟩ | h
  · exact .inl ⟨h, good, hl, fun _ => ⟨hw, hh⟩⟩
  · exact .inr (.inr ⟨h, good⟩)

/-- DEC_INIT never stops the machine. -/
theorem decInit_next (s : State) : ∃ t, exec .decInit s = .next t := by
  simp only [exec, execDecInit, execHeader]
  repeat' split
  all_goals exact ⟨_, rfl⟩

/-! ### The pixels a loaded chunk still holds -/

/-- In the order DEC_PIXEL gives them (R189 to R191). -/
def chunkRest (d : DecState) : List Bit :=
  if d.chunk.getLsbD 7 = false then List.replicate d.len.toNat d.color
  else if d.chunk.getLsbD 6 = false then (List.range d.len.toNat).reverse.map fun k => BitVec.ofBool (d.chunk.getLsbD k)
  else List.replicate d.len.toNat d.color ++ List.replicate d.len2.toNat (1#1 - d.color)

/-- A chunk that has just been loaded holds its whole expansion. -/
theorem chunkRest_loadChunk (b : Byte) (d : DecState) : chunkRest (loadChunk b d) = chunkExpansion b := by
  rcases decodeChunk_cases b with ⟨c, n, h, h1, h2⟩ | ⟨p, h⟩ | ⟨c, r1, r2, h, h1, h2, h3, h4⟩
  · have hk := (extract7_iff _).1 (longByte_kind c n)
    simp only [loadChunk, chunkExpansion, h, loadLong, chunkRest, hk, if_true, BitVec.toNat_ofNat]
    rw [Nat.mod_eq_of_lt (by omega)]
  · have hk : ∀ p : BitVec 6, (uncompByte p).getLsbD 7 = true ∧ (uncompByte p).getLsbD 6 = false ∧
        (List.range 6).reverse.map (fun k => BitVec.ofBool ((uncompByte p).getLsbD k)) =
          [p.extractLsb' 5 1, p.extractLsb' 4 1, p.extractLsb' 3 1, p.extractLsb' 2 1, p.extractLsb' 1 1,
            p.extractLsb' 0 1] := by decide +kernel
    have hp := hk p
    simp only [loadChunk, chunkExpansion, h, loadUncomp, chunkRest, hp.1, hp.2.1, Config.uncompPixels, BitVec.toNat_ofNat,
      Bool.true_eq_false, if_false, if_true]
    exact hp.2.2
  · have hk := shortFieldByte_kind c r1 (BitVec.ofNat 2 (r2 - 1))
    have h7 : (shortByte c r1 r2).getLsbD 7 = true := by
      rw [← Bool.not_eq_false, ← extract7_iff, shortByte, hk.1]
      decide
    have h6 : (shortByte c r1 r2).getLsbD 6 = true := by
      rw [← Bool.not_eq_false, ← extract6_iff, shortByte, hk.2]
      decide
    simp only [loadChunk, chunkExpansion, h, loadShort, chunkRest, h7, h6, Bool.true_eq_false, if_false, BitVec.toNat_ofNat]
    rw [Nat.mod_eq_of_lt (by omega), Nat.mod_eq_of_lt (by omega)]

/-- A chunk's expansion has as many pixels as the chunk decodes to (30_encoding.md R95). -/
theorem chunkExpansion_length (b : Byte) : (chunkExpansion b).length = chunkPixels b := by
  by_cases h7 : b.extractLsb' 7 1 = 0#1
  · simp [chunkExpansion, chunkPixels, decodeChunk, h7]
  · by_cases h6 : b.extractLsb' 6 1 = 0#1 <;> simp [chunkExpansion, chunkPixels, decodeChunk, h7, h6]

/-- What DEC_PIXEL's step 2 gives is the first of them, and it leaves the others (10_state.md R39 gives the hypothesis). -/
theorem producePixel_chunkRest {d : DecState} (h6 : d.chunk.getLsbD 7 = true → d.chunk.getLsbD 6 = false → d.len.toNat ≤ 6)
    {p : Bit} {ps : List Bit} (hr : chunkRest d = p :: ps) : (producePixel d).pixel = p ∧ chunkRest (producePixel d) = ps := by
  have hl := d.len.isLt
  have hl2 := d.len2.isLt
  have dec1 : 1 ≤ d.len.toNat → (d.len - 1#7).toNat = d.len.toNat - 1 := by
    intro h
    rw [BitVec.toNat_sub]
    simp
    omega
  have dec2 : 1 ≤ d.len2.toNat → (d.len2 - 1#3).toNat = d.len2.toNat - 1 := by
    intro h
    rw [BitVec.toNat_sub]
    simp
    omega
  unfold chunkRest at hr
  cases b7 : d.chunk.getLsbD 7 with
  | false =>
    rw [if_pos b7] at hr
    cases hn : d.len.toNat with
    | zero => simp [hn] at hr
    | succ n =>
      rw [hn, List.replicate_succ] at hr
      cases hr
      rw [producePixel_long b7]
      refine ⟨rfl, ?_⟩
      simp only [chunkRest, longPixel, b7, if_true, dec1 (by omega), hn]
      rfl
  | true =>
    rw [if_neg (by simp [b7])] at hr
    cases b6 : d.chunk.getLsbD 6 with
    | false =>
      rw [if_pos b6] at hr
      cases hn : d.len.toNat with
      | zero => simp [hn] at hr
      | succ n =>
        have hle := h6 b7 b6
        rw [hn, List.range_succ] at hr
        simp at hr
        rw [producePixel_uncomp b7 b6]
        constructor
        · rw [← hr.1]
          simp only [uncompPixel, hn]
          exact shift_bit _ _
        · rw [← hr.2]
          simp only [chunkRest, uncompPixel, b7, b6, dec1 (by omega), hn]
          simp
    | true =>
      rw [if_neg (by simp [b6])] at hr
      rw [producePixel_short b7 b6]
      unfold shortPixel
      cases hn : d.len.toNat with
      | succ n =>
        rw [if_pos (by simp [BitVec.lt_def]; omega)]
        rw [hn, List.replicate_succ] at hr
        simp at hr
        refine ⟨hr.1, ?_⟩
        rw [← hr.2]
        simp only [chunkRest, b7, b6, dec1 (by omega), hn]
        simp
      | zero =>
        rw [if_neg (by simp [BitVec.lt_def]; omega)]
        cases hm : d.len2.toNat with
        | zero => simp [hn, hm] at hr
        | succ m =>
          rw [hn, hm, List.replicate_succ] at hr
          simp at hr
          refine ⟨hr.1, ?_⟩
          rw [← hr.2]
          simp only [chunkRest, b7, b6, dec2 (by omega), hm, hn]
          simp

/-! ### Repeated commands -/

/-- One more command at the end of a row of them. -/
theorem repeatCmd_snoc {w : Word} {k : Nat} {s t u : State} (h : repeatCmd w k s = .next t) (hu : writeCmd w t = .next u) :
    repeatCmd w (k + 1) s = .next u := by
  induction k generalizing s with
  | zero =>
    cases h
    simp only [repeatCmd, hu]
  | succ k ih =>
    rw [repeatCmd] at h
    unfold repeatCmd
    split at h
    · exact ih h
    · cases h
    · cases h

end Sys2Proof.Machine
end

