-- ==== Sys2Proof/Laws/Encoder.lean ====
section
/-! SUPPORT. What the cursor's and the encoder's operations do: pixels, moves, run detection, one pass and the header
(spec/40_cursor.md R121 to R128, 41_encoder.md R142 to R153). -/

namespace Sys2Proof.Machine

/-! ### Pixels look at the geometry, RASTER_BASE and memory -/

theorem pixelAddr_congr {s t : State} (hb : t.rasterBase = s.rasterBase) (hp : t.rasterPitch = s.rasterPitch) (x y : Nat) :
    pixelAddr t x y = pixelAddr s x y := by
  simp [pixelAddr, hb, P_congr hp]

theorem pixelAt_congr {s t : State} (hb : t.rasterBase = s.rasterBase) (hp : t.rasterPitch = s.rasterPitch) {x y : Nat}
    (hm : memRead t (pixelAddr s x y) = memRead s (pixelAddr s x y)) : pixelAt t x y = pixelAt s x y := by
  simp [pixelAt, pixelAddr_congr hb hp, hm]

/-- The pixels are those of any state with the same geometry and the same bytes at their addresses. -/
theorem pix_congr {s t : State} (hb : t.rasterBase = s.rasterBase) (hd : t.rasterDim = s.rasterDim)
    (hp : t.rasterPitch = s.rasterPitch)
    (hm : ∀ x y, x < s.W → y < s.H → memRead t (pixelAddr s x y) = memRead s (pixelAddr s x y)) (i : Nat) :
    pix t i = pix s i := by
  unfold pix
  rw [N_congr hd, W_congr hd]
  split
  · rfl
  · rename_i h
    have hi : i < s.W * s.H := by simpa [State.N] using h
    have hw : 0 < s.W := Nat.pos_of_ne_zero fun e => by simp [e] at hi
    exact pixelAt_congr hb hp (hm _ _ (Nat.mod_lt _ hw) (Nat.div_lt_of_lt_mul hi))

/-- A position past the last pixel reads the sentinel 0 (R123). -/
theorem pix_sentinel {s : State} {i : Nat} (h : s.N ≤ i) : pix s i = 0#1 := by
  simp [pix, h]

/-- The pixel at `(x, y)` is the one at its raster position. -/
theorem pix_lin {s : State} {x y : Nat} (hx : x < s.W) (hy : y < s.H) : pix s (y * s.W + x) = pixelAt s x y := by
  have hw : 0 < s.W := by omega
  have hlt : y * s.W + x < s.N := by
    have h := Nat.mul_le_mul_right s.W (Nat.succ_le_of_lt hy)
    rw [Nat.succ_mul] at h
    rw [State.N, Nat.mul_comm s.W]
    omega
  have h1 : (y * s.W + x) % s.W = x := by rw [Nat.mul_comm, Nat.mul_add_mod, Nat.mod_eq_of_lt hx]
  have h2 : (y * s.W + x) / s.W = y := by
    rw [Nat.mul_comm, Nat.mul_add_div hw, Nat.div_eq_of_lt hx, Nat.add_zero]
  rw [pix, if_neg (by omega), h1, h2]

/-! ### The cursor -/

theorem setLin_x_toNat {s : State} (i : Nat) (hw : 0 < s.W) : (setLin i s).enc.x.toNat = i % s.W := by
  have h1 := Nat.mod_lt i hw
  have h2 := W_lt s
  simp only [setLin_enc, BitVec.toNat_ofNat]
  exact Nat.mod_eq_of_lt (by omega)

theorem setLin_y_toNat {s : State} {i : Nat} (hi : i ≤ s.N) : (setLin i s).enc.y.toNat = i / s.W := by
  have h1 : i / s.W ≤ s.H := by
    rcases Nat.eq_zero_or_pos s.W with h | h
    · simp [h]
    · calc i / s.W ≤ s.N / s.W := Nat.div_le_div_right hi
        _ = s.H := by rw [State.N, Nat.mul_div_cancel_left _ h]
  have h2 := H_lt s
  simp only [setLin_enc, BitVec.toNat_ofNat]
  exact Nat.mod_eq_of_lt (by omega)

theorem setLin_cursorLin {s : State} {i : Nat} (hw : 0 < s.W) (hi : i ≤ s.N) : (setLin i s).cursorLin = i := by
  have hW : (setLin i s).W = s.W := W_congr rfl
  rw [State.cursorLin, hW, setLin_x_toNat i hw, setLin_y_toNat hi, Nat.mul_comm, Nat.div_add_mod]

/-- `SetLin(i)` is at the end exactly when `i` is `N`. -/
theorem setLin_cursorAtEnd {s : State} {i : Nat} (hw : 0 < s.W) (hi : i ≤ s.N) :
    (setLin i s).cursorAtEnd = decide (i = s.N) := by
  have hW : (setLin i s).W = s.W := W_congr rfl
  have hH : (setLin i s).H = s.H := H_congr rfl
  rw [State.cursorAtEnd, State.atEnd, hW, hH, setLin_y_toNat hi]
  have h0 : ¬ s.W = 0 := by omega
  have e : s.H ≤ i / s.W ↔ i = s.N := by
    rw [Nat.le_div_iff_mul_le hw, Nat.mul_comm, ← State.N]
    omega
  simp [h0, e]

/-- A cursor that is not at the end, with `x` inside its row, is at a position below `N`. -/
theorem cursorLin_lt {s : State} (hx : s.enc.x.toNat < s.W) (hy : s.enc.y.toNat < s.H) : s.cursorLin < s.N := by
  have h := Nat.mul_le_mul_right s.W (Nat.succ_le_of_lt hy)
  rw [Nat.succ_mul] at h
  rw [State.cursorLin, State.N, Nat.mul_comm s.W]
  omega

theorem cursorAtEnd_iff (s : State) : s.cursorAtEnd = true ↔ s.H ≤ s.enc.y.toNat ∨ s.W = 0 := by
  simp [State.cursorAtEnd, State.atEnd]

theorem cursorAtEnd_false_iff (s : State) : s.cursorAtEnd = false ↔ s.enc.y.toNat < s.H ∧ s.W ≠ 0 := by
  rw [Bool.eq_false_iff, ne_eq, cursorAtEnd_iff]
  omega

/-- Advance moves a cursor inside the raster on by one position (R124). -/
theorem advanceCursor_spec {s : State} (hx : s.enc.x.toNat < s.W) (hy : s.enc.y.toNat < s.H) :
    (advanceCursor s).enc.y.toNat * s.W + (advanceCursor s).enc.x.toNat = s.cursorLin + 1 ∧
      (advanceCursor s).enc.x.toNat < s.W ∧
      ((advanceCursor s).enc.y.toNat < s.H ∨ ((advanceCursor s).enc.x = 0#16 ∧ (advanceCursor s).enc.y = s.heightField)) := by
  have hW := W_lt s
  have hH := H_lt s
  have e1 : (s.enc.x + 1#16).toNat = s.enc.x.toNat + 1 := by simp; omega
  have e2 : (s.enc.y + 1#16).toNat = s.enc.y.toNat + 1 := by simp; omega
  unfold advanceCursor
  split
  · rename_i h
    refine ⟨?_, by simp; omega, ?_⟩
    · simp only [State.cursorLin, e2, Nat.add_mul]
      simp
      omega
    · rcases Nat.lt_or_ge (s.enc.y.toNat + 1) s.H with h' | h'
      · exact .inl (by simp only [e2]; omega)
      · exact .inr ⟨rfl, BitVec.eq_of_toNat_eq (by simp only [e2]; simp only [State.H] at *; omega)⟩
  · simp only [State.cursorLin, e1]
    exact ⟨by omega, by omega, .inl hy⟩

@[simp] theorem advanceCursor_phase (s : State) : (advanceCursor s).enc.phase = s.enc.phase := by
  unfold advanceCursor; split <;> rfl

@[simp] theorem advanceCursor_outLen (s : State) : (advanceCursor s).enc.outLen = s.enc.outLen := by
  unfold advanceCursor; split <;> rfl

@[simp] theorem advanceCursor_curPixel (s : State) : (advanceCursor s).enc.curPixel = s.enc.curPixel := by
  unfold advanceCursor; split <;> rfl

/-! ### Run detection counts at most its cap, and only real pixels -/

theorem runLength_le (s : State) (c : Bit) (cap i : Nat) : runLength s c cap i ≤ cap := by
  induction cap generalizing i with
  | zero => exact Nat.le_refl 0
  | succ cap ih =>
    unfold runLength
    split
    · exact Nat.succ_le_succ (ih _)
    · exact Nat.zero_le _

theorem runLength_inside (s : State) (c : Bit) (cap i : Nat) : runLength s c cap i = 0 ∨ i + runLength s c cap i ≤ s.N := by
  induction cap generalizing i with
  | zero => exact .inl rfl
  | succ cap ih =>
    unfold runLength
    split
    · rename_i h
      right
      rcases ih (i + 1) with h0 | h1
      · rw [h0]; omega
      · omega
    · exact .inl rfl

/-- Run detection looks at the pixels and `N` only. -/
theorem runLength_congr {s t : State} (hn : t.N = s.N) (hp : ∀ i < s.N, pix t i = pix s i) (c : Bit) (cap i : Nat) :
    runLength t c cap i = runLength s c cap i := by
  induction cap generalizing i with
  | zero => rfl
  | succ cap ih =>
    unfold runLength
    rw [hn, ih]
    by_cases h : i < s.N
    · rw [hp i h]
    · simp [h]

/-- The counted pixels are real and have the colour, and the count stops for one of three reasons. -/
theorem runLength_spec (s : State) (c : Bit) (cap i : Nat) :
    (∀ j < runLength s c cap i, i + j < s.N ∧ pix s (i + j) = c) ∧
      (runLength s c cap i = cap ∨ s.N ≤ i + runLength s c cap i ∨ pix s (i + runLength s c cap i) ≠ c) := by
  induction cap generalizing i with
  | zero => exact ⟨fun j h => by simp [runLength] at h, .inl rfl⟩
  | succ cap ih =>
    unfold runLength
    split
    · rename_i h
      obtain ⟨h1, h2⟩ := ih (i + 1)
      constructor
      · intro j hj
        cases j with
        | zero => exact h
        | succ j =>
          have := h1 j (by omega)
          rwa [show i + (j + 1) = i + 1 + j by omega]
      · rw [show i + (runLength s c cap (i + 1) + 1) = i + 1 + runLength s c cap (i + 1) by omega]
        rcases h2 with h | h | h
        · exact .inl (by omega)
        · exact .inr (.inl h)
        · exact .inr (.inr h)
    · rename_i h
      refine ⟨fun j hj => by omega, ?_⟩
      by_cases hi : i < s.N
      · exact .inr (.inr (by simpa using fun e => h ⟨hi, e⟩))
      · exact .inr (.inl (by omega))

/-- What run detection returns is a run (R142). -/
theorem runDetect_isRun (s : State) (i : Nat) : IsRun s i (runDetect s i) :=
  have h := runLength_spec s (pix s i) Config.maxRun i
  ⟨runLength_le _ _ _ _, runLength_inside _ _ _ _, fun j hj => (h.1 j hj).2, h.2⟩

theorem IsRun.le {s : State} {i a b : Nat} (ha : IsRun s i a) (hb : IsRun s i b) : a ≤ b := by
  apply Nat.le_of_not_lt
  intro h
  rcases hb.stop with e | e | e
  · have := ha.cap; omega
  · have := ha.inside; omega
  · exact e (ha.same b h)

/-- A position has one run. -/
theorem IsRun.eq {s : State} {i a b : Nat} (ha : IsRun s i a) (hb : IsRun s i b) : a = b :=
  Nat.le_antisymm (ha.le hb) (hb.le ha)

/-- A run at a real pixel counts it, and stays inside the image. -/
theorem IsRun.bounds {s : State} {i a : Nat} (h : i < s.N) (ha : IsRun s i a) : 1 ≤ a ∧ i + a ≤ s.N := by
  have h0 : a ≠ 0 := by
    rintro rfl
    rcases ha.stop with e | e | e
    · omega
    · omega
    · exact e rfl
  have := ha.inside
  omega

/-- Every position has a run, and the position behind it another. -/
theorem exists_runs (s : State) (i : Nat) : ∃ r1 r2, IsRun s i r1 ∧ IsRun s (i + r1) r2 :=
  ⟨_, _, runDetect_isRun _ _, runDetect_isRun _ _⟩

/-! ### Regions -/

/-- The raster region is smaller than the address space, so membership modulo 2^32 is membership at an offset. -/
theorem inRaster_iff (s : State) (a : Word) : inRaster s a = true ↔ inRasterRegion s a := by
  have hp : s.P * s.H < 2 ^ 32 := by
    have h1 := P_lt s
    have h2 := H_lt s
    calc s.P * s.H ≤ 65535 * 65535 := Nat.mul_le_mul (by omega) (by omega)
      _ < 2 ^ 32 := by decide
  simp only [inRaster, decide_eq_true_eq, inRasterRegion]
  constructor
  · intro h
    refine ⟨_, h, ?_⟩
    rw [BitVec.ofNat_toNat, BitVec.setWidth_eq, BitVec.add_comm, BitVec.sub_add_cancel]
  · rintro ⟨k, hk, rfl⟩
    rw [BitVec.add_comm, BitVec.add_sub_cancel, BitVec.toNat_ofNat, Nat.mod_eq_of_lt (by omega)]
    exact hk

theorem headerOverlaps_iff (s : State) :
    headerOverlaps s = true ↔ ∃ k < 6, inRasterRegion s (s.outBase + BitVec.ofNat 32 k) := by
  simp [headerOverlaps, inRaster_iff, byteAddr, Config.headerLen]

theorem chunkAddr_eq (s : State) : chunkAddr s = s.outBase + s.enc.outLen := byteAddr_toNat _ _

theorem chunkOverlaps_iff (s : State) : chunkOverlaps s = true ↔ inRasterRegion s (s.outBase + s.enc.outLen) := by
  rw [chunkOverlaps, inRaster_iff, chunkAddr_eq]

theorem paramsOk_iff (s : State) : paramsOk s = true ↔ geometryOk s := by
  simp only [paramsOk, geometryOk, Bool.and_eq_true, decide_eq_true_eq]
  omega

theorem inRasterRegion_congr {s t : State} (hb : t.rasterBase = s.rasterBase) (hd : t.rasterDim = s.rasterDim)
    (hp : t.rasterPitch = s.rasterPitch) (a : Word) : inRasterRegion t a ↔ inRasterRegion s a := by
  simp [inRasterRegion, hb, H_congr hd, P_congr hp]

/-- A pixel's byte lies in the raster region when the pitch holds a row (20_memory.md R67). -/
theorem pixelAddr_inRasterRegion {s : State} (h : geometryOk s) {x y : Nat} (hx : x < s.W) (hy : y < s.H) :
    inRasterRegion s (pixelAddr s x y) := by
  obtain ⟨-, -, hp⟩ := h
  refine ⟨x / 8 + y * s.P, ?_, rfl⟩
  have hm := Nat.mul_le_mul_right s.P (Nat.succ_le_of_lt hy)
  rw [Nat.succ_mul] at hm
  rw [Nat.mul_comm s.P]
  omega

theorem N_pos {s : State} (h : geometryOk s) : 1 ≤ s.N := Nat.mul_pos h.1 h.2.1

theorem pix_zero {s : State} (h : geometryOk s) : pix s 0 = pixelAt s 0 0 := by
  simpa using pix_lin (s := s) (x := 0) (y := 0) h.1 h.2.1

/-! ### One pass, from the runs at its position (R144 to R149) -/

theorem encPass_of_runs {s : State} {i r1 r2 : Nat} (h1 : IsRun s i r1) (h2 : IsRun s (i + r1) r2) :
    encPass s i =
      if 8 < r1 then (longByte (pix s i) r1, i + r1)
      else if r1 + r2 < 7 then (uncompByte (uncompLiteral s i), min (i + 6) s.N)
      else if 1 ≤ r2 then (shortByte (pix s i) r1 (min r2 4), i + r1 + min r2 4)
      else (shortFieldByte (pix s i) r1 0#2, s.N) := by
  have e1 := (runDetect_isRun s i).eq h1
  have e2 := (runDetect_isRun s (i + r1)).eq h2
  simp only [encPass, e1, e2, runColor]

/-- A pass moves on, and not past the image. -/
theorem encPass_next_bounds {s : State} {i : Nat} (hi : i < s.N) : i + 1 ≤ (encPass s i).2 ∧ (encPass s i).2 ≤ s.N := by
  obtain ⟨r1, r2, h1, h2⟩ := exists_runs s i
  have hb := h1.bounds hi
  have hin := h2.inside
  rw [encPass_of_runs h1 h2]
  split
  · exact ⟨by simp only; omega, hb.2⟩
  split
  · exact ⟨by simp only; omega, by simp only; omega⟩
  split
  · exact ⟨by simp only; omega, by simp only; omega⟩
  · exact ⟨by simp only; omega, Nat.le_refl _⟩

/-- A pass looks at the pixels and `N` only. -/
theorem encPass_congr {s t : State} (hn : t.N = s.N) (hp : ∀ i, pix t i = pix s i) (i : Nat) : encPass t i = encPass s i := by
  have hr : ∀ i, runDetect t i = runDetect s i := fun i => by
    rw [runDetect, runDetect, hp]
    exact runLength_congr hn (fun i _ => hp i) _ _ _
  simp only [encPass, runColor, uncompLiteral, hr, hp, hn]

theorem encPass_completed (s : State) : encPass (completed s) = encPass s := by
  funext i
  refine encPass_congr (N_congr (completed_rasterDim s)) (fun j => ?_) i
  exact pix_congr (completed_rasterBase s) (completed_rasterDim s) (completed_rasterPitch s)
    (fun _ _ _ _ => memRead_congr (completed_mem s) _) j

/-! ### A pass's step -/

theorem emits_iff (s : State) : emits s = true ↔ s.enc.phase = .running ∧ s.enc.y.toNat < s.H ∧ s.W ≠ 0 := by
  rw [← cursorAtEnd_false_iff]
  simp [emits]

theorem closeIfAtEnd_enc (s : State) :
    (closeIfAtEnd s).enc = { s.enc with phase := if s.cursorAtEnd then .done else s.enc.phase } := by
  unfold closeIfAtEnd
  split <;> simp [*]

theorem closeIfAtEnd_mem' (s : State) (a : Word) : memRead (closeIfAtEnd s) a = memRead s a :=
  memRead_congr (closeIfAtEnd_mem s) a

theorem emitChunk_mem (s : State) : (emitChunk s).mem = s.mem.write (chunkAddr s).toNat (encPass s s.cursorLin).1 := rfl

theorem emitChunk_enc (s : State) :
    (emitChunk s).enc =
      { s.enc with
        outLen := s.enc.outLen + 1#32,
        x := BitVec.ofNat 16 ((encPass s s.cursorLin).2 % s.W), y := BitVec.ofNat 16 ((encPass s s.cursorLin).2 / s.W) } := rfl

theorem encStepEffect_emits {s : State} (h : emits s = true) : encStepEffect s = closeIfAtEnd (emitChunk s) := by
  have h' := (emits_iff s).1 h
  have h'' := (cursorAtEnd_false_iff s).2 h'.2
  simp [encStepEffect, h'.1, h'']

theorem encStepEffect_mem_of_not_emits {s : State} (h : emits s = false) : (encStepEffect s).mem = s.mem := by
  unfold encStepEffect
  split
  · rfl
  · rfl
  · rename_i hr
    split
    · simp
    · rename_i hc
      simp [emits, hr, hc] at h

theorem emitChunk_wf {s : State} (h : s.mem.wf = true) : (emitChunk s).mem.wf = true := memWrite_wf (chunkAddr s) _ h

/-- The chunk byte reads back, and every other byte of memory is as before. -/
theorem memRead_emitChunk {s : State} (h : s.mem.wf = true) :
    memRead (emitChunk s) (s.outBase + s.enc.outLen) = (encPass s s.cursorLin).1 := by
  rw [← chunkAddr_eq]
  exact memRead_memWrite_self _ _ h

theorem memRead_emitChunk_of_ne {s : State} {a : Word} (h : a ≠ s.outBase + s.enc.outLen) :
    memRead (emitChunk s) a = memRead s a := by
  rw [← chunkAddr_eq] at h
  exact memRead_memWrite_of_ne _ _ h

/-- The cursor after a pass is at the pass's end. -/
theorem emitChunk_cursor {s : State} (hx : s.enc.x.toNat < s.W) (hy : s.enc.y.toNat < s.H) :
    (emitChunk s).enc.x.toNat = (encPass s s.cursorLin).2 % s.W ∧
      (emitChunk s).enc.y.toNat = (encPass s s.cursorLin).2 / s.W ∧
      (emitChunk s).cursorLin = (encPass s s.cursorLin).2 ∧
      (emitChunk s).cursorAtEnd = decide ((encPass s s.cursorLin).2 = s.N) := by
  have hn := encPass_next_bounds (cursorLin_lt hx hy)
  let s1 : State :=
    { memWrite (chunkAddr s) (encPass s s.cursorLin).1 s with enc := { s.enc with outLen := s.enc.outLen + 1#32 } }
  have e : emitChunk s = setLin (encPass s s.cursorLin).2 s1 := rfl
  have hW : s1.W = s.W := W_congr rfl
  have hN : s1.N = s.N := N_congr rfl
  rw [e]
  refine ⟨?_, ?_, ?_, ?_⟩
  · rw [← hW]; exact setLin_x_toNat _ (by omega)
  · rw [← hW]; exact setLin_y_toNat (by omega)
  · exact setLin_cursorLin (by omega) (by omega)
  · rw [← hN]; exact setLin_cursorAtEnd (by omega) (by omega)

/-- A step that emits has room for its byte once no fault stops it. -/
theorem emits_room {s : State} (he : emits s = true) (hf : encStepFault s = none) : s.enc.outLen.toNat < s.outCap.toNat := by
  have hp := (emits_iff s).1 he
  simp [encStepFault, hp.1, he] at hf
  omega

/-- An ENC_STEP's effect is on the encoder, CUR_PIXEL aside, and on memory. -/
theorem encStepEffect_frame (s : State) :
    encStepEffect s =
      { s with enc := { (encStepEffect s).enc with curPixel := s.enc.curPixel }, mem := (encStepEffect s).mem } := by
  have e : ∀ u : State, closeIfAtEnd u = { u with enc := { (closeIfAtEnd u).enc with curPixel := u.enc.curPixel } } := by
    intro u
    unfold closeIfAtEnd
    split <;> rfl
  unfold encStepEffect
  split
  · rfl
  · rfl
  · split
    · exact (e s).trans (by simp)
    · exact (e _).trans (by simp [emitChunk_enc])

/-- An ENC_STEP's effect on memory is its chunk byte only. -/
theorem memRead_encStepEffect_of_ne {s : State} {a : Word} (h : emits s = true → a ≠ s.outBase + s.enc.outLen) :
    memRead (encStepEffect s) a = memRead s a := by
  cases he : emits s with
  | true => rw [encStepEffect_emits he, closeIfAtEnd_mem', memRead_emitChunk_of_ne (h he)]
  | false => exact memRead_congr (encStepEffect_mem_of_not_emits he) a

theorem encStepEffect_wf {s : State} (h : s.mem.wf = true) : (encStepEffect s).mem.wf = true := by
  cases he : emits s with
  | true => rw [encStepEffect_emits he, closeIfAtEnd_mem]; exact emitChunk_wf h
  | false => rw [encStepEffect_mem_of_not_emits he]; exact h

/-! ### The header (R151, R152) -/

theorem headerBytes_length (s : State) : (headerBytes s).length = 6 := rfl

theorem encInitEffect_frame (s : State) :
    encInitEffect s =
      { s with
        enc := { s.enc with x := 0#16, y := 0#16, outLen := 6#32, phase := .running }, mem := (encInitEffect s).mem } := by
  have e : encInitEffect s = { s with enc := (encInitEffect s).enc, mem := (encInitEffect s).mem } := by
    unfold encInitEffect
    simp [headerBytes, writeBytes, memWrite]
  rw [encInitEffect_enc] at e
  exact e

theorem encInitEffect_wf {s : State} (h : s.mem.wf = true) : (encInitEffect s).mem.wf = true := writeBytes_wf h

/-- Each header byte reads back. -/
theorem memRead_encInitEffect {s : State} (h : s.mem.wf = true) (j : Nat) (hj : j < 6) :
    memRead (encInitEffect s) (s.outBase + BitVec.ofNat 32 j) = (headerBytes s)[j]'(by simpa [headerBytes] using hj) := by
  have e := memRead_writeBytes (base := s.outBase) (k := 0) (bs := headerBytes s)
    (s := { s with enc := { s.enc.atOrigin with outLen := BitVec.ofNat 32 Config.headerLen, phase := .running } })
    h (by simp [headerBytes]) j (by simpa [headerBytes] using hj)
  rw [Nat.zero_add] at e
  exact e

theorem memRead_encInitEffect_of_ne {s : State} {a : Word} (h : ∀ k < 6, a ≠ s.outBase + BitVec.ofNat 32 k) :
    memRead (encInitEffect s) a = memRead s a := by
  unfold encInitEffect
  rw [memRead_writeBytes_of_ne]
  · rfl
  · intro j _ hj
    exact h j (by simpa [headerBytes] using hj)

/-- What no fault of ENC_INIT means for the registers. -/
theorem encInitFault_eq_none {s : State} (h : encInitFault s = none) : geometryOk s ∧ 6 ≤ s.outCap.toNat := by
  unfold encInitFault at h
  split at h
  · cases h
  · rename_i hp
    split at h
    · cases h
    · rename_i hc
      exact ⟨(paramsOk_iff s).1 (by simpa using hp), by simpa [Config.headerLen] using hc⟩

theorem encInitFault_of_ok {s : State} (h : geometryOk s) (hc : 6 ≤ s.outCap.toNat) : encInitFault s = none := by
  simp [encInitFault, (paramsOk_iff s).2 h]
  omega

end Sys2Proof.Machine
end

