-- ==== Sys2Proof/Laws/EncCommands.lean ====
section
/-! SUPPORT. The encoder's commands by cases: what ENC_INIT, ENC_STEP and ENC_RUN can answer, and the passes that ENC_RUN's loop performs
(spec/41_encoder.md R152 to R154, 60_exceptions.md R223). -/

namespace Sys2Proof.Machine

/-! ### ENC_INIT and ENC_STEP -/

theorem encInit_cases {s t : State} (h : exec .encInit s = .next t) :
    (∃ c, encInitFault s = some c ∧ t = { s with fault := c }) ∨
      (encInitFault s = none ∧ headerOverlaps s = false ∧ t = completed (encInitEffect s)) := by
  simp only [exec, execEncInit] at h
  split at h
  · rename_i c hc
    simp only [raiseFault, Host.Outcome.next.injEq] at h
    exact .inl ⟨c, hc, h.symm⟩
  · rename_i hc
    split at h
    · cases h
    · rename_i ho
      cases h
      exact .inr ⟨hc, by simpa using ho, rfl⟩

theorem encStep_cases {s t : State} (h : exec .encStep s = .next t) :
    (∃ c, encStepFault s = some c ∧ t = { s with fault := c }) ∨
      (encStepFault s = none ∧ (emits s && chunkOverlaps s) = false ∧ t = completed (encStepEffect s)) := by
  simp only [exec, execEncStep] at h
  split at h
  · rename_i c hc
    simp only [raiseFault, Host.Outcome.next.injEq] at h
    exact .inl ⟨c, hc, h.symm⟩
  · rename_i hc
    split at h
    · cases h
    · rename_i ho
      cases h
      exact .inr ⟨hc, by simpa using ho, rfl⟩

theorem encInitFault_cases {s : State} {c : FaultCode} (h : encInitFault s = some c) :
    (c = .param ∧ ¬ geometryOk s) ∨ (c = .outOverflow ∧ geometryOk s ∧ s.outCap.toNat < 6) := by
  unfold encInitFault at h
  split at h
  · rename_i hp
    cases h
    exact .inl ⟨rfl, by rw [← paramsOk_iff, hp]; decide⟩
  · rename_i hp
    split at h <;> cases h
    exact .inr ⟨rfl, (paramsOk_iff s).1 (by simpa using hp), by assumption⟩

theorem encStepFault_cases {s : State} {c : FaultCode} (h : encStepFault s = some c) :
    (c = .encNotReady ∧ s.enc.phase = .idle) ∨
      (c = .outOverflow ∧ emits s = true ∧ s.outCap.toNat ≤ s.enc.outLen.toNat) := by
  unfold encStepFault at h
  split at h
  · cases h
    exact .inl ⟨rfl, by assumption⟩
  · split at h <;> cases h
    rename_i hc
    rw [Bool.and_eq_true, decide_eq_true_eq] at hc
    exact .inr ⟨rfl, hc⟩

/-! ### The loop of ENC_RUN -/

/-- `t` is reached from `s` by passes of the loop, each without a fault and clear of the raster. -/
inductive Passes : State → State → Prop
  | refl {s : State} : Passes s s
  | step {s t : State} : s.enc.phase = .running → encStepFault s = none → (emits s && chunkOverlaps s) = false →
      Passes (encStepEffect s) t → Passes s t

theorem encRunLoop_next {fuel : Nat} {s t : State} (h : encRunLoop fuel s = .next t) :
    ∃ v, Passes s v ∧
      (t = completed v ∨ ∃ c, v.enc.phase = .running ∧ encStepFault v = some c ∧ t = { v with fault := c }) := by
  induction fuel generalizing s with
  | zero =>
    simp only [encRunLoop, Host.Outcome.next.injEq] at h
    exact ⟨s, .refl, .inl h.symm⟩
  | succ fuel ih =>
    unfold encRunLoop at h
    split at h
    · rename_i hp
      split at h
      · rename_i c hc
        simp only [raiseFault, Host.Outcome.next.injEq] at h
        exact ⟨s, .refl, .inr ⟨c, hp, hc, h.symm⟩⟩
      · rename_i hc
        split at h
        · cases h
        · rename_i ho
          obtain ⟨v, hv, h'⟩ := ih h
          exact ⟨v, .step hp hc (by simpa using ho) hv, h'⟩
    · simp only [Host.Outcome.next.injEq] at h
      exact ⟨s, .refl, .inl h.symm⟩

theorem encRunLoop_refused {fuel : Nat} {s : State} {r : Refusal} (h : encRunLoop fuel s = .refused r) :
    r = .rasterOverlap ∧ ∃ v, Passes s v ∧ encStepFault v = none ∧ emits v = true ∧ chunkOverlaps v = true := by
  induction fuel generalizing s with
  | zero => simp [encRunLoop] at h
  | succ fuel ih =>
    unfold encRunLoop at h
    split at h
    · rename_i hp
      split at h
      · simp [raiseFault] at h
      · rename_i hc
        split at h
        · rename_i ho
          rw [Bool.and_eq_true] at ho
          cases h
          exact ⟨rfl, s, .refl, hc, ho.1, ho.2⟩
        · rename_i ho
          obtain ⟨e, v, hv, h'⟩ := ih h
          exact ⟨e, v, .step hp hc (by simpa using ho) hv, h'⟩
    · cases h

theorem encRunLoop_not_fault {fuel : Nat} {s : State} {r : Fault} : encRunLoop fuel s ≠ .fault r := by
  induction fuel generalizing s with
  | zero => simp [encRunLoop]
  | succ fuel ih =>
    unfold encRunLoop
    split
    · split
      · simp [raiseFault]
      · split
        · simp
        · exact ih
    · simp

theorem encRun_cases {s t : State} (h : exec .encRun s = .next t) :
    (∃ c, encInitFault s = some c ∧ t = { s with fault := c }) ∨
      (encInitFault s = none ∧ headerOverlaps s = false ∧
        ∃ v, Passes (encInitEffect s) v ∧
          (t = completed v ∨ ∃ c, v.enc.phase = .running ∧ encStepFault v = some c ∧ t = { v with fault := c })) := by
  simp only [exec, execEncRun] at h
  split at h
  · rename_i c hc
    simp only [raiseFault, Host.Outcome.next.injEq] at h
    exact .inl ⟨c, hc, h.symm⟩
  · rename_i hc
    split at h
    · cases h
    · rename_i ho
      exact .inr ⟨hc, by simpa using ho, encRunLoop_next h⟩

theorem Passes.frame {s v : State} (h : Passes s v) :
    v = { s with enc := { v.enc with curPixel := s.enc.curPixel }, mem := v.mem } := by
  induction h with
  | refl => rfl
  | @step s v _ _ _ _ ih =>
    have e := encStepEffect_frame s
    generalize encStepEffect s = u at *
    rw [ih, e]

theorem Passes.wf {s v : State} (h : Passes s v) (hs : s.mem.wf = true) : v.mem.wf = true := by
  induction h with
  | refl => exact hs
  | step _ _ _ _ ih => exact ih (encStepEffect_wf hs)

theorem Passes.memRead_of_not_inOutputRegion {s v : State} (h : Passes s v) {a : Word} (ha : ¬ inOutputRegion s a) :
    memRead v a = memRead s a := by
  induction h with
  | refl => rfl
  | step _ hf _ _ ih =>
    rw [ih, memRead_encStepEffect_of_ne]
    · rintro he rfl
      exact ha ⟨_, emits_room he hf, by simp⟩
    · simpa [inOutputRegion] using ha

theorem Passes.memRead_of_inRasterRegion {s v : State} (h : Passes s v) {a : Word} (ha : inRasterRegion s a) :
    memRead v a = memRead s a := by
  induction h with
  | refl => rfl
  | @step s v _ _ ho _ ih =>
    rw [ih, memRead_encStepEffect_of_ne]
    · rintro he rfl
      rw [he, (chunkOverlaps_iff s).2 ha] at ho
      cases ho
    · exact (inRasterRegion_congr (by simp) (by simp) (by simp) _).2 ha

/-- A pass does the same whether or not STATUS.INVALID_FORMAT has been cleared. -/
theorem encStepEffect_completed (s : State) : encStepEffect (completed s) = completed (encStepEffect s) := by
  have hc : ∀ u, (completed u).cursorAtEnd = u.cursorAtEnd := fun _ => rfl
  have e1 : ∀ u : State, closeIfAtEnd (completed u) = completed (closeIfAtEnd u) := by
    intro u
    unfold closeIfAtEnd
    rw [hc]
    split <;> rfl
  have e2 : emitChunk (completed s) = completed (emitChunk s) := by
    unfold emitChunk
    rw [encPass_completed, show (completed s).cursorLin = s.cursorLin from rfl]
    rfl
  unfold encStepEffect
  rw [hc, e1, e2, e1, completed_enc]
  split
  · rfl
  · rfl
  · split <;> rfl

/-- A pass of the loop is an ENC_STEP. -/
theorem exec_encStep_completed {s : State} (hf : encStepFault s = none) (ho : (emits s && chunkOverlaps s) = false) :
    exec .encStep (completed s) = .next (completed (encStepEffect s)) := by
  have e1 : encStepFault (completed s) = encStepFault s := rfl
  have e2 : emits (completed s) = emits s := rfl
  have e3 : chunkOverlaps (completed s) = chunkOverlaps s := rfl
  simp only [exec, execEncStep, e1, e2, e3, hf, ho, encStepEffect_completed]
  rfl

theorem Passes.encSteps {s v : State} (h : Passes s v) : ∃ k, encSteps k (completed s) (completed v) := by
  induction h with
  | refl => exact ⟨0, rfl⟩
  | step _ hf ho _ ih =>
    obtain ⟨k, hk⟩ := ih
    exact ⟨k + 1, _, exec_encStep_completed hf ho, hk⟩

end Sys2Proof.Machine
end

