-- ==== Sys2Proof/Laws/PerInstr.lean ====
section
/-! SUPPORT. Facts about every instruction as syntax, one lemma for each constructor: the encoded form has the fixed bits of its row of
spec/opcode_table.json. -/

namespace Sys2Proof

/-- An encoded form as the number whose bits the table's mask and match select: the header as one big-endian 48-bit value. -/
def Code.number : Code → Nat
  | .chunk b => b.toNat
  | .header b0 b1 b2 b3 b4 b5 => (b0 ++ b1 ++ b2 ++ b3 ++ b4 ++ b5).toNat
  | .command w => w.toNat

/-- The mask and the match of an instruction's row in spec/opcode_table.json. -/
def Instr.tableRow : Instr → Nat × Nat
  | .long _ _ => (0x80, 0x00)
  | .uncomp _ => (0xC0, 0x80)
  | .short _ _ _ => (0xC0, 0xC0)
  | .header _ _ _ => (0xFFFE00000000, 0xFEEC00000000)
  | .curReset => (0xFFFFFFFF, 0x00000001)
  | .curRead => (0xFFFFFFFF, 0x00000002)
  | .encInit => (0xFFFFFFFF, 0x00000010)
  | .encStep => (0xFFFFFFFF, 0x00000011)
  | .encRun => (0xFFFFFFFF, 0x00000012)
  | .decInit => (0xFFFFFFFF, 0x00000020)
  | .decPixel => (0xFFFFFFFF, 0x00000021)

end Sys2Proof

namespace Sys2Proof.Laws.TableRow

/-- The encoded form has the row's fixed bits. -/
def Statement (i : Instr) : Prop := (encode i).number &&& i.tableRow.1 = i.tableRow.2

theorem long (c : Bit) (n : Nat) : Statement (.long c n) := by
  have h : ∀ (c : Bit) (k : BitVec 6), (0#1 ++ c ++ k : Byte).toNat &&& 0x80 = 0x00 := by decide
  exact h c _

theorem uncomp (p : BitVec 6) : Statement (.uncomp p) := by
  have h : ∀ p : BitVec 6, (uncompByte p).toNat &&& 0xC0 = 0x80 := by decide
  exact h p

theorem short (c : Bit) (r1 r2 : Nat) : Statement (.short c r1 r2) := by
  have h : ∀ (c : Bit) (k : BitVec 3) (f : BitVec 2), (3#2 ++ c ++ k ++ f : Byte).toNat &&& 0xC0 = 0xC0 := by decide
  exact h c _ _

/-- The width and height bytes lie below the mask. -/
theorem header_low_bytes (c : Bit) (v : BitVec 32) : (Config.magic0 ++ headerByte1 c ++ v).toNat &&& 0xFFFE00000000 = 0xFEEC00000000 := by
  have hm : (0xFFFE00000000 : Nat) = (0xFFFE#16 ++ 0#32).toNat := by decide
  have hr : (0xFEEC00000000 : Nat) = (0xFEEC#16 ++ 0#32).toNat := by decide
  have hc : ∀ c : Bit, (Config.magic0 ++ headerByte1 c) &&& 0xFFFE#16 = 0xFEEC#16 := by decide
  rw [hm, hr, ← BitVec.toNat_and, BitVec.and_append, hc, BitVec.and_zero]

theorem header (c0 : Bit) (w h : Half) : Statement (.header c0 w h) := by
  have e : (encode (.header c0 w h)).number =
      (Config.magic0 ++ headerByte1 c0 ++ (lowByte w ++ highByte w ++ lowByte h ++ highByte h)).toNat := by
    simp only [encode, Code.number, append_toNat]
    omega
  rw [Statement, e]
  exact header_low_bytes c0 _

theorem curReset : Statement .curReset := rfl
theorem curRead : Statement .curRead := rfl
theorem encInit : Statement .encInit := rfl
theorem encStep : Statement .encStep := rfl
theorem encRun : Statement .encRun := rfl
theorem decInit : Statement .decInit := rfl
theorem decPixel : Statement .decPixel := rfl

end Sys2Proof.Laws.TableRow
end

