-- ==== Sys2Proof/Laws/Platform.lean ====
section
/-! SUPPORT. The cores of a platform: how many there are, and what a step of one of them does (spec/00_scope.md R4, 60_exceptions.md R238). -/

namespace Sys2Proof.Machine

/-- A platform has at least one core (R4). -/
theorem Platform.instances_pos (p : Platform) : 1 ≤ p.instances := by
  simp [Platform.instances, Platform.cores]

@[simp] theorem Platform.powerOn_instances (extra : Nat) : (Platform.powerOn extra).instances = extra + 1 := by
  simp [Platform.instances, Platform.cores, Platform.powerOn]

@[simp] theorem Platform.setCore_cores (k : Nat) (s : State) (p : Platform) : (p.setCore k s).cores = p.cores.set k s := by
  cases k <;> rfl

@[simp] theorem Platform.setCore_mem (k : Nat) (s : State) (p : Platform) : (p.setCore k s).mem = p.mem := by
  cases k <;> rfl

@[simp] theorem Platform.cores_withMem (p : Platform) (m : Memory) : ({ p with mem := m } : Platform).cores = p.cores := rfl

/-- A platform's step is that core's own step over the shared memory, or nothing where no core has the number. -/
theorem platformStep_cases {p q : Platform} {k : Nat} (h : platformStep k p = .next q) :
    (p.cores[k]? = none ∧ q = p) ∨
      ∃ s t, p.cores[k]? = some s ∧ step (withMemory p.mem s) = .next t ∧
        q = { p.setCore k (withMemory [] t) with mem := t.mem } := by
  unfold platformStep at h
  split at h
  · rename_i hk
    cases h
    exact .inl ⟨hk, rfl⟩
  · rename_i s hk
    split at h
    · rename_i t ht
      cases h
      exact .inr ⟨s, t, hk, ht, rfl⟩
    · cases h
    · cases h

end Sys2Proof.Machine
end

