-- ==== Sys2Proof/Laws/Regions.lean ====
section
/-! SUPPORT. The encoder over two memories that agree on the raster region: its commands do the same, and write the same bytes
(spec/20_memory.md R61, R67, R68). -/

namespace Sys2Proof.Machine

/-! ### The same writes on two memories -/

theorem sameWrites_refl (m n : Memory) : sameWrites m n m n := fun _ => .inr ⟨rfl, rfl⟩

theorem sameWrites.trans {m n m1 n1 m2 n2 : Memory} (h : sameWrites m n m1 n1) (h' : sameWrites m1 n1 m2 n2) :
    sameWrites m n m2 n2 := by
  intro a
  rcases h' a with e | ⟨e1, e2⟩
  · exact .inl e
  · rw [e1, e2]
    exact h a

theorem sameWrites_write {m n : Memory} (a : Word) (v : Byte) (hm : m.wf = true) (hn : n.wf = true) :
    sameWrites m n (m.write a.toNat v) (n.write a.toNat v) := by
  intro b
  by_cases h : b = a
  · subst h
    exact .inl ((Memory.read_write_self _ v hn).trans (Memory.read_write_self _ v hm).symm)
  · have e : b.toNat ≠ a.toNat := fun e => h (BitVec.eq_of_toNat_eq e)
    exact .inr ⟨Memory.read_write_of_ne _ v e, Memory.read_write_of_ne _ v e⟩

/-- Memories that agree at an address still do after the same writes. -/
theorem sameWrites.agree {m n m' n' : Memory} (h : sameWrites m n m' n') {a : Word} (ha : n.read a.toNat = m.read a.toNat) :
    n'.read a.toNat = m'.read a.toNat := by
  rcases h a with e | ⟨e1, e2⟩
  · exact e
  · rw [e1, e2, ha]

theorem sameWrites_writeBytes {base : Word} {k : Nat} {bs : List Byte} {s : State} {n : Memory} (hm : s.mem.wf = true)
    (hn : n.wf = true) :
    ∃ n', writeBytes base k bs { s with mem := n } = { writeBytes base k bs s with mem := n' } ∧
      sameWrites s.mem n (writeBytes base k bs s).mem n' ∧ n'.wf = true := by
  induction bs generalizing k s n with
  | nil => exact ⟨n, rfl, sameWrites_refl _ _, hn⟩
  | cons b bs ih =>
    obtain ⟨n', e, hs, hw⟩ := ih (k := k + 1) (s := memWrite (byteAddr base k) b s) (n := n.write (byteAddr base k).toNat b)
      (memWrite_wf _ b hm) (Memory.wf_write _ b hn)
    exact ⟨n', e, (sameWrites_write _ b hm hn).trans hs, hw⟩

/-! ### The encoder on two memories -/

/-- `n` holds what `s.mem` holds in the raster region. -/
def sameRaster (s : State) (n : Memory) : Prop :=
  ∀ a, inRasterRegion s a → memRead { s with mem := n } a = memRead s a

theorem sameRaster.pix_eq {s : State} {n : Memory} (hg : geometryOk s) (h : sameRaster s n) (i : Nat) :
    pix { s with mem := n } i = pix s i :=
  pix_congr (s := s) (t := { s with mem := n }) rfl rfl rfl (fun _ _ hx hy => h _ (pixelAddr_inRasterRegion hg hx hy)) i

theorem sameRaster.encPass_eq {s : State} {n : Memory} (hg : geometryOk s) (h : sameRaster s n) (i : Nat) :
    encPass { s with mem := n } i = encPass s i :=
  encPass_congr (s := s) (t := { s with mem := n }) (N_congr rfl) (h.pix_eq hg) i

theorem encInitEffect_sameWrites {s : State} {n : Memory} (hm : s.mem.wf = true) (hn : n.wf = true) (hg : geometryOk s)
    (h : sameRaster s n) :
    ∃ n', encInitEffect { s with mem := n } = { encInitEffect s with mem := n' } ∧
      sameWrites s.mem n (encInitEffect s).mem n' ∧ n'.wf = true := by
  have e : headerBytes { s with mem := n } = headerBytes s := by
    have hp : pixelAt { s with mem := n } 0 0 = pixelAt s 0 0 := by
      rw [← pix_zero hg, ← pix_zero (s := { s with mem := n }) hg, h.pix_eq hg]
    simp only [headerBytes, hp]
    rfl
  unfold encInitEffect
  rw [e]
  exact sameWrites_writeBytes (s := { s with enc := { s.enc.atOrigin with outLen := BitVec.ofNat 32 Config.headerLen, phase := .running } })
    hm hn

theorem emitChunk_sameWrites {s : State} {n : Memory} (hm : s.mem.wf = true) (hn : n.wf = true) (hg : geometryOk s)
    (h : sameRaster s n) :
    ∃ n', emitChunk { s with mem := n } = { emitChunk s with mem := n' } ∧
      sameWrites s.mem n (emitChunk s).mem n' ∧ n'.wf = true := by
  refine ⟨n.write (chunkAddr s).toNat (encPass s s.cursorLin).1, ?_, sameWrites_write _ _ hm hn, Memory.wf_write _ _ hn⟩
  unfold emitChunk
  rw [show ({ s with mem := n } : State).cursorLin = s.cursorLin from rfl, h.encPass_eq hg]
  rfl

theorem closeIfAtEnd_withMem (s : State) (n : Memory) :
    closeIfAtEnd { s with mem := n } = { closeIfAtEnd s with mem := n } := by
  unfold closeIfAtEnd
  rw [show ({ s with mem := n } : State).cursorAtEnd = s.cursorAtEnd from rfl]
  split <;> rfl

theorem encStepEffect_sameWrites {s : State} {n : Memory} (hm : s.mem.wf = true) (hn : n.wf = true) (hg : geometryOk s)
    (h : sameRaster s n) :
    ∃ n', encStepEffect { s with mem := n } = { encStepEffect s with mem := n' } ∧
      sameWrites s.mem n (encStepEffect s).mem n' ∧ n'.wf = true := by
  cases he : emits s with
  | true =>
    obtain ⟨n', e, hs, hw⟩ := emitChunk_sameWrites hm hn hg h
    refine ⟨n', ?_, ?_, hw⟩
    · rw [encStepEffect_emits (s := { s with mem := n }) he, encStepEffect_emits he, e, closeIfAtEnd_withMem]
    · rw [encStepEffect_emits he, closeIfAtEnd_mem]
      exact hs
  | false =>
    refine ⟨n, ?_, ?_, hn⟩
    · unfold encStepEffect
      cases hp : s.enc.phase with
      | idle => rfl
      | done => rfl
      | running =>
        have hc : s.cursorAtEnd = true := by simpa [emits, hp] using he
        have hc' : ({ s with mem := n } : State).cursorAtEnd = true := hc
        simp only [hc, hc', if_true]
        exact closeIfAtEnd_withMem s n
    · rw [encStepEffect_mem_of_not_emits he]
      exact sameWrites_refl _ _

/-- The loop of ENC_RUN performs the same passes on both memories. -/
theorem encRunLoop_sameWrites {fuel : Nat} {s t : State} {n : Memory} (hm : s.mem.wf = true) (hn : n.wf = true)
    (hg : geometryOk s) (h : sameRaster s n) (ht : encRunLoop fuel s = .next t) :
    ∃ n', encRunLoop fuel { s with mem := n } = .next { t with mem := n' } ∧ sameWrites s.mem n t.mem n' := by
  induction fuel generalizing s n with
  | zero =>
    simp only [encRunLoop, Host.Outcome.next.injEq] at ht
    subst ht
    exact ⟨n, rfl, sameWrites_refl _ _⟩
  | succ fuel ih =>
    have e1 : ({ s with mem := n } : State).enc = s.enc := rfl
    have e2 : encStepFault { s with mem := n } = encStepFault s := rfl
    have e3 : emits { s with mem := n } = emits s := rfl
    have e4 : chunkOverlaps { s with mem := n } = chunkOverlaps s := rfl
    unfold encRunLoop at ht ⊢
    rw [e1, e2, e3, e4]
    split at ht
    · rename_i hp
      rw [if_pos hp]
      split at ht
      · rename_i c hc
        simp only [raiseFault, Host.Outcome.next.injEq] at ht
        subst ht
        exact ⟨n, rfl, sameWrites_refl _ _⟩
      · rename_i hc
        split at ht
        · cases ht
        · rename_i ho
          obtain ⟨n1, e, hs, hw⟩ := encStepEffect_sameWrites hm hn hg h
          have hf := encStepEffect_frame s
          have hr : sameRaster (encStepEffect s) n1 := by
            intro a ha
            exact hs.agree (h a ((inRasterRegion_congr (by rw [hf]) (by rw [hf]) (by rw [hf]) a).1 ha))
          have hg' : geometryOk (encStepEffect s) := by
            rw [hf]
            exact hg
          obtain ⟨n', e', hs'⟩ := ih (encStepEffect_wf hm) hw hg' hr ht
          refine ⟨n', ?_, hs.trans hs'⟩
          simp only [if_neg ho, e]
          exact e'
    · rename_i hp
      simp only [Host.Outcome.next.injEq] at ht
      subst ht
      exact ⟨n, by rw [if_neg hp]; rfl, sameWrites_refl _ _⟩

end Sys2Proof.Machine
end

