-- ==== Sys2Proof/Laws/Session.lean ====
section
/-! SUPPORT. An encoding session: what holds after ENC_INIT and after each pass, and how ENC_RUN's loop ends
(spec/41_encoder.md R152 to R154, R162). -/

namespace Sys2Proof.Machine

/-- The raster position at which pass `k` of a session on `s` starts. -/
def passStart (s : State) : Nat → Nat
  | 0 => 0
  | k + 1 => (encPass s (passStart s k)).2

/-- `s` is the state after `k` passes of the session that ENC_INIT starts on `s0`. -/
structure Session (s0 s : State) (k : Nat) : Prop where
  frame : s = { s0 with enc := { s.enc with curPixel := s0.enc.curPixel }, mem := s.mem }
  geometry : geometryOk s0
  wf : s.mem.wf = true
  outLen : s.enc.outLen.toNat = 6 + k
  room : 6 + k ≤ s0.outCap.toNat
  before : ∀ j < k, passStart s0 j < s0.N
  inside : passStart s0 k ≤ s0.N
  position : s.cursorLin = passStart s0 k
  column : s.enc.x.toNat < s0.W
  running : passStart s0 k < s0.N → s.enc.y.toNat < s0.H ∧ s.enc.phase = .running
  ended : passStart s0 k = s0.N → s.enc.phase = .done ∧ s.enc.x = 0#16 ∧ s.enc.y = s0.heightField
  raster : ∀ a, inRasterRegion s0 a → memRead s a = memRead s0 a
  outside : ∀ a, ¬ inOutputRegion s0 a → memRead s a = memRead s0 a
  header : ∀ j (h : j < 6), memRead s (s0.outBase + BitVec.ofNat 32 j) = (headerBytes s0)[j]'(by simpa [headerBytes] using h)
  chunks : ∀ j < k, memRead s (s0.outBase + BitVec.ofNat 32 (6 + j)) = (encPass s0 (passStart s0 j)).1

namespace Session

variable {s0 s : State} {k : Nat}

theorem registers (h : Session s0 s k) :
    s.outBase = s0.outBase ∧ s.outCap = s0.outCap ∧ s.rasterBase = s0.rasterBase ∧ s.rasterDim = s0.rasterDim ∧
      s.rasterPitch = s0.rasterPitch ∧ s.fault = s0.fault ∧ s.invalidFormat = s0.invalidFormat := by
  rw [h.frame]
  simp

theorem sizes (h : Session s0 s k) : s.N = s0.N ∧ s.W = s0.W ∧ s.H = s0.H :=
  ⟨N_congr h.registers.2.2.2.1, W_congr h.registers.2.2.2.1, H_congr h.registers.2.2.2.1⟩

theorem inRaster_iff (h : Session s0 s k) (a : Word) : inRasterRegion s a ↔ inRasterRegion s0 a :=
  inRasterRegion_congr h.registers.2.2.1 h.registers.2.2.2.1 h.registers.2.2.2.2.1 a

/-- The session does not change the raster's pixels. -/
theorem pix_eq (h : Session s0 s k) (i : Nat) : pix s i = pix s0 i :=
  pix_congr h.registers.2.2.1 h.registers.2.2.2.1 h.registers.2.2.2.2.1
    (fun _ _ hx hy => h.raster _ (pixelAddr_inRasterRegion h.geometry hx hy)) i

theorem encPass_eq (h : Session s0 s k) (i : Nat) : encPass s i = encPass s0 i :=
  encPass_congr h.sizes.1 h.pix_eq i

/-- The next chunk's address. -/
theorem chunk_address (h : Session s0 s k) : s.outBase + s.enc.outLen = s0.outBase + BitVec.ofNat 32 (6 + k) := by
  rw [h.registers.1, ← h.outLen]
  simp

/-- A pass is due until the session's position reaches the end. -/
theorem emits (h : Session s0 s k) (hi : passStart s0 k < s0.N) : Machine.emits s = true := by
  have hr := h.running hi
  have hx := h.column
  have hs := h.sizes
  exact (emits_iff s).2 ⟨hr.2, by rw [hs.2.2]; exact hr.1, by rw [hs.2.1]; omega⟩

end Session

/-- ENC_INIT starts a session. -/
theorem session_encInit {s : State} (hwf : s.mem.wf = true) (hg : geometryOk s) (hc : 6 ≤ s.outCap.toNat)
    (ho : headerOverlaps s = false) : Session s (encInitEffect s) 0 where
  frame := by
    have e := encInitEffect_frame s
    generalize encInitEffect s = u at *
    rw [e]
  geometry := hg
  wf := encInitEffect_wf hwf
  outLen := by simp
  room := by simpa using hc
  before := fun j hj => by omega
  inside := Nat.zero_le _
  position := by simp [State.cursorLin, passStart]
  column := by simp; exact hg.1
  running := fun _ => ⟨by simp; exact hg.2.1, by simp⟩
  ended := fun e => by
    have := N_pos hg
    simp only [passStart] at e
    omega
  raster := fun a ha => by
    apply memRead_encInitEffect_of_ne
    rintro k hk rfl
    rw [(headerOverlaps_iff s).2 ⟨k, hk, ha⟩] at ho
    cases ho
  outside := fun a ha => by
    apply memRead_encInitEffect_of_ne
    rintro k hk rfl
    exact ha ⟨k, by omega, rfl⟩
  header := fun j hj => memRead_encInitEffect hwf j hj
  chunks := fun j hj => by omega

/-- A pass with room and clear of the raster continues it. -/
theorem session_pass {s0 s : State} {k : Nat} (h : Session s0 s k) (hi : passStart s0 k < s0.N)
    (hl : s.enc.outLen.toNat < s.outCap.toNat) (ho : chunkOverlaps s = false) : Session s0 (encStepEffect s) (k + 1) := by
  obtain ⟨f1, f2, -⟩ := h.registers
  obtain ⟨n1, n2, n3⟩ := h.sizes
  obtain ⟨hy, hph⟩ := h.running hi
  have hx := h.column
  have hcap := s.outCap.isLt
  have hlen := h.outLen
  have haddr := h.chunk_address
  have hn := encPass_next_bounds hi
  have hfr := encStepEffect_frame s
  have hwf := encStepEffect_wf h.wf
  rw [encStepEffect_emits (h.emits hi)] at hfr hwf ⊢
  obtain ⟨c1, c2, c3, c4⟩ := emitChunk_cursor (s := s) (by rw [n2]; exact hx) (by rw [n3]; exact hy)
  rw [h.position, h.encPass_eq] at c1 c2 c3 c4
  rw [n2] at c1 c2
  rw [n1] at c4
  have hW0 : 0 < s0.W := by omega
  have hnext : passStart s0 (k + 1) = (encPass s0 (passStart s0 k)).2 := rfl
  have rd : ∀ a, memRead (closeIfAtEnd (emitChunk s)) a = memRead (emitChunk s) a := closeIfAtEnd_mem' _
  have ne : ∀ j, j < 6 + k → s0.outBase + BitVec.ofNat 32 j ≠ s.outBase + s.enc.outLen := by
    intro j hj e
    rw [haddr] at e
    have := byteAddr_injective (base := s0.outBase) (by omega) (by omega) e
    omega
  refine ⟨?_, h.geometry, hwf, ?_, ?_, ?_, hn.2, ?_, ?_, ?_, ?_, ?_, ?_, ?_, ?_⟩
  · have hcp : s.enc.curPixel = s0.enc.curPixel := by rw [h.frame]
    have hf := h.frame
    generalize closeIfAtEnd (emitChunk s) = u at *
    rw [hfr, hf]
  · simp only [closeIfAtEnd_enc, emitChunk_enc, BitVec.toNat_add]
    simp
    omega
  · rw [f2] at hl
    omega
  · intro j hj
    rcases Nat.lt_or_ge j k with hjk | hjk
    · exact h.before j hjk
    · rw [show j = k by omega]
      exact hi
  · rw [hnext, ← c3]
    simp only [State.cursorLin, closeIfAtEnd_enc]
    rw [W_congr (closeIfAtEnd_rasterDim _)]
  · simp only [closeIfAtEnd_enc, c1]
    exact Nat.mod_lt _ hW0
  · intro hlt
    rw [hnext] at hlt
    have hne : ¬ (encPass s0 (passStart s0 k)).2 = s0.N := by omega
    simp only [closeIfAtEnd_enc, c2, c4]
    exact ⟨Nat.div_lt_of_lt_mul hlt, by simp [hne, emitChunk_enc, hph]⟩
  · intro heq
    rw [hnext] at heq
    simp only [closeIfAtEnd_enc, c4, heq]
    refine ⟨by simp, BitVec.eq_of_toNat_eq ?_, BitVec.eq_of_toNat_eq ?_⟩
    · rw [c1, heq]
      simp [State.N]
    · rw [c2, heq, State.N, Nat.mul_div_cancel_left _ hW0]
      rfl
  · intro a ha
    rw [rd, memRead_emitChunk_of_ne, h.raster a ha]
    rintro rfl
    rw [(chunkOverlaps_iff s).2 ((h.inRaster_iff _).2 ha)] at ho
    cases ho
  · intro a ha
    rw [rd, memRead_emitChunk_of_ne, h.outside a ha]
    rintro rfl
    exact ha ⟨6 + k, by rw [f2] at hl; omega, haddr⟩
  · intro j hj
    rw [rd, memRead_emitChunk_of_ne (ne j (by omega)), h.header j hj]
  · intro j hj
    rw [rd]
    rcases Nat.lt_or_ge j k with hjk | hjk
    · rw [memRead_emitChunk_of_ne (ne _ (by omega)), h.chunks j hjk]
    · rw [show j = k by omega, ← haddr, memRead_emitChunk h.wf, h.position, h.encPass_eq]

/-- The three ways the loop of ENC_RUN ends from a session of `k` passes: DONE, no room for the next chunk, or the next chunk would be
written over the raster. -/
inductive LoopEnd (s0 s : State) (k : Nat) : Host.Outcome State Fault Refusal → Prop
  | done {u : State} {n : Nat} : Session s0 u (k + n) → passStart s0 (k + n) = s0.N →
      encSteps n (completed s) (completed u) → LoopEnd s0 s k (.next (completed u))
  | noRoom {u : State} {n : Nat} : Session s0 u (k + n) → passStart s0 (k + n) < s0.N →
      encSteps n (completed s) (completed u) → u.enc.outLen = u.outCap →
      LoopEnd s0 s k (.next { u with fault := .outOverflow })
  | overlap {u : State} {n : Nat} : Session s0 u (k + n) → passStart s0 (k + n) < s0.N → chunkOverlaps u = true →
      u.enc.outLen.toNat < u.outCap.toNat → LoopEnd s0 s k (.refused .rasterOverlap)

theorem session_loop {s0 : State} (fuel : Nat) (s : State) (k : Nat) (h : Session s0 s k) (hf : s0.N - passStart s0 k < fuel) :
    LoopEnd s0 s k (encRunLoop fuel s) := by
  induction fuel generalizing s k with
  | zero => omega
  | succ fuel ih =>
    rcases Nat.lt_or_ge (passStart s0 k) s0.N with hi | hi
    · have he := h.emits hi
      have hph := (h.running hi).2
      by_cases hl : s.enc.outLen.toNat < s.outCap.toNat
      · have hnf : encStepFault s = none := by
          simp [encStepFault, hph]
          intro
          omega
        cases ho : chunkOverlaps s with
        | true =>
          rw [show encRunLoop (fuel + 1) s = .refused .rasterOverlap by simp [encRunLoop, hph, hnf, he, ho]]
          exact .overlap (n := 0) h hi ho hl
        | false =>
          rw [show encRunLoop (fuel + 1) s = encRunLoop fuel (encStepEffect s) by simp [encRunLoop, hph, hnf, ho]]
          have hn := encPass_next_bounds hi
          have hstep := exec_encStep_completed hnf (by rw [ho, Bool.and_false])
          have hnext : passStart s0 (k + 1) = (encPass s0 (passStart s0 k)).2 := rfl
          have H := ih (encStepEffect s) (k + 1) (session_pass h hi hl ho) (by omega)
          have ad : ∀ n, k + 1 + n = k + (n + 1) := fun n => by omega
          generalize encRunLoop fuel (encStepEffect s) = o at H
          cases H with
          | done g hN hk => rw [ad] at g hN; exact .done g hN ⟨_, hstep, hk⟩
          | noRoom g hN hk hc => rw [ad] at g hN; exact .noRoom g hN ⟨_, hstep, hk⟩ hc
          | overlap g hN ho hl => rw [ad] at g hN; exact .overlap g hN ho hl
      · have hff : encStepFault s = some .outOverflow := by
          simp [encStepFault, hph, he]
          omega
        rw [show encRunLoop (fuel + 1) s = .next { s with fault := .outOverflow } by
          simp [encRunLoop, hph, hff, raiseFault]]
        refine .noRoom (n := 0) h hi rfl (BitVec.eq_of_toNat_eq ?_)
        have := h.outLen
        have := h.room
        rw [h.registers.2.1] at *
        omega
    · have hN : passStart s0 k = s0.N := Nat.le_antisymm h.inside hi
      rw [show encRunLoop (fuel + 1) s = .next (completed s) by simp [encRunLoop, (h.ended hN).1]]
      exact .done (n := 0) h hN rfl

/-- How ENC_RUN ends once ENC_INIT has succeeded. -/
theorem encRun_loopEnd {s : State} (hwf : s.mem.wf = true) (hg : geometryOk s) (hc : 6 ≤ s.outCap.toNat)
    (ho : headerOverlaps s = false) : LoopEnd s (encInitEffect s) 0 (exec .encRun s) := by
  have e : exec .encRun s = encRunLoop (s.N + 1) (encInitEffect s) := by
    simp [exec, execEncRun, encInitFault_of_ok hg hc, ho]
  rw [e]
  exact session_loop _ _ _ (session_encInit hwf hg hc ho) (by simp only [passStart]; omega)

/-- An ENC_RUN without a fault is a whole session. -/
theorem encRun_session {s t : State} (hwf : s.mem.wf = true) (h : exec .encRun s = .next t) (ht : t.fault = .none) :
    geometryOk s ∧ 6 ≤ s.outCap.toNat ∧ headerOverlaps s = false ∧
      ∃ u k, Session s u k ∧ passStart s k = s.N ∧ encSteps k (completed (encInitEffect s)) (completed u) ∧ t = completed u := by
  rcases encRun_cases h with ⟨c, hc, rfl⟩ | ⟨hf, ho, -⟩
  · rcases encInitFault_cases hc with ⟨rfl, -⟩ | ⟨rfl, -⟩ <;> cases ht
  · obtain ⟨hg, hc⟩ := encInitFault_eq_none hf
    refine ⟨hg, hc, ho, ?_⟩
    have H := encRun_loopEnd hwf hg hc ho
    rw [h] at H
    cases H with
    | @done u n g hN hk =>
      rw [Nat.zero_add] at g hN
      exact ⟨u, n, g, hN, hk, rfl⟩
    | noRoom => cases ht

end Sys2Proof.Machine
end

