-- ==== Sys2Proof/Laws/Step.lean ====
section
/-! SUPPORT. What a step of the machine can do: the host's accesses by cases, the commands a CMD write can hold, and two facts of every
step: it keeps memory's canonical form and STATUS.BUSY (spec/10_state.md R22 to R31, 60_exceptions.md R227). -/

namespace Sys2Proof.Machine

/-- A command word decodes to one of the seven commands (30_encoding.md R96). -/
theorem decode_command_cases {w : Word} {i : Instr} (h : decode (.command w) = .ok i) :
    (w = 0x01#32 ∧ i = .curReset) ∨ (w = 0x02#32 ∧ i = .curRead) ∨ (w = 0x10#32 ∧ i = .encInit) ∨
      (w = 0x11#32 ∧ i = .encStep) ∨ (w = 0x12#32 ∧ i = .encRun) ∨ (w = 0x20#32 ∧ i = .decInit) ∨
      (w = 0x21#32 ∧ i = .decPixel) := by
  simp only [decode, decodeCommand] at h
  split at h
  · cases h
  iterate 7
    split at h
    · rename_i e
      cases h
      simp [e]
  cases h

theorem step_cases {s t : State} (h : step s = .next t) :
    (s.host.pending = [] ∧ t = s) ∨
      ∃ a rest, s.host.pending = a :: rest ∧ perform a (popHost rest s) = .next t := by
  simp only [step, stepHost] at h
  split at h
  · rename_i hp
    cases h
    exact .inl ⟨hp, rfl⟩
  · rename_i a rest hp
    exact .inr ⟨a, rest, hp, h⟩

theorem step_of_pending {s : State} {a : HostAccess} {rest : List HostAccess} (h : s.host.pending = a :: rest) :
    step s = perform a (popHost rest s) := by
  simp [step, stepHost, h]

theorem hostRead_cases {off bytes : Nat} {s t : State} (h : hostRead off bytes s = .next t) :
    t = { s with host := { s.host with lastRead := some (readReg s (regAt (off / 4))) } } := by
  unfold hostRead at h
  split at h
  · cases h
  split at h
  · cases h
  · cases h
    rfl

theorem hostWrite_cases {off bytes : Nat} {v : Word} {s t : State} (h : hostWrite off bytes v s = .next t) :
    (s.busy = true ∧ writeWhileBusy s = .next t) ∨ (s.busy = false ∧ writeReg (regAt (off / 4)) v s = .next t) := by
  unfold hostWrite at h
  split at h
  · cases h
  split at h
  · cases h
  split at h
  · rename_i hb
    exact .inl ⟨hb, h⟩
  · rename_i hb
    exact .inr ⟨by simpa using hb, h⟩

theorem writeWhileBusy_cases {s t : State} (h : writeWhileBusy s = .next t) :
    t = s ∨ (s.fault = .none ∧ t = { s with fault := .busyViolation }) := by
  unfold writeWhileBusy at h
  split at h
  · cases h
    exact .inl rfl
  · rename_i hf
    simp only [raiseFault, Host.Outcome.next.injEq] at h
    exact .inr ⟨by simpa using hf, h.symm⟩

theorem writeCmd_cases {v : Word} {s t : State} (h : writeCmd v s = .next t) :
    (s.fault ≠ .none ∧ t = s) ∨ (s.fault = .none ∧ t = { s with fault := .illegalCmd }) ∨
      (s.fault = .none ∧ ∃ i, decode (.command v) = .ok i ∧ exec i s = .next t) := by
  unfold writeCmd at h
  split at h
  · rename_i hf
    cases h
    exact .inl ⟨hf, rfl⟩
  · rename_i hf
    have hf' : s.fault = .none := by simpa using hf
    split at h
    · simp only [raiseFault, Host.Outcome.next.injEq] at h
      exact .inr (.inl ⟨hf', h.symm⟩)
    · rename_i i hi
      exact .inr (.inr ⟨hf', i, hi, h⟩)

/-- A write of a register other than CMD leaves the decoder, the results, memory and the host agent alone; of the encoder it
changes the phase and the cursor at most. -/
theorem writeReg_frame {r : Reg} {v : Word} {s t : State} (hr : r ≠ .cmd) (h : writeReg r v s = .next t) :
    t = { s with
      rasterBase := t.rasterBase, rasterDim := t.rasterDim, rasterPitch := t.rasterPitch, outBase := t.outBase,
      outCap := t.outCap, streamBase := t.streamBase, streamLen := t.streamLen,
      enc := { s.enc with x := t.enc.x, y := t.enc.y, phase := t.enc.phase } } := by
  cases r <;> first | exact absurd rfl hr | (cases h; rfl)

/-! ### Every step keeps memory's canonical form -/

theorem exec_keeps_memory_wf {i : Instr} {s t : State} (h : exec i s = .next t) (hs : s.mem.wf = true) : t.mem.wf = true := by
  cases i with
  | long | uncomp | short | curReset => cases h; exact hs
  | header c w hh => rcases header_cases h with ⟨rfl, -⟩ | ⟨d, rfl⟩ <;> exact hs
  | curRead =>
    cases h
    simpa using hs
  | encInit =>
    rcases encInit_cases h with ⟨c, -, rfl⟩ | ⟨-, -, rfl⟩
    · exact hs
    · exact encInitEffect_wf hs
  | encStep =>
    rcases encStep_cases h with ⟨c, -, rfl⟩ | ⟨-, -, rfl⟩
    · exact hs
    · exact encStepEffect_wf hs
  | encRun =>
    rcases encRun_cases h with ⟨c, -, rfl⟩ | ⟨-, -, v, hv, rfl | ⟨c, -, -, rfl⟩⟩
    · exact hs
    · exact hv.wf (encInitEffect_wf hs)
    · exact hv.wf (encInitEffect_wf hs)
  | decInit => rcases decInit_cases h with ⟨rfl, -⟩ | ⟨rfl, -⟩ | ⟨⟨d, rfl⟩, -⟩ <;> exact hs
  | decPixel =>
    rcases decPixel_cases h with ⟨c, -, rfl⟩ | ⟨-, rfl⟩
    · exact hs
    · simpa using hs

theorem perform_keeps_memory_wf {a : HostAccess} {s t : State} (h : perform a s = .next t) (hs : s.mem.wf = true) :
    t.mem.wf = true := by
  cases a with
  | regWrite off bytes v =>
    rcases hostWrite_cases h with ⟨-, h⟩ | ⟨-, h⟩
    · rcases writeWhileBusy_cases h with rfl | ⟨-, rfl⟩ <;> exact hs
    · by_cases hr : regAt (off / 4) = .cmd
      · rw [hr] at h
        rcases writeCmd_cases h with ⟨-, rfl⟩ | ⟨-, rfl⟩ | ⟨-, i, -, h⟩
        · exact hs
        · exact hs
        · exact exec_keeps_memory_wf h hs
      · rw [writeReg_frame hr h]
        exact hs
  | regRead off bytes => rw [hostRead_cases h]; exact hs
  | memWrite a v => cases h; exact memWrite_wf a v hs
  | reset => cases h; exact hs

theorem step_keeps_memory_wf {s t : State} (h : step s = .next t) (hs : s.mem.wf = true) : t.mem.wf = true := by
  rcases step_cases h with ⟨-, rfl⟩ | ⟨a, rest, -, h⟩
  · exact hs
  · exact perform_keeps_memory_wf h hs

/-! ### One induction for every run -/

/-- What one step keeps, a run keeps. -/
theorem run_keeps {P : State → Prop} (hstep : ∀ s t, P s → step s = .next t → P t) (k : Nat) {s t : State} (hs : P s)
    (h : core.run k s = .next t) : P t := by
  induction k generalizing s with
  | zero => cases h; exact hs
  | succ k ih =>
    simp only [Host.Core.run] at h
    split at h
    · rename_i u hu
      exact ih (hstep s u hs hu) h
    · cases h
    · cases h

/-- Memory keeps its canonical form in every run from reset. -/
theorem run_memory_wf (k : Nat) {t : State} (h : core.run k State.reset = .next t) : t.mem.wf = true :=
  run_keeps (P := fun s => s.mem.wf = true) (fun _ _ hs ht => step_keeps_memory_wf ht hs) k Memory.wf_nil h

end Sys2Proof.Machine
end

