-- ==== Sys2Proof/Tests/Slice0.lean ====
section
/-! SUPPORT. The model's own tests: the operand checks, decoded words written out from the spec's layouts, one-step tests with the values of
spec/95_test_vectors.md, and for every obligation with hypotheses a state that meets them. -/

namespace Sys2Proof.Tests

open Sys2Proof Sys2Proof.Machine

/-! ### Small states -/

/-- A raster of `w` by `h` pixels at 0x1000 and an output buffer of `cap` bytes at 0x2000. -/
def raster (w h pitch : Nat) (bytes : List Byte) (cap : Nat) : State :=
  writeBytes 0x1000#32 0 bytes
    { State.reset with
      rasterBase := 0x1000#32, rasterDim := BitVec.ofNat 32 (h * 65536 + w), rasterPitch := BitVec.ofNat 16 pitch,
      outBase := 0x2000#32, outCap := BitVec.ofNat 32 cap }

/-- A stream at 0x4000 with `len` readable bytes. -/
def stream (bytes : List Byte) (len : Nat) : State :=
  writeBytes 0x4000#32 0 bytes { State.reset with streamBase := 0x4000#32, streamLen := BitVec.ofNat 32 len }

/-- A Ready decoder of an 8 by 2 image that has loaded the chunk `b`, with `rest` behind it. -/
def loaded (b : Byte) (rest : List Byte) : State :=
  writeBytes 0x4000#32 7 rest
    { State.reset with
      dec := loadChunk b { DecState.reset with
        state := .ready, w := 8#16, h := 2#16, base := 0x4000#32, ptr := 7#32, limit := BitVec.ofNat 32 (7 + rest.length) } }

/-- A Ready decoder whose counters have run out, before the chunk `b`. -/
def before (b : Byte) : State :=
  writeBytes 0x4000#32 7 [b]
    { State.reset with
      dec := { DecState.reset with
        state := .ready, w := 8#16, h := 2#16, base := 0x4000#32, ptr := 7#32, limit := 8#32, chunk := 0xE7#8, color := 1#1 } }

/-- The state that an outcome goes on in, if it does. -/
def after : Host.Outcome State Fault Refusal → Option State
  | .next t => some t
  | .fault _ => none
  | .refused _ => none

/-- The outcome goes on in a state with the property. -/
def holds (o : Host.Outcome State Fault Refusal) (p : State → Bool) : Bool := (after o).any p

theorem next_of_holds {o : Host.Outcome State Fault Refusal} {p : State → Bool} (h : holds o p = true) :
    ∃ t, o = .next t ∧ p t = true := by
  cases o with
  | next t => exact ⟨t, rfl, by simpa [holds, after] using h⟩
  | fault r => simp [holds, after] at h
  | refused r => simp [holds, after] at h

/-- The outcome is a refusal for an overlap of output and raster. -/
def overlaps : Host.Outcome State Fault Refusal → Bool
  | .next _ => false
  | .fault _ => false
  | .refused r => decide (r = .rasterOverlap)

/-- The bytes from an address on. -/
def bytesAt (s : State) (a n : Nat) : List Byte := (List.range n).map fun k => s.mem.read (a + k)

/-! ### Operands out of range do not assemble (30_encoding.md R101) -/

theorem test_wf_long_bounds : [7, 8, 71, 72].map (fun n => (Instr.long 0#1 n).wf) = [false, true, true, false] := by decide
theorem test_wf_short_r1_bounds : [0, 1, 8, 9].map (fun r => (Instr.short 0#1 r 1).wf) = [false, true, true, false] := by decide
theorem test_wf_short_r2_bounds : [0, 1, 4, 5].map (fun r => (Instr.short 0#1 1 r).wf) = [false, true, true, false] := by decide

/-! ### Decoded words, written out from R91, R92, R93, R96 and R98 -/

theorem test_decode_long : decodeTableWord 8 0b01111111 = some (.long 1#1 71) := by decide
theorem test_decode_uncomp : decodeTableWord 8 0b10010101 = some (.uncomp 0b010101#6) := by decide
theorem test_decode_short : decodeTableWord 8 0b11101011 = some (.short 1#1 3 4) := by decide
/-- `HDR 300, 2, 1`: bytes FE ED 2C 01 02 00, the first the highest. -/
theorem test_decode_header : decodeTableWord 48 0xFEED2C010200 = some (.header 1#1 300#16 2#16) := by decide
theorem test_decode_header_first_byte_lowest : decodeTableWord 48 0x0002012CEDFE = some (.header 1#1 300#16 2#16) := by decide
theorem test_decode_curReset : decodeTableWord 32 0x00000001 = some .curReset := by decide
theorem test_decode_curRead : decodeTableWord 32 0x00000002 = some .curRead := by decide
theorem test_decode_encInit : decodeTableWord 32 0x00000010 = some .encInit := by decide
theorem test_decode_encStep : decodeTableWord 32 0x00000011 = some .encStep := by decide
theorem test_decode_encRun : decodeTableWord 32 0x00000012 = some .encRun := by decide
theorem test_decode_decInit : decodeTableWord 32 0x00000020 = some .decInit := by decide
theorem test_decode_decPixel : decodeTableWord 32 0x00000021 = some .decPixel := by decide
theorem test_decode_illegal : [0x00, 0x03, 0x22, 0xFF, 0x100, 0x113].map (decodeTableWord 32) = List.replicate 6 none := by decide

/-! ### One step each, with the values of 95_test_vectors.md -/

/-- V10: 0x08 loads a run of 16 of colour 0. -/
theorem test_long_loads : holds (exec (.long 0#1 16) State.reset) (fun t => decRunWord t.dec = 0x00080010#32) = true := by decide
/-- V9: an UNCOMP load leaves the colour alone. -/
theorem test_uncomp_loads : holds (exec (.uncomp 0b110000#6) { State.reset with dec := { DecState.reset with color := 1#1 } })
    (fun t => decRunWord t.dec = 0x00B01006#32) = true := by decide
/-- V9: 0xE7 loads 2 and 4 of colour 1. -/
theorem test_short_loads : holds (exec (.short 1#1 2 4) State.reset) (fun t => decRunWord t.dec = 0x00E71402#32) = true := by decide
/-- V9: a width of 0 exhausts the decoder at offset 6. -/
theorem test_header_empty : holds (exec (.header 1#1 5#16 0#16) (stream [] 6))
    (fun t => (statusWord t, decRunWord t.dec, t.dec.ptr) = (0x48#32, 0x2000#32, 6#32)) = true := by decide +kernel
/-- V3: the chunk byte at offset 6 loads. -/
theorem test_header_ready : holds (exec (.header 1#1 16#16 1#16) (stream [0xFE#8, 0xED#8, 0x10#8, 0x00#8, 0x01#8, 0x00#8, 0x08#8] 7))
    (fun t => (statusWord t, decRunWord t.dec, t.dec.ptr) = (0x44#32, 0x00082010#32, 7#32)) = true := by decide +kernel
/-- V5: the cursor (3,5) goes to (0,0). -/
theorem test_curReset : holds (exec .curReset { State.reset with enc := { EncState.reset with x := 3#16, y := 5#16 } })
    (fun t => readReg t .cursor = 0#32) = true := by decide
/-- V5: the last pixel of row 0, which is 0, then row 1. -/
theorem test_curRead_row_end : holds
    (exec .curRead { raster 10 2 3 [0xB3#8, 0xBF#8, 0xFF#8, 0x4C#8, 0x7F#8, 0xFF#8] 0 with enc := { EncState.reset with x := 9#16, curPixel := 1#1 } })
    (fun t => (readReg t .cursor, t.enc.curPixel) = (0x00010000#32, 0#1)) = true := by decide +kernel
/-- V5: the byte of pixel (8,0) lies past 0xFFFFFFFF, at 0. -/
theorem test_curRead_address_wraps : holds
    (exec .curRead { State.reset with
      rasterBase := 0xFFFFFFFF#32, rasterDim := 0x00010010#32, rasterPitch := 2#16, mem := [(0, 0x80#8)],
      enc := { EncState.reset with x := 8#16 } })
    (fun t => t.enc.curPixel = 1#1) = true := by decide +kernel
/-- V1: the header of a 16 by 1 raster of zeros. -/
theorem test_encInit_header : holds (exec .encInit (raster 16 1 2 [0#8, 0#8] 64))
    (fun t => (bytesAt t 0x2000 7, statusWord t, t.enc.outLen) = ([0xFE#8, 0xEC#8, 0x10#8, 0#8, 0x01#8, 0#8, 0#8], 0x10#32, 6#32)) = true := by
  decide +kernel
/-- V8: a pitch of 1 is too small for 10 pixels. -/
theorem test_encInit_pitch : holds (exec .encInit (raster 10 2 1 [] 64)) (fun t => statusWord t = 0x100#32) = true := by decide +kernel
/-- The second pass of V2: a tail UNCOMP with four sentinel zeros, 0x90. -/
theorem test_encStep_tail : holds
    (exec .encStep { raster 8 1 1 [0x55#8] 64 with enc := { EncState.reset with x := 6#16, outLen := 7#32, phase := .running } })
    (fun t => (bytesAt t 0x2007 1, readReg t .cursor, t.enc.phase, t.enc.outLen) = ([0x90#8], 0x00010000#32, .done, 8#32)) = true := by
  decide +kernel
/-- V8: ENC_STEP straight after reset. -/
theorem test_encStep_idle : holds (exec .encStep State.reset) (fun t => statusWord t = 0x640#32) = true := by decide +kernel
/-- P1: the padded 12 by 3 raster. -/
theorem test_encRun_P1 : holds
    (exec .encRun (raster 12 3 3 [0x00#8, 0x0F#8, 0xFF#8, 0x3F#8, 0x8F#8, 0xFF#8, 0x2C#8, 0xCF#8, 0xFF#8] 16))
    (fun t => (bytesAt t 0x2000 10, statusWord t) =
      ([0xFE#8, 0xEC#8, 0x0C#8, 0#8, 0x03#8, 0#8, 0x06#8, 0xFB#8, 0x96#8, 0x98#8], 0x60#32)) = true := by decide +kernel
/-- V8: ENC_RUN out of room keeps the header and two chunks. -/
theorem test_encRun_no_room : holds (exec .encRun (raster 20 1 3 [0x80#8, 0x1F#8, 0xF0#8] 8))
    (fun t => (bytesAt t 0x2000 9, statusWord t, readReg t .cursor) =
      ([0xFE#8, 0xED#8, 0x14#8, 0#8, 0x01#8, 0#8, 0xE3#8, 0xD7#8, 0#8], 0x210#32, 0xF#32)) = true := by decide +kernel
/-- V3: bad magic in a stream of one byte. -/
theorem test_decInit_bad_magic : holds (exec .decInit (stream [0x00#8] 1))
    (fun t => t = { stream [0x00#8] 1 with invalidFormat := true }) = true := by decide +kernel
/-- V9: a good header in a stream of five bytes. -/
theorem test_decInit_short_stream : holds (exec .decInit (stream [0xFE#8, 0xEC#8, 0x10#8, 0x00#8, 0x01#8] 5))
    (fun t => statusWord t = 0x340#32) = true := by decide +kernel
/-- V9: after 0xE7's first run, its second run has the other colour. -/
theorem test_decPixel_second_run : holds (exec .decPixel { loaded 0xE7#8 [] with dec := { (loaded 0xE7#8 []).dec with len := 0#7, x := 2#16 } })
    (fun t => (t.dec.pixel, t.dec.len2, readReg t .decCursor) = (0#1, 3#3, 3#32)) = true := by decide +kernel
/-- V9: the last pixel of its trace leaves the excess pixels of an UNCOMP. -/
theorem test_decPixel_last : holds (exec .decPixel { loaded 0xB0#8 [] with dec := { (loaded 0xB0#8 []).dec with len := 5#7, x := 7#16, y := 1#16 } })
    (fun t => (t.dec.pixel, t.dec.state, t.dec.len, readReg t .decCursor) = (1#1, .exhausted, 4#7, 0x00020000#32)) = true := by
  decide +kernel

/-! ### The host's accesses, and instructions placed where the next step runs them -/

theorem test_step_command : (State.reset.withFetchWord 32 0x11).host.pending = [.regWrite 0 4 0x11#32] := by decide
theorem test_step_runs_command : holds (step (State.reset.withFetchWord 32 0x11)) (fun t => statusWord t = 0x640#32) = true := by
  decide +kernel
theorem test_step_runs_chunk : holds (step (State.reset.withFetchWord 8 0xC0))
    (fun t => (t.dec.chunk, t.dec.pixel, t.dec.len, t.dec.len2, t.dec.ptr) = (0xC0#8, 0#1, 0#7, 1#3, 1#32)) = true := by decide +kernel
theorem test_step_runs_header : holds (step (State.reset.withFetchWord 48 0xFEEC00000000))
    (fun t => (t.dec.state, t.dec.ptr) = (.exhausted, 6#32)) = true := by decide +kernel
/-- P3: a CMD write while a fault is set is ignored. -/
theorem test_step_faulted : holds
    (step { State.reset with fault := .outOverflow, host := { pending := [.regWrite 0 4 0x01#32], lastRead := none } })
    (fun t => t = { State.reset with fault := .outOverflow }) = true := by decide +kernel
theorem test_step_refuses_byte_access : step { State.reset with host := { pending := [.regRead 4 1], lastRead := none } } =
    .refused (.registerAccess 4 1) := rfl
theorem test_step_outside_window : step { State.reset with host := { pending := [.regRead 0x60 4], lastRead := none } } =
    .fault (.outsideWindow 0x60) := rfl
/-- A written 0 is not listed, so equal memories are equal lists. -/
theorem test_memory_canonical : (Memory.write [(1, 0x55#8), (3, 0xAA#8)] 1 0#8, Memory.write [(3, 0xAA#8)] 1 0x55#8) =
    ([(3, 0xAA#8)], [(1, 0x55#8), (3, 0xAA#8)]) := by decide

/-! ### Witnesses: for each obligation with hypotheses, values that meet them, one for each clause -/

/-- The rasters of V7 and V4, by the branch that their first pass takes. -/
def longRaster : State := raster 16 1 2 [0#8, 0#8] 64
def uncompRaster : State := raster 8 1 1 [0x55#8] 64
def shortRaster : State := raster 12 1 2 [0x1E#8, 0x00#8] 64
def tailRaster : State := raster 8 1 1 [0x00#8] 64

theorem run_of_detect {s : State} {i r : Nat} (h : runDetect s i = r) : IsRun s i r := h ▸ runDetect_isRun s i

/-- A state in the middle of an encoding session. -/
def midSession (s : State) (x : Half) (len : Word) : State := { s with enc := { EncState.reset with x := x, outLen := len, phase := .running } }

theorem witness_DecodeEncodeRoundTrip :
    (Instr.long 1#1 71).wf = true ∧ (Instr.short 1#1 8 4).wf = true ∧ (Instr.uncomp 0#6).wf = true ∧
      (Instr.header 1#1 0#16 65535#16).wf = true ∧ Instr.encRun.wf = true := by decide
theorem witness_EncodeDecodeRoundTrip :
    decode (.chunk 0xFF#8) = .ok (.short 1#1 8 4) ∧ decode (.command 0x12#32) = .ok .encRun ∧
      decode (.header 0xFE#8 0xED#8 0#8 0#8 1#8 0#8) = .ok (.header 1#1 0#16 1#16) := ⟨rfl, rfl, rfl⟩
theorem witness_HeaderLayout :
    ((0xED#8 : Byte) &&& 0xFE#8 = 0xEC#8) ∧ ¬ ((0xEE#8 : Byte) &&& 0xFE#8 = 0xEC#8) := by decide
theorem witness_ChunkPixelCount :
    (0x7F#8 : Byte).getLsbD 7 = false ∧ ((0xBF#8 : Byte).getLsbD 7 = true ∧ (0xBF#8 : Byte).getLsbD 6 = false) ∧
      ((0xFF#8 : Byte).getLsbD 7 = true ∧ (0xFF#8 : Byte).getLsbD 6 = true) := by decide
theorem witness_IllegalCommandWords :
    State.reset.busy = false ∧ State.reset.fault = .none ∧ (0x113#32).toNat ∉ [0x01, 0x02, 0x10, 0x11, 0x12, 0x20, 0x21] ∧
      ({ State.reset with fault := .param } : State).fault ≠ .none := by decide
theorem witness_LongChunkLoads : (0x00#8 : Byte).getLsbD 7 = false ∧ (0x7F#8 : Byte).getLsbD 7 = false := by decide
theorem witness_UncompChunkLoads : (0x80#8 : Byte).getLsbD 7 = true ∧ (0x80#8 : Byte).getLsbD 6 = false := by decide
theorem witness_ShortChunkLoads : (0xFF#8 : Byte).getLsbD 7 = true ∧ (0xFF#8 : Byte).getLsbD 6 = true := by decide
theorem witness_HeaderInstructionOutcomes :
    (stream [] 6).streamLen.toNat ≤ 6 ∧ 7 ≤ (stream [] 7).streamLen.toNat ∧ (1#16 : Half) ≠ 0#16 := by decide

/-- One stream for each clause, in the obligation's order. -/
theorem witness_DecInitOutcomes :
    (stream [] 0).streamLen.toNat = 0 ∧ headByte (stream [0xFF#8] 1) 0 ≠ 0xFE#8 ∧
      (headByte (stream [0xFE#8] 1) 0 = 0xFE#8 ∧ (stream [0xFE#8] 1).streamLen.toNat = 1) ∧
      headByte (stream [0xFE#8, 0xEE#8] 2) 1 &&& 0xFE#8 ≠ 0xEC#8 ∧
      (headByte (stream [0xFE#8, 0xED#8] 5) 1 &&& 0xFE#8 = 0xEC#8 ∧ (stream [0xFE#8, 0xED#8] 5).streamLen.toNat = 5) ∧
      (headByte (stream [0xFE#8, 0xED#8, 0#8, 0#8, 1#8] 6) 2 = 0#8 ∧ headByte (stream [0xFE#8, 0xED#8, 0#8, 0#8, 1#8] 6) 3 = 0#8) ∧
      ((stream [0xFE#8, 0xED#8, 1#8, 0#8, 1#8] 6).streamLen.toNat = 6 ∧ headByte (stream [0xFE#8, 0xED#8, 1#8, 0#8, 1#8] 6) 2 = 1#8) ∧
      7 ≤ (stream [0xFE#8, 0xED#8, 1#8, 0#8, 1#8, 0#8, 0x80#8] 7).streamLen.toNat := by decide +kernel

theorem witness_LongPixelRule :
    (loaded 0x08#8 []).dec.state = .ready ∧ (loaded 0x08#8 []).dec.chunk.getLsbD 7 = false ∧ (loaded 0x08#8 []).dec.len.toNat = 16 := by
  decide +kernel
theorem witness_UncompPixelRule :
    (loaded 0x95#8 []).dec.state = .ready ∧ (loaded 0x95#8 []).dec.chunk.getLsbD 7 = true ∧
      (loaded 0x95#8 []).dec.chunk.getLsbD 6 = false ∧ (loaded 0x95#8 []).dec.len.toNat = 6 := by decide +kernel
theorem witness_ShortPixelRule :
    (loaded 0xCB#8 []).dec.state = .ready ∧ (loaded 0xCB#8 []).dec.chunk.getLsbD 7 = true ∧
      (loaded 0xCB#8 []).dec.chunk.getLsbD 6 = true ∧ (loaded 0xCB#8 []).dec.len.toNat = 3 ∧ (loaded 0xCB#8 []).dec.len2.toNat = 4 := by
  decide +kernel
theorem witness_DecPixelLoadsNextChunk :
    (before 0xCF#8).dec.state = .ready ∧ (before 0xCF#8).dec.len = 0#7 ∧ (before 0xCF#8).dec.len2 = 0#3 ∧
      (before 0xCF#8).dec.ptr.toNat + 1 = (before 0xCF#8).dec.limit.toNat ∧
      ({ (before 0xCF#8).dec with ptr := 8#32 } : DecState).limit.toNat ≤ 8 := by decide +kernel
theorem witness_DecPixelOutsideReady :
    ({ DecState.reset with state := .exhausted } : DecState).state = .exhausted ∧ DecState.reset.state = .uninitialized := by decide

/-- A 2 by 1 image in one chunk: DEC_INIT, then two DEC_PIXELs. -/
theorem witness_OutputCursorAdvances :
    holds (writeCmd 0x20#32 (stream [0xFE#8, 0xEC#8, 2#8, 0#8, 1#8, 0#8, 0xC0#8] 7)) (fun v =>
      decide (v.fault = .none) && !v.invalidFormat && decide (v.dec.w.toNat * v.dec.h.toNat = 2) &&
        decide (v.dec.x.toNat < v.dec.w.toNat) && decide (v.dec.y.toNat < v.dec.h.toNat) && decide (v.dec.len ≠ 0#7) &&
        holds (repeatCmd 0x21#32 2 v) (fun t => decide (t.fault = .none ∧ t.dec.state = .exhausted))) = true := by decide +kernel

theorem witness_PixelAddressing :
    (raster 20 3 4 [] 0).W = 20 ∧ (raster 20 3 4 [] 0).H = 3 ∧ (raster 20 3 4 [] 0).rasterBase = 0x1000#32 ∧
      (raster 20 3 4 [] 0).rasterPitch = 4#16 := by decide
/-- The largest raster, at its last pixel. -/
theorem witness_RasterOffsetsStayInRegion :
    geometryOk (raster 65535 65535 8192 [] 0) ∧ 65534 < (raster 65535 65535 8192 [] 0).W ∧ 65534 < (raster 65535 65535 8192 [] 0).H := by
  unfold geometryOk
  decide
theorem witness_CurReadReadsAndAdvances :
    State.reset.W = 0 ∧ longRaster.enc.x.toNat < longRaster.W ∧ longRaster.enc.y.toNat < longRaster.H := by decide
theorem witness_SentinelReadIgnoresMemory : ({ longRaster with enc := { EncState.reset with y := 1#16 } } : State).H ≤ 1 := by decide
theorem witness_SetLinIsInverse :
    1 ≤ (raster 12 3 3 [] 0).W ∧ 36 = (raster 12 3 3 [] 0).N ∧ (raster 12 3 3 [] 0).cursorInv := by
  unfold State.cursorInv
  decide
/-- V5: `i = 13` of a raster of width 4, and a rewind of 2. -/
theorem witness_RewindMovesBack :
    let s : State := { raster 4 4 1 [] 0 with enc := { EncState.reset with x := 1#16, y := 3#16 } }
    1 ≤ s.W ∧ s.cursorInv ∧ s.cursorLin = 13 ∧ (rewind 2 s).enc.x = 3#16 ∧ (rewind 2 s).enc.y = 2#16 := by
  unfold State.cursorInv
  decide
theorem witness_RunDetectionIsLongest : longRaster.N ≤ 16 ∧ 15 < longRaster.N := by decide
/-- A second run of 4, and a first run of 8 that ends the image. -/
theorem witness_SecondRunHasOtherColour :
    (runDetect shortRaster 0 = 3 ∧ runDetect shortRaster 3 = 4 ∧ 3 < shortRaster.N) ∧
      (runDetect tailRaster 0 = 8 ∧ runDetect tailRaster 8 = 0 ∧ tailRaster.N = 8) := by decide +kernel

/-- The four branches, in order; PassProgress has the same hypotheses. -/
theorem witness_PassChoosesChunk :
    (IsRun longRaster 0 16 ∧ IsRun longRaster 16 0) ∧ (IsRun uncompRaster 0 1 ∧ IsRun uncompRaster 1 1) ∧
      (IsRun shortRaster 0 3 ∧ IsRun shortRaster 3 4) ∧ (IsRun tailRaster 0 8 ∧ IsRun tailRaster 8 0) := by
  refine ⟨⟨?_, ?_⟩, ⟨?_, ?_⟩, ⟨?_, ?_⟩, ?_, ?_⟩ <;> exact run_of_detect (by decide +kernel)
theorem witness_PassProgress :
    (IsRun tailRaster 1 7 ∧ IsRun tailRaster 8 0) ∧ 1 < tailRaster.N :=
  ⟨⟨run_of_detect (by decide +kernel), run_of_detect (by decide +kernel)⟩, by decide⟩
theorem witness_EmittedChunkBounds : 0 < longRaster.N ∧ 0 < shortRaster.N ∧ 7 < uncompRaster.N := by decide
theorem witness_PassEncodesItsPixels : 7 < uncompRaster.N ∧ (encPass uncompRaster 6).2 = uncompRaster.N := by decide +kernel

/-- PARAM, OUT_OVERFLOW, an overlap and a session, in order. -/
theorem witness_EncInitOutcomes :
    ¬ geometryOk (raster 9 1 1 [] 64) ∧ (geometryOk longRaster ∧ (raster 16 1 2 [] 5).outCap.toNat < 6) ∧
      overlaps (exec .encInit { longRaster with outBase := 0xFFC#32 }) = true ∧
      holds (exec .encInit { longRaster with outBase := 0xFFA#32 }) (fun t => decide (t.fault = .none)) = true ∧
      longRaster.mem.wf = true := by
  unfold geometryOk
  decide +kernel

/-- One state for each clause, in order. -/
theorem witness_EncStepOutcomes :
    longRaster.enc.phase = .idle ∧ longRaster.mem.wf = true ∧
      ({ EncState.reset with phase := .done } : EncState).phase = .done ∧
      ({ midSession longRaster 0#16 6#32 with rasterDim := 0#32 } : State).W = 0 ∧
      (midSession longRaster 0#16 64#32).outCap.toNat ≤ (midSession longRaster 0#16 64#32).enc.outLen.toNat ∧
      overlaps (exec .encStep { midSession longRaster 0#16 6#32 with outBase := 0xFFA#32 }) = true ∧
      holds (exec .encStep (midSession longRaster 15#16 63#32)) (fun t => decide (t.fault = .none ∧ t.enc.outLen = 64#32)) = true := by
  decide +kernel

/-- ENC_RUN completes: the hypotheses of EncRunIsInitThenSteps, OneColourRasterStream and EncoderIgnoresPitchAndPadding. -/
theorem witness_EncRunIsInitThenSteps : longRaster.mem.wf = true ∧ longRaster.fault = .none ∧
    ∃ t, exec .encRun longRaster = .next t ∧ decide (t.fault = .none) = true :=
  ⟨by decide, by decide, next_of_holds (by decide +kernel)⟩

theorem witness_EncRunCompletesWithRoom :
    geometryOk longRaster ∧ 7 + (longRaster.N - 1) / 5 ≤ longRaster.outCap.toNat ∧
      ∀ a, inOutputRegion longRaster a → ¬ inRasterRegion longRaster a := by
  refine ⟨by unfold geometryOk; decide, by decide, ?_⟩
  rintro a ⟨k, hk, rfl⟩ ⟨j, hj, e⟩
  have hk' : k < 64 := hk
  have hj' : j < 2 := hj
  have e' := congrArg BitVec.toNat e
  have h1 : longRaster.outBase = 0x2000#32 := by decide
  have h2 : longRaster.rasterBase = 0x1000#32 := by decide
  rw [h1, h2] at e'
  simp only [BitVec.toNat_add, BitVec.toNat_ofNat] at e'
  omega

/-- 16 pixels of colour 0, and the tails of 7 and of 1 pixels behind a run of 71. -/
theorem witness_OneColourRasterStream :
    (8 ≤ longRaster.N ∧ (∀ i < 16, pix longRaster i = 0#1) ∧ 16 % 71 ≥ 9) ∧
      ((raster 78 1 10 [] 64).N = 78 ∧ (∀ i < 78, pix (raster 78 1 10 [] 64) i = 0#1) ∧ 78 % 71 = 7) ∧
      holds (exec .encRun (raster 78 1 10 [] 64)) (fun t => decide (t.fault = .none)) = true ∧
      holds (exec .encRun (raster 72 1 10 [] 64)) (fun t => decide (t.fault = .none)) = true := by decide +kernel

/-- The raster of P1 with the pitch 3 and its padding 1, and with the pitch 2 and its padding 0. -/
theorem witness_EncoderIgnoresPitchAndPadding :
    let s := raster 12 3 3 [0x00#8, 0x0F#8, 0xFF#8, 0x3F#8, 0x8F#8, 0xFF#8, 0x2C#8, 0xCF#8, 0xFF#8] 16
    let s' := raster 12 3 2 [0x00#8, 0x00#8, 0x3F#8, 0x80#8, 0x2C#8, 0xC0#8] 64
    s'.rasterDim = s.rasterDim ∧ (∀ i < 36, pix s' i = pix s i) ∧ s.N = 36 ∧ s.mem.wf = true ∧ s'.mem.wf = true ∧
      holds (exec .encRun s) (fun t => decide (t.fault = .none)) = true ∧
      holds (exec .encRun s') (fun t => decide (t.fault = .none)) = true := by decide +kernel

theorem witness_DecoderInstructionsFrame :
    (∃ t, exec (.long 1#1 71) State.reset = .next t) ∧ (∃ t, exec (.header 1#1 1#16 1#16) (stream [] 7) = .next t) ∧
      (∃ t, exec .decInit State.reset = .next t) ∧ ∃ t, exec .decPixel (before 0xCF#8) = .next t :=
  ⟨⟨_, rfl⟩, ⟨_, rfl⟩, ⟨_, rfl⟩, ⟨_, exec_decPixel_ready (by decide) (.inr (.inr (by decide)))⟩⟩
theorem witness_EncoderCommandsFrame :
    holds (exec .encInit longRaster) (fun _ => true) = true ∧ holds (exec .encRun longRaster) (fun _ => true) = true ∧
      holds (exec .encStep (midSession longRaster 0#16 6#32)) (fun _ => true) = true ∧
      emits { midSession longRaster 0#16 6#32 with rasterDim := 0#32 } = false := by decide +kernel
theorem witness_EncoderLeavesRasterAlone :
    holds (exec .encRun longRaster) (fun _ => true) = true ∧
      overlaps (exec .encRun { longRaster with outBase := 0xFFA#32 }) = true ∧ inRaster longRaster 0x1001#32 = true := by
  decide +kernel
/-- A byte outside every region of the engine changes. -/
theorem witness_EngineReadsOnlyItsRegions :
    let m : Memory := [(0x1000, 0x55#8), (0x9000, 0xAA#8)]
    holds (exec .decPixel (before 0xCF#8)) (fun _ => true) = true ∧ holds (exec .decInit (stream [] 0)) (fun _ => true) = true ∧
      (∀ k < 8, memRead { before 0#8 with mem := m } (0x4000#32 + BitVec.ofNat 32 k) = memRead (before 0#8) (0x4000#32 + BitVec.ofNat 32 k)) ∧
      (uncompRaster.P * uncompRaster.H = 1 ∧ memRead { uncompRaster with mem := m } 0x1000#32 = memRead uncompRaster 0x1000#32) ∧
      geometryOk uncompRaster ∧ uncompRaster.mem.wf = true ∧ Memory.wf m = true ∧ uncompRaster.enc.x.toNat < uncompRaster.W ∧
      holds (exec .encInit uncompRaster) (fun _ => true) = true ∧ holds (exec .encRun uncompRaster) (fun _ => true) = true ∧
      holds (exec .encStep (midSession uncompRaster 6#16 7#32)) (fun t => decide (t.fault = .none)) = true := by
  unfold geometryOk
  decide +kernel

theorem witness_InvalidFormatRule :
    holds (exec .decPixel State.reset) (fun t => decide (t.fault ≠ .none)) = true ∧
      holds (exec .curRead State.reset) (fun t => decide (t.fault = .none)) = true ∧ findsBadMagic (stream [0xFF#8] 1) ∧
      findsBadMagic (stream [0xFE#8, 0xEE#8] 2) := by
  unfold findsBadMagic
  decide +kernel
/-- A fault of a command, and one in a pass of ENC_RUN. -/
theorem witness_FaultsArePrecise :
    holds (exec .decPixel State.reset) (fun t => decide (t.fault = .decNotReady)) = true ∧
      holds (exec .encRun (raster 20 1 3 [0x80#8, 0x1F#8, 0xF0#8] 8)) (fun t => decide (t.fault = .outOverflow)) = true := by
  decide +kernel
/-- Each of the codes that a command raises. -/
theorem witness_FaultCodesAndCauses :
    holds (exec .encInit State.reset) (fun t => decide (t.fault = .param)) = true ∧
      holds (exec .encInit (raster 16 1 2 [] 5)) (fun t => decide (t.fault = .outOverflow)) = true ∧
      holds (exec .decInit State.reset) (fun t => decide (t.fault = .streamOverrun)) = true ∧
      holds (exec .decPixel State.reset) (fun t => decide (t.fault = .decNotReady)) = true ∧
      holds (exec .encStep State.reset) (fun t => decide (t.fault = .encNotReady)) = true ∧
      holds (exec .encStep (midSession longRaster 0#16 64#32)) (fun t => decide (t.fault = .outOverflow)) = true ∧
      holds (exec .encRun (raster 16 1 2 [] 6)) (fun t => decide (t.fault = .outOverflow ∧ t.enc.outLen = 6#32)) = true ∧
      holds (exec .decPixel { before 0#8 with dec := { (before 0#8).dec with ptr := 8#32 } })
        (fun t => decide (t.fault = .streamOverrun)) = true ∧
      holds (exec (.header 0#1 1#16 1#16) (stream [] 6)) (fun t => decide (t.fault = .streamOverrun)) = true := by decide +kernel
theorem witness_FaultIsSticky :
    let s : State := { State.reset with fault := .param, host := { pending := [.memWrite 5#32 1#8, .reset], lastRead := none } }
    s.fault ≠ .none ∧ (∀ rest, s.host.pending ≠ .reset :: rest) ∧ (∃ t, step s = .next t) ∧
      ∃ t, writeReg .outCap 9#32 { s with fault := .none } = .next t := by
  refine ⟨by decide, fun rest h => ?_, ⟨_, rfl⟩, ⟨_, rfl⟩⟩
  simp at h
theorem witness_CommandWriteCheckOrder :
    ({ State.reset with fault := .param } : State).fault ≠ .none ∧ ({ State.reset with busy := true } : State).fault = .none ∧
      State.reset.busy = false ∧ decode (.command 0x22#32) = .error .unassignedCode ∧ decode (.command 0x21#32) = .ok .decPixel :=
  ⟨by decide, rfl, rfl, rfl, rfl⟩

theorem witness_StepRunsDecodedInstruction :
    decode (.command 0x12#32) = .ok .encRun ∧
      (6 ≤ (stream [0xFE#8, 0xED#8, 1#8, 0#8, 1#8, 0#8] 6).streamLen.toNat ∧
        decode (.header 0xFE#8 0xED#8 1#8 0#8 1#8 0#8) = .ok (.header 1#1 1#16 1#16)) ∧
      ((before 0xCF#8).dec.ptr.toNat < (before 0xCF#8).dec.limit.toNat ∧
        decode (.chunk (memRead (before 0xCF#8) 0x4007#32)) = .ok (.short 0#1 4 4)) ∧
      State.reset.host.pending = [] ∧ decodeTableWord 32 0x12 = some .encRun :=
  ⟨rfl, ⟨by decide, rfl⟩, ⟨by decide, rfl⟩, rfl, rfl⟩
theorem witness_ResetValues : ({ State.reset with host := { pending := [.reset], lastRead := none } } : State).host.pending = [.reset] := rfl
theorem witness_RegisterAccessRules : (1 : Nat) ≠ 4 ∧ (0x02 : Nat) % 4 ≠ 0 ∧ State.reset.busy = false := by decide
theorem witness_GeometryWrites : longRaster.busy = false := by decide
theorem witness_OutputAndStreamWrites : longRaster.busy = false := by decide
theorem witness_HostMemoryWrite :
    longRaster.mem.wf = true ∧ ({ longRaster with host := { pending := [.memWrite 0xFFFFFFFF#32 0x55#8], lastRead := none } } : State).host.pending =
      .memWrite 0xFFFFFFFF#32 0x55#8 :: [] := ⟨by decide, rfl⟩
theorem witness_PlatformCoresAreIndependent :
    (∃ q, platformStep 1 (Platform.powerOn 1) = .next q) ∧ (Platform.powerOn 1).cores[1]? = some State.reset :=
  ⟨⟨_, rfl⟩, rfl⟩
/-- A state in the middle of a session meets the invariant, and has a step. -/
theorem witness_InvariantKeptByStep :
    (midSession longRaster 15#16 63#32).Inv ∧ ∃ t, step (midSession longRaster 15#16 63#32) = .next t := by
  refine ⟨⟨by decide, .inl (by decide), fun _ => by decide, ?_, rfl⟩, _, rfl⟩
  have e : (midSession longRaster 15#16 63#32).dec = DecState.reset := by decide
  rw [e]
  constructor <;> simp [DecState.reset]
theorem witness_EncodeThenDecodeRoundTrip :
    longRaster.mem.wf = true ∧ holds (exec .encRun longRaster) (fun t => decide (t.fault = .none ∧ t.enc.outLen.toNat ≤ 7)) = true := by
  decide +kernel

end Sys2Proof.Tests
end

section
/-! PROOFS. A step runs the instruction that the word, the header or the chunk byte decodes to; the cores of a platform share only host
memory (spec/00_scope.md R1, R4). -/

namespace Sys2Proof.Machine

/-! ### A command word written to CMD -/

theorem writeCmd_of_decode {w : Word} {i : Instr} {s : State} (hf : s.fault = .none) (hd : decode (.command w) = .ok i) :
    writeCmd w s = exec i s := by
  simp [writeCmd, hf, hd]

/-- Offset 0x00 is CMD (R21), so with STATUS.BUSY = 0 an aligned write there is a write to CMD. -/
theorem hostWrite_cmd (w : Word) {s : State} (hb : s.busy = false) : hostWrite 0 4 w s = writeCmd w s := by
  simp [hostWrite, accessAllowed, windowBytes, hb, regAt, writeReg]

theorem step_of_cmdWrite {s : State} {rest : List HostAccess} {w : Word} {i : Instr}
    (hp : s.host.pending = .regWrite 0 4 w :: rest) (hb : s.busy = false) (hf : s.fault = .none)
    (hd : decode (.command w) = .ok i) : step s = exec i (popHost rest s) :=
  calc step s = hostWrite 0 4 w (popHost rest s) := step_of_pending hp
    _ = writeCmd w (popHost rest s) := hostWrite_cmd w hb
    _ = exec i (popHost rest s) := writeCmd_of_decode hf hd

theorem step_of_idle {s : State} (hp : s.host.pending = []) : step s = .next s := by
  simp [step, stepHost, hp]

/-! ### The header of a DEC_INIT -/

theorem decode_header_ok {b0 b1 b2 b3 b4 b5 : Byte} {i : Instr} (h : decode (.header b0 b1 b2 b3 b4 b5) = .ok i) :
    b0 = Config.magic0 ∧ isMagic1 b1 = true ∧ i = .header (b1.extractLsb' 0 1) (b3 ++ b2) (b5 ++ b4) := by
  simp only [decode, decodeHeader] at h
  split at h
  · cases h
  · rename_i h0
    split at h
    · rename_i h1
      cases h
      exact ⟨Decidable.of_not_not h0, h1, rfl⟩
    · cases h

/-- DEC_INIT's reads are the header bytes the statements name. -/
theorem newStreamByte_eq_headByte (s : State) (k : Nat) : newStreamByte s k = headByte s k := rfl

/-- With six bytes and both magics, every check of R185 before the width and height passes. -/
theorem exec_decInit_of_decode {s : State} {i : Instr} (hl : 6 ≤ s.streamLen.toNat)
    (hd : decode (.header (headByte s 0) (headByte s 1) (headByte s 2) (headByte s 3) (headByte s 4) (headByte s 5)) = .ok i) :
    exec .decInit s = exec i s := by
  obtain ⟨h0, h1, rfl⟩ := decode_header_ok hd
  have l1 : ¬ s.streamLen.toNat < 1 := by omega
  have l2 : ¬ s.streamLen.toNat < 2 := by omega
  have l6 : ¬ s.streamLen.toNat < Config.headerLen := Nat.not_lt.2 hl
  simp [exec, execDecInit, newStreamByte_eq_headByte, h0, h1, l1, l2, l6]

/-! ### The chunk of a DEC_PIXEL -/

/-- Once its chunk is loaded, a Ready decoder gives the pixel that it gives when it loads the chunk itself. -/
theorem exec_decPixel_fetched {s : State} (hr : s.dec.state = .ready) (hn : s.dec.needsChunk = true)
    (hl : s.dec.ptr.toNat < s.dec.limit.toNat) : exec .decPixel s = exec .decPixel { s with dec := fetchChunk s } := by
  have hf := fetchChunk_of_needs hn
  have loaded : (fetchChunk s).needsChunk = false := by rw [hf]; exact loadChunk_not_needsChunk _ _
  have ready : (fetchChunk s).state = .ready := by rw [fetchChunk_frame]; exact hr
  have hlen : (fetchChunk s).len ≠ 0#7 := by
    intro e
    have pos := loadChunk_len_pos (memRead s (s.dec.base + s.dec.ptr)) { s.dec with ptr := s.dec.ptr + 1#32 }
    rw [← hf, e] at pos
    exact absurd pos (by decide)
  rw [exec_decPixel_ready hr (.inr (.inr hl)), exec_decPixel_ready (s := { s with dec := fetchChunk s }) ready (.inl hlen),
    fetchChunk_of_loaded (s := { s with dec := fetchChunk s }) loaded]

/-- The chunk byte's instruction, run with the pointer moved on, is the load of DEC_PIXEL's step 1 (R181, R188). -/
theorem exec_chunk_eq_fetch {s : State} {i : Instr} (hn : s.dec.needsChunk = true)
    (hd : decode (.chunk (memRead s (s.dec.base + s.dec.ptr))) = .ok i) :
    exec i { s with dec := { s.dec with ptr := s.dec.ptr + 1#32 } } = .next { s with dec := fetchChunk s } := by
  cases hd
  rw [exec_decodeChunk, fetchChunk_of_needs hn]

/-! ### A command word of the opcode table -/

theorem decodeTableWord_command {w : Nat} {i : Instr} (h : decodeTableWord 32 w = some i) :
    decode (.command (BitVec.ofNat 32 w)) = .ok i := by
  have hc : (decode (.command (BitVec.ofNat 32 w))).toOption = some i := h
  cases hd : decode (.command (BitVec.ofNat 32 w)) with
  | error r => rw [hd] at hc; cases hc
  | ok j => rw [hd] at hc; cases hc; rfl

theorem withFetchWord_command (s : State) (w : Nat) : s.withFetchWord 32 w = placeCommand (BitVec.ofNat 32 w) s := rfl

/-! ### The obligations -/

/-- Settles O47: a CMD write of a decodable word is `exec` of its instruction, and DEC_INIT and DEC_PIXEL are `exec` of the header and
of the chunk they read. -/
theorem stepRunsDecodedInstruction : Obligations.StepRunsDecodedInstruction := by
  unfold Obligations.StepRunsDecodedInstruction
  refine ⟨fun s rest w i hp hb hf hd => step_of_cmdWrite hp hb hf hd, ?_, ?_, fun s hp => step_of_idle hp, ?_⟩
  · intro s rest i hp hb hf hl hd
    calc step s = exec .decInit (popHost rest s) := step_of_cmdWrite hp hb hf rfl
      _ = exec i (popHost rest s) := exec_decInit_of_decode hl hd
  · intro s rest i hp hb hf hr h1 h2 hl hd
    have hn : (popHost rest s).dec.needsChunk = true := (needsChunk_iff _).2 ⟨h1, h2⟩
    exact ⟨_, exec_chunk_eq_fetch hn hd, (step_of_cmdWrite hp hb hf rfl).trans (exec_decPixel_fetched hr hn hl)⟩
  · intro s w i h
    rw [withFetchWord_command]
    exact step_of_cmdWrite (s := placeCommand (BitVec.ofNat 32 w) s) rfl rfl rfl (decodeTableWord_command h)

/-- Settles O56: a platform's step sets the stepping core's entry of the list of cores, and no other. -/
theorem platformCoresAreIndependent : Obligations.PlatformCoresAreIndependent := by
  unfold Obligations.PlatformCoresAreIndependent
  refine ⟨Platform.instances_pos, fun p q k s hk h => ?_⟩
  rcases platformStep_cases h with ⟨hnone, -⟩ | ⟨s', t, hs, ht, rfl⟩
  · rw [hk] at hnone
    cases hnone
  · obtain rfl : s = s' := Option.some.inj (hk.symm.trans hs)
    obtain ⟨hlt, -⟩ := List.getElem?_eq_some_iff.1 hk
    refine ⟨by simp [Platform.instances], fun j hj => ?_, t, ht, rfl, ?_⟩
    · rw [Platform.cores_withMem, Platform.setCore_cores, List.getElem?_set_ne hj.symm]
    · rw [Platform.cores_withMem, Platform.setCore_cores, List.getElem?_set_self hlt]
      rfl

end Sys2Proof.Machine
end

section
/-! PROOFS. The invariant of spec/10_state.md R24, R26, R29, R32, R33, R39 and 40_cursor.md R130: it holds after reset and every step
keeps it. -/

namespace Sys2Proof.Machine

/-! ### The decoder: the counters by the kind of the chunk byte (R39) -/

/-- The two kind bits (R90), bit 7 above bit 6. -/
theorem kindBits_eq (b : Byte) : b.extractLsb' 6 2 = BitVec.ofBool (b.getLsbD 7) ++ BitVec.ofBool (b.getLsbD 6) := by
  apply BitVec.eq_of_getLsbD_eq
  intro i hi
  rcases (by omega : i = 0 ∨ i = 1) with rfl | rfl
  · rw [BitVec.getLsbD_append]
    simp
  · rw [BitVec.getLsbD_append]
    simp

theorem kind_uncomp_iff (b : Byte) : b.extractLsb' 6 2 = 2#2 ↔ b.getLsbD 7 = true ∧ b.getLsbD 6 = false := by
  rw [kindBits_eq]
  cases b.getLsbD 7 <;> cases b.getLsbD 6 <;> decide

theorem kind_short_iff (b : Byte) : b.extractLsb' 6 2 = 3#2 ↔ b.getLsbD 7 = true ∧ b.getLsbD 6 = true := by
  rw [kindBits_eq]
  cases b.getLsbD 7 <;> cases b.getLsbD 6 <;> decide

/-- What R32 and R39 say of the counters, said once for each kind of chunk: LONG, UNCOMP, SHORT. `DecState.inv_iff` ties it to the
model's invariant. -/
def DecState.ChunkBounds (d : DecState) : Prop :=
  (d.chunk.getLsbD 7 = false ∧ d.len.toNat ≤ 71 ∧ d.len2 = 0#3) ∨
  (d.chunk.getLsbD 7 = true ∧ d.chunk.getLsbD 6 = false ∧ d.len.toNat ≤ 6 ∧ d.len2 = 0#3) ∨
  (d.chunk.getLsbD 7 = true ∧ d.chunk.getLsbD 6 = true ∧ d.len.toNat ≤ 8 ∧ d.len2.toNat ≤ 4)

theorem DecState.Inv.chunkBounds {d : DecState} (h : d.Inv) : d.ChunkBounds := by
  have second := h.noSecondRun
  rw [extract7_iff, extract6_iff] at second
  cases h7 : d.chunk.getLsbD 7 with
  | false => exact .inl ⟨h7, h.counters.1, second (.inl h7)⟩
  | true =>
    cases h6 : d.chunk.getLsbD 6 with
    | false => exact .inr (.inl ⟨h7, h6, h.uncompLen ((kind_uncomp_iff _).2 ⟨h7, h6⟩), second (.inr h6)⟩)
    | true => exact .inr (.inr ⟨h7, h6, h.shortLen ((kind_short_iff _).2 ⟨h7, h6⟩), h.counters.2⟩)

/-- The counters' clauses of the invariant are the bounds of the chunk's kind; R39's bound on the sum follows from them. -/
theorem DecState.inv_iff (d : DecState) :
    d.Inv ↔ d.ChunkBounds ∧ (d.state = .ready → d.x.toNat < d.w.toNat ∧ d.y.toNat < d.h.toNat) ∧
      (d.state = .exhausted → d.w ≠ 0#16 → d.h ≠ 0#16 → d.x = 0#16 ∧ d.y = d.h) ∧
      (d.state = .uninitialized → d = DecState.reset) ∧ d.ptr.toNat ≤ d.limit.toNat := by
  constructor
  · exact fun h => ⟨h.chunkBounds, h.readyCursor, h.exhaustedCursor, h.uninitialized, h.ptrBound⟩
  · rintro ⟨hb, hr, he, hu, hp⟩
    have zero : d.len2 = 0#3 → d.len2.toNat = 0 := fun e => by rw [e]; rfl
    rcases hb with ⟨h7, hl, h2⟩ | ⟨h7, h6, hl, h2⟩ | ⟨h7, h6, hl, h2⟩
    · have h0 := zero h2
      exact
        { counters := ⟨hl, by omega⟩, sum := fun _ => by omega, noSecondRun := fun _ => h2,
          uncompLen := fun e => nomatch h7.symm.trans ((kind_uncomp_iff _).1 e).1
          shortLen := fun e => nomatch h7.symm.trans ((kind_short_iff _).1 e).1
          readyCursor := hr, exhaustedCursor := he, uninitialized := hu, ptrBound := hp }
    · have h0 := zero h2
      exact
        { counters := ⟨by omega, by omega⟩, sum := fun _ => by omega, noSecondRun := fun _ => h2, uncompLen := fun _ => hl,
          shortLen := fun e => nomatch h6.symm.trans ((kind_short_iff _).1 e).2
          readyCursor := hr, exhaustedCursor := he, uninitialized := hu, ptrBound := hp }
    · have short : ¬ (d.chunk.extractLsb' 7 1 = 0#1 ∨ d.chunk.extractLsb' 6 1 = 0#1) := by
        rw [extract7_iff, extract6_iff, h7, h6]
        decide
      exact
        { counters := ⟨by omega, h2⟩, sum := fun _ => by omega, noSecondRun := fun e => absurd e short, shortLen := fun _ => hl,
          uncompLen := fun e => nomatch h6.symm.trans ((kind_uncomp_iff _).1 e).2
          readyCursor := hr, exhaustedCursor := he, uninitialized := hu, ptrBound := hp }

theorem DecState.Inv.of_ready {d : DecState} (hr : d.state = .ready) (hb : d.ChunkBounds) (hx : d.x.toNat < d.w.toNat)
    (hy : d.y.toNat < d.h.toNat) (hp : d.ptr.toNat ≤ d.limit.toNat) : d.Inv :=
  d.inv_iff.2 ⟨hb, fun _ => ⟨hx, hy⟩, by simp [hr], by simp [hr], hp⟩

theorem DecState.Inv.of_exhausted {d : DecState} (he : d.state = .exhausted) (hb : d.ChunkBounds)
    (hc : d.w ≠ 0#16 → d.h ≠ 0#16 → d.x = 0#16 ∧ d.y = d.h) (hp : d.ptr.toNat ≤ d.limit.toNat) : d.Inv :=
  d.inv_iff.2 ⟨hb, by simp [he], fun _ => hc, by simp [he], hp⟩

theorem DecState.inv_reset : DecState.reset.Inv :=
  (DecState.inv_iff _).2
    ⟨.inl ⟨rfl, Nat.zero_le _, rfl⟩, by simp [DecState.reset], by simp [DecState.reset], fun _ => rfl, Nat.le_refl _⟩

/-! ### The decoder's operations keep the bounds -/

theorem loadChunk_chunkBounds (b : Byte) (d : DecState) : (loadChunk b d).ChunkBounds := by
  obtain ⟨hb, hlong, huncomp, hshort⟩ := loadChunk_counters b d
  unfold DecState.ChunkBounds
  rw [hb]
  cases h7 : b.getLsbD 7 with
  | false =>
    obtain ⟨hl, h2⟩ := hlong h7
    exact .inl ⟨rfl, by omega, h2⟩
  | true =>
    cases h6 : b.getLsbD 6 with
    | false =>
      obtain ⟨hl, h2⟩ := huncomp h7 h6
      exact .inr (.inl ⟨rfl, rfl, by omega, h2⟩)
    | true =>
      obtain ⟨hl, h2⟩ := hshort h7 h6
      exact .inr (.inr ⟨rfl, rfl, by omega, by omega⟩)

theorem fetchChunk_chunkBounds {s : State} (h : s.dec.ChunkBounds) : (fetchChunk s).ChunkBounds := by
  cases hn : s.dec.needsChunk with
  | true => rw [fetchChunk_of_needs hn]; exact loadChunk_chunkBounds _ _
  | false => rw [fetchChunk_of_loaded hn]; exact h

theorem fetchChunk_not_needsChunk (s : State) : (fetchChunk s).needsChunk = false := by
  cases hn : s.dec.needsChunk with
  | true => rw [fetchChunk_of_needs hn]; exact loadChunk_not_needsChunk _ _
  | false => rw [fetchChunk_of_loaded hn]; exact hn

/-- A counter that has not run out does not wrap when it counts down. -/
theorem toNat_sub_one_le {n : Nat} {v : BitVec n} (h : v ≠ 0#n) : (v - 1#n).toNat ≤ v.toNat := by
  have h1 : 1#n ≤ v := by
    rw [BitVec.le_def, BitVec.toNat_ofNat]
    have pos : v.toNat ≠ 0 := fun e => h (BitVec.eq_of_toNat_eq (by simpa using e))
    exact Nat.le_trans (Nat.mod_le _ _) (Nat.pos_of_ne_zero pos)
  rw [BitVec.toNat_sub_of_le h1]
  exact Nat.sub_le _ _

/-- The kinds with no second run have a pixel left in `dec.len`; a SHORT has one left in either counter. -/
theorem producePixel_chunkBounds {d : DecState} (h : d.ChunkBounds) (hn : d.needsChunk = false) :
    (producePixel d).ChunkBounds := by
  rw [Bool.eq_false_iff, ne_eq, needsChunk_iff] at hn
  rcases h with ⟨h7, hl, h2⟩ | ⟨h7, h6, hl, h2⟩ | ⟨h7, h6, hl, h2⟩
  · rw [producePixel_long h7]
    exact .inl ⟨h7, Nat.le_trans (toNat_sub_one_le fun e => hn ⟨e, h2⟩) hl, h2⟩
  · rw [producePixel_uncomp h7 h6]
    exact .inr (.inl ⟨h7, h6, Nat.le_trans (toNat_sub_one_le fun e => hn ⟨e, h2⟩) hl, h2⟩)
  · rw [producePixel_short h7 h6, shortPixel]
    split
    · rename_i hpos
      have hne : d.len ≠ 0#7 := by
        intro e
        rw [e] at hpos
        exact absurd hpos (by decide)
      exact .inr (.inr ⟨h7, h6, Nat.le_trans (toNat_sub_one_le hne) hl, h2⟩)
    · rename_i hzero
      have he : d.len = 0#7 := by bv_omega
      exact .inr (.inr ⟨h7, h6, hl, Nat.le_trans (toNat_sub_one_le fun e => hn ⟨he, e⟩) h2⟩)

/-- From inside the image, AdvanceOutput ends inside it or Exhausted at `(0, dec.H)` (R192). -/
theorem advanceOutput_inv {d : DecState} (hr : d.state = .ready) (h : d.Inv) : (advanceOutput d).Inv := by
  obtain ⟨hx, hy⟩ := h.readyCursor hr
  obtain ⟨-, hx', hy', inside, atEnd⟩ := advanceOutput_spec hx hy hr
  have hb : (advanceOutput d).ChunkBounds := by simpa [DecState.ChunkBounds] using h.chunkBounds
  have hp : (advanceOutput d).ptr.toNat ≤ (advanceOutput d).limit.toNat := by simpa using h.ptrBound
  rcases Nat.lt_or_ge (advanceOutput d).y.toNat d.h.toNat with hlt | hge
  · exact .of_ready (inside hlt) hb (by simpa using hx') (by simpa using hlt) hp
  · obtain ⟨he, hx0⟩ := atEnd hge
    refine .of_exhausted he hb (fun _ _ => ⟨hx0, BitVec.eq_of_toNat_eq ?_⟩) hp
    rw [advanceOutput_h]
    omega

/-! ### DEC_PIXEL and DEC_INIT -/

/-- A Ready decoder that raises no fault has the byte it has to load. -/
theorem ptr_lt_limit_of_needsChunk {s : State} (hr : s.dec.state = .ready) (hf : decPixelFault s = none)
    (hn : s.dec.needsChunk = true) : s.dec.ptr.toNat < s.dec.limit.toNat := by
  simpa [decPixelFault, hr, hn, BitVec.le_def] using hf

/-- Step 1 of DEC_PIXEL moves the pointer only by the byte it loads (R181, R188). -/
theorem fetchChunk_ptr {s : State} (hr : s.dec.state = .ready) (hf : decPixelFault s = none) :
    (s.dec.needsChunk = false ∧ (fetchChunk s).ptr = s.dec.ptr) ∨
      (s.dec.needsChunk = true ∧ s.dec.ptr.toNat < s.dec.limit.toNat ∧ (fetchChunk s).ptr.toNat = s.dec.ptr.toNat + 1) := by
  cases hn : s.dec.needsChunk with
  | false => exact .inl ⟨rfl, by rw [fetchChunk_of_loaded hn]⟩
  | true =>
    have hlt := ptr_lt_limit_of_needsChunk hr hf hn
    have hlim := s.dec.limit.isLt
    refine .inr ⟨rfl, hlt, ?_⟩
    rw [fetchChunk_of_needs hn, loadChunk_ptr]
    simp only [BitVec.toNat_add, BitVec.toNat_ofNat]
    omega

theorem producePixel_fetchChunk_inv {s : State} (h : s.dec.Inv) (hr : s.dec.state = .ready) (hf : decPixelFault s = none) :
    (producePixel (fetchChunk s)).state = .ready ∧ (producePixel (fetchChunk s)).Inv := by
  have hb := producePixel_chunkBounds (fetchChunk_chunkBounds h.chunkBounds) (fetchChunk_not_needsChunk s)
  have hp : (fetchChunk s).ptr.toNat ≤ s.dec.limit.toNat := by
    rcases fetchChunk_ptr hr hf with ⟨-, e⟩ | ⟨-, hlt, e⟩
    · rw [e]; exact h.ptrBound
    · omega
  obtain ⟨hx, hy⟩ := h.readyCursor hr
  have ready : (producePixel (fetchChunk s)).state = .ready := by
    rw [producePixel_frame, fetchChunk_frame]; exact hr
  refine ⟨ready, .of_ready ready hb ?_ ?_ ?_⟩
  · rw [producePixel_frame, fetchChunk_frame]; exact hx
  · rw [producePixel_frame, fetchChunk_frame]; exact hy
  · rw [producePixel_frame, fetchChunk_frame]; exact hp

theorem decPixelEffect_dec_inv {s : State} (h : s.dec.Inv) (hf : decPixelFault s = none) : (decPixelEffect s).dec.Inv := by
  unfold decPixelEffect
  split
  · exact h
  · rename_i he
    exact .of_exhausted he h.chunkBounds (h.exhaustedCursor he) h.ptrBound
  · rename_i hr
    obtain ⟨ready, inv⟩ := producePixel_fetchChunk_inv h hr hf
    exact advanceOutput_inv ready inv

theorem decPixelEffect_frame (s : State) : decPixelEffect s = { s with dec := (decPixelEffect s).dec } := by
  unfold decPixelEffect; split <;> rfl

theorem committed_chunkBounds (c0 : Bit) (w h : Half) (ptr : Word) (mode : DecMode) (s : State) :
    (committed c0 w h ptr mode s).ChunkBounds :=
  .inl ⟨by simp [committed], Nat.zero_le _, rfl⟩

/-- A header whose six bytes the stream holds commits a decoder that meets the invariant (R185, R187). -/
theorem header_dec_inv {c0 : Bit} {w h : Half} {s t : State} (hs : s.dec.Inv) (hl : 6 ≤ s.streamLen.toNat)
    (e : exec (.header c0 w h) s = .next t) : t.dec.Inv := by
  simp only [exec, execHeader] at e
  split at e
  · rename_i hz
    cases e
    exact .of_exhausted rfl (committed_chunkBounds _ _ _ _ _ _) (fun hw hh => (hz.elim hw hh).elim) hl
  · rename_i hz
    rw [not_or] at hz
    split at e
    · cases e
      exact hs
    · rename_i hlen
      cases e
      have pos : ∀ v : Half, v ≠ 0#16 → 0 < v.toNat := fun v hv =>
        Nat.pos_of_ne_zero fun e => hv (BitVec.eq_of_toNat_eq e)
      refine .of_ready (loadChunk_state _ _) (loadChunk_chunkBounds _ _) ?_ ?_ ?_
      · simpa [committed] using pos w hz.1
      · simpa [committed] using pos h hz.2
      · simpa [committed, Config.headerLen] using hlen

theorem decInit_dec_inv {s t : State} (hs : s.dec.Inv) (e : exec .decInit s = .next t) : t.dec.Inv := by
  simp only [exec, execDecInit] at e
  iterate 5
    split at e
    · cases e
      exact hs
  rename_i hlen
  exact header_dec_inv hs (Nat.le_of_not_lt hlen) e

/-! ### The cursor -/

theorem atOrigin_cursorInv (s : State) : ({ s with enc := s.enc.atOrigin } : State).cursorInv := .inr (.inr ⟨rfl, rfl⟩)

/-- A cursor that is not at the end is inside its row. -/
theorem State.cursorInv.column {s : State} (h : s.cursorInv) (hy : s.enc.y.toNat < s.H) (hw : s.W ≠ 0) :
    s.enc.x.toNat < s.W := by
  rcases h with ⟨hx, -⟩ | ⟨-, he⟩ | ⟨hx, -⟩
  · exact hx
  · rw [he] at hy
    exact absurd hy (Nat.lt_irrefl _)
  · rw [hx]
    exact Nat.pos_of_ne_zero hw

/-- A raster position up to `N`, as a cursor, is inside the raster or at `(0, H)` (R127, R130). -/
theorem cursorInv_of_position {s : State} {i : Nat} (hw : 0 < s.W) (hi : i ≤ s.N) (hx : s.enc.x.toNat = i % s.W)
    (hy : s.enc.y.toNat = i / s.W) : s.cursorInv := by
  rcases Nat.lt_or_ge i s.N with hlt | hge
  · exact .inl ⟨by rw [hx]; exact Nat.mod_lt _ hw, by rw [hy]; exact Nat.div_lt_of_lt_mul hlt⟩
  · have hN : i = s.W * s.H := Nat.le_antisymm hi hge
    refine .inr (.inl ⟨BitVec.eq_of_toNat_eq ?_, BitVec.eq_of_toNat_eq ?_⟩)
    · rw [hx, hN, Nat.mul_mod_right]; rfl
    · rw [hy, hN, Nat.mul_div_cancel_left _ hw]; rfl

theorem advanceCursor_cursorInv {s : State} (hx : s.enc.x.toNat < s.W) (hy : s.enc.y.toNat < s.H) :
    (advanceCursor s).cursorInv := by
  obtain ⟨-, hx', inside | atEnd⟩ := advanceCursor_spec hx hy
  · exact .inl ⟨by rwa [W_congr (advanceCursor_rasterDim s)], by rwa [H_congr (advanceCursor_rasterDim s)]⟩
  · refine .inr (.inl ?_)
    rw [State.heightField, advanceCursor_rasterDim]
    exact atEnd

theorem curReadEffect_cursorInv {s : State} (h : s.cursorInv) : (curReadEffect s).cursorInv := by
  unfold curReadEffect
  split
  · exact h
  · rename_i hc
    obtain ⟨hy, hw⟩ := (cursorAtEnd_false_iff s).1 (by simpa using hc)
    exact advanceCursor_cursorInv (h.column hy hw) hy

@[simp] theorem curReadEffect_phase (s : State) : (curReadEffect s).enc.phase = s.enc.phase := by
  unfold curReadEffect; split <;> simp

@[simp] theorem curReadEffect_outLen (s : State) : (curReadEffect s).enc.outLen = s.enc.outLen := by
  unfold curReadEffect; split <;> simp

/-! ### The session -/

theorem paramsOk_congr {s t : State} (hd : t.rasterDim = s.rasterDim) (hp : t.rasterPitch = s.rasterPitch) :
    paramsOk t = paramsOk s := by
  simp [paramsOk, W_congr hd, H_congr hd, P_congr hp]

/-- The session's invariant looks at the phase, OUT_LEN, OUT_CAP and the geometry only. -/
theorem State.sessionInv.congr {s t : State} (h : s.sessionInv) (hp : t.enc.phase = s.enc.phase)
    (hl : t.enc.outLen = s.enc.outLen) (hc : t.outCap = s.outCap) (hd : t.rasterDim = s.rasterDim)
    (hr : t.rasterPitch = s.rasterPitch) : t.sessionInv := by
  rw [State.sessionInv, hp, hl, hc, paramsOk_congr hd hr]
  exact h

theorem sessionInv_of_idle {s : State} (h : s.enc.phase = .idle) : s.sessionInv := fun hn => absurd h hn

/-! ### Updates that the invariant does not look at, or of one part of it -/

namespace State.Inv

variable {s : State}

theorem setFault (h : s.Inv) (c : FaultCode) : State.Inv { s with fault := c } :=
  ⟨h.mem, h.cursor, h.session, h.dec, h.busy⟩

theorem setHost (h : s.Inv) (a : HostSide) : State.Inv { s with host := a } :=
  ⟨h.mem, h.cursor, h.session, h.dec, h.busy⟩

theorem setInvalidFormat (h : s.Inv) (b : Bool) : State.Inv { s with invalidFormat := b } :=
  ⟨h.mem, h.cursor, h.session, h.dec, h.busy⟩

theorem setDec (h : s.Inv) {d : DecState} (hd : d.Inv) : State.Inv { s with dec := d } :=
  ⟨h.mem, h.cursor, h.session, hd, h.busy⟩

theorem completed (h : s.Inv) : (completed s).Inv := h.setInvalidFormat false

theorem memWrite (h : s.Inv) (a : Word) (v : Byte) : (memWrite a v s).Inv :=
  ⟨memWrite_wf a v h.mem, h.cursor, h.session, h.dec, h.busy⟩

theorem resetBlock (h : s.Inv) : (resetBlock s).Inv :=
  ⟨h.mem, .inr (.inr ⟨rfl, rfl⟩), sessionInv_of_idle rfl, DecState.inv_reset, rfl⟩

end State.Inv

/-! ### The commands -/

theorem curReset_inv {s : State} (h : s.Inv) : State.Inv { s with enc := s.enc.atOrigin } :=
  ⟨h.mem, atOrigin_cursorInv s, h.session, h.dec, h.busy⟩

theorem curReadEffect_inv {s : State} (h : s.Inv) : (curReadEffect s).Inv where
  mem := by rw [curReadEffect_mem]; exact h.mem
  cursor := curReadEffect_cursorInv h.cursor
  session := h.session.congr (by simp) (by simp) (by simp) (by simp) (by simp)
  dec := by rw [curReadEffect_dec]; exact h.dec
  busy := by rw [curReadEffect_busy]; exact h.busy

theorem encInitEffect_inv {s : State} (h : s.Inv) (hf : encInitFault s = none) : (encInitEffect s).Inv := by
  obtain ⟨geometry, room⟩ := encInitFault_eq_none hf
  refine ⟨encInitEffect_wf h.mem, .inr (.inr ⟨by simp, by simp⟩), fun _ => ⟨by simp, ?_, ?_⟩, ?_, ?_⟩
  · simpa using room
  · rw [paramsOk_congr (encInitEffect_rasterDim s) (encInitEffect_rasterPitch s)]
    exact (paramsOk_iff s).2 geometry
  · rw [encInitEffect_dec]; exact h.dec
  · rw [encInitEffect_busy]; exact h.busy

/-- A pass with room for its byte: OUT_LEN one more, the cursor at the pass's end. -/
theorem emitChunk_inv {s : State} (h : s.Inv) (he : emits s = true) (room : s.enc.outLen.toNat < s.outCap.toNat) :
    (emitChunk s).Inv := by
  obtain ⟨running, hy, hw⟩ := (emits_iff s).1 he
  have hx := h.cursor.column hy hw
  obtain ⟨cx, cy, -, -⟩ := emitChunk_cursor hx hy
  obtain ⟨-, hnext⟩ := encPass_next_bounds (cursorLin_lt hx hy)
  obtain ⟨six, -, params⟩ := h.session (by simp [running])
  refine ⟨emitChunk_wf h.mem, cursorInv_of_position (Nat.pos_of_ne_zero hw) hnext cx cy, fun _ => ?_, h.dec, h.busy⟩
  have hcap := s.outCap.isLt
  have hlen : (emitChunk s).enc.outLen.toNat = s.enc.outLen.toNat + 1 := by
    simp only [emitChunk_enc, BitVec.toNat_add, BitVec.toNat_ofNat]
    omega
  exact ⟨by omega, by rw [hlen]; exact room, params⟩

theorem closeIfAtEnd_inv {s : State} (h : s.Inv) (hs : s.enc.phase ≠ .idle) : (closeIfAtEnd s).Inv := by
  unfold closeIfAtEnd
  split
  · exact ⟨h.mem, h.cursor, fun _ => h.session hs, h.dec, h.busy⟩
  · exact h

theorem encStepEffect_inv {s : State} (h : s.Inv) (hf : encStepFault s = none) : (encStepEffect s).Inv := by
  cases he : emits s with
  | true =>
    have running := ((emits_iff s).1 he).1
    rw [encStepEffect_emits he]
    exact closeIfAtEnd_inv (emitChunk_inv h he (emits_room he hf)) (by simp [emitChunk_enc, running])
  | false =>
    unfold encStepEffect
    split
    · exact h
    · exact h
    · rename_i running
      split
      · exact closeIfAtEnd_inv h (by simp [running])
      · rename_i hc
        simp [emits, running, hc] at he

theorem Passes.inv {s v : State} (h : Passes s v) (hs : s.Inv) : v.Inv := by
  induction h with
  | refl => exact hs
  | step _ hf _ _ ih => exact ih (encStepEffect_inv hs hf)

/-- Each of the seven commands keeps the invariant. -/
theorem exec_command_inv {w : Word} {i : Instr} {s t : State} (hd : decode (.command w) = .ok i) (hs : s.Inv)
    (h : exec i s = .next t) : t.Inv := by
  rcases decode_command_cases hd with ⟨-, rfl⟩ | ⟨-, rfl⟩ | ⟨-, rfl⟩ | ⟨-, rfl⟩ | ⟨-, rfl⟩ | ⟨-, rfl⟩ | ⟨-, rfl⟩
  · cases h
    exact (curReset_inv hs).completed
  · cases h
    exact (curReadEffect_inv hs).completed
  · rcases encInit_cases h with ⟨c, -, rfl⟩ | ⟨hf, -, rfl⟩
    · exact hs.setFault c
    · exact (encInitEffect_inv hs hf).completed
  · rcases encStep_cases h with ⟨c, -, rfl⟩ | ⟨hf, -, rfl⟩
    · exact hs.setFault c
    · exact (encStepEffect_inv hs hf).completed
  · rcases encRun_cases h with ⟨c, -, rfl⟩ | ⟨hf, -, v, hv, rfl | ⟨c, -, -, rfl⟩⟩
    · exact hs.setFault c
    · exact (hv.inv (encInitEffect_inv hs hf)).completed
    · exact (hv.inv (encInitEffect_inv hs hf)).setFault c
  · have hdec := decInit_dec_inv hs.dec h
    rcases decInit_cases h with ⟨rfl, -⟩ | ⟨rfl, -⟩ | ⟨⟨d, rfl⟩, -⟩
    · exact hs.setFault _
    · exact hs.setInvalidFormat true
    · exact (hs.setDec hdec).completed
  · rcases decPixel_cases h with ⟨c, -, rfl⟩ | ⟨hf, rfl⟩
    · exact hs.setFault c
    · rw [decPixelEffect_frame]
      exact (hs.setDec (decPixelEffect_dec_inv hs.dec hf)).completed

/-! ### The registers and the host's accesses -/

/-- A geometry write puts the cursor at (0,0) and ends the session, an output write ends the session: neither leaves a stale bound
(R25, R28). -/
theorem writeReg_inv {r : Reg} {v : Word} {s t : State} (hr : r ≠ .cmd) (hs : s.Inv) (h : writeReg r v s = .next t) : t.Inv := by
  cases r with
  | cmd => exact absurd rfl hr
  | rasterBase | rasterDim | rasterPitch =>
    cases h
    exact ⟨hs.mem, .inr (.inr ⟨rfl, rfl⟩), sessionInv_of_idle rfl, hs.dec, hs.busy⟩
  | outBase | outCap =>
    cases h
    exact ⟨hs.mem, hs.cursor, sessionInv_of_idle rfl, hs.dec, hs.busy⟩
  | streamBase | streamLen =>
    cases h
    exact ⟨hs.mem, hs.cursor, hs.session, hs.dec, hs.busy⟩
  | status | cursor | curPixel | outLen | reserved | decDim | decRun | decPtr | decCursor | decPixel =>
    cases h
    exact hs

theorem writeCmd_inv {v : Word} {s t : State} (hs : s.Inv) (h : writeCmd v s = .next t) : t.Inv := by
  rcases writeCmd_cases h with ⟨-, rfl⟩ | ⟨-, rfl⟩ | ⟨-, i, hd, h⟩
  · exact hs
  · exact hs.setFault _
  · exact exec_command_inv hd hs h

theorem hostWrite_inv {off bytes : Nat} {v : Word} {s t : State} (hs : s.Inv) (h : hostWrite off bytes v s = .next t) : t.Inv := by
  rcases hostWrite_cases h with ⟨hb, -⟩ | ⟨-, h⟩
  · exact nomatch hs.busy.symm.trans hb
  · by_cases hr : regAt (off / 4) = .cmd
    · rw [hr] at h
      exact writeCmd_inv hs h
    · exact writeReg_inv hr hs h

theorem perform_inv {a : HostAccess} {s t : State} (hs : s.Inv) (h : perform a s = .next t) : t.Inv := by
  cases a with
  | regWrite off bytes v => exact hostWrite_inv hs h
  | regRead off bytes => rw [hostRead_cases h]; exact hs.setHost _
  | memWrite a v => cases h; exact hs.memWrite a v
  | reset => cases h; exact hs.resetBlock

/-! ### The obligations -/

/-- Settles O57: every element of the reset state is zero, the cursor at (0,0), no session, the decoder Uninitialized. -/
theorem invariantHoldsAtReset : Obligations.InvariantHoldsAtReset :=
  ⟨Memory.wf_nil, .inr (.inr ⟨rfl, rfl⟩), sessionInv_of_idle rfl, DecState.inv_reset, rfl⟩

/-- Settles O58: a step is idle or one access of the host, and each access keeps every part of the invariant. -/
theorem invariantKeptByStep : Obligations.InvariantKeptByStep := by
  unfold Obligations.InvariantKeptByStep
  intro s t hs h
  rcases step_cases h with ⟨-, rfl⟩ | ⟨a, rest, -, h⟩
  · exact hs
  · exact perform_inv (s := popHost rest s) (hs.setHost _) h

end Sys2Proof.Machine
end

section
/-! PROOFS. What the decoder's instructions and the encoder's commands leave unchanged (spec/10_state.md R20, R31, R33, 20_memory.md R61, R69,
60_exceptions.md R239). -/

namespace Sys2Proof.Machine

/-! ### DEC_PIXEL -/

theorem decPixelEffect_dec_of_ready {s : State} (hr : s.dec.state = .ready) :
    (decPixelEffect s).dec = advanceOutput (producePixel (fetchChunk s)) := by
  simp [decPixelEffect, hr]

theorem decPixelEffect_dec_of_exhausted {s : State} (he : s.dec.state = .exhausted) :
    (decPixelEffect s).dec = { s.dec with pixel := 0#1 } := by
  simp [decPixelEffect, he]

/-- The elements that DEC_INIT commits for the whole session, and the pointer as the fetch leaves it. -/
theorem pixelSteps_session (s : State) :
    let d := advanceOutput (producePixel (fetchChunk s))
    d.w = s.dec.w ∧ d.h = s.dec.h ∧ d.startColor = s.dec.startColor ∧ d.base = s.dec.base ∧ d.limit = s.dec.limit ∧
      d.ptr = (fetchChunk s).ptr := by
  intro d
  have e : d = advanceOutput (producePixel (fetchChunk s)) := rfl
  rw [advanceOutput_frame, producePixel_frame, fetchChunk_frame] at e
  rw [e]
  exact ⟨rfl, rfl, rfl, rfl, rfl, rfl⟩

/-- DEC_PIXEL leaves the session's elements alone and moves the pointer by the byte it loads at most (R181, R188). -/
theorem exec_decPixel_session {s t : State} (h : exec .decPixel s = .next t) :
    t.dec.w = s.dec.w ∧ t.dec.h = s.dec.h ∧ t.dec.startColor = s.dec.startColor ∧ t.dec.base = s.dec.base ∧
      t.dec.limit = s.dec.limit ∧
      (t.dec.ptr = s.dec.ptr ∨
        (s.dec.len = 0#7 ∧ s.dec.len2 = 0#3 ∧ s.dec.ptr.toNat < s.dec.limit.toNat ∧
          t.dec.ptr.toNat = s.dec.ptr.toNat + 1)) := by
  rcases decPixel_cases h with ⟨c, -, rfl⟩ | ⟨hf, rfl⟩
  · exact ⟨rfl, rfl, rfl, rfl, rfl, .inl rfl⟩
  rw [completed_dec]
  cases hs : s.dec.state with
  | uninitialized => simp [decPixelFault, hs] at hf
  | exhausted =>
    rw [decPixelEffect_dec_of_exhausted hs]
    exact ⟨rfl, rfl, rfl, rfl, rfl, .inl rfl⟩
  | ready =>
    obtain ⟨ew, eh, ec, eb, el, ep⟩ := pixelSteps_session s
    rw [decPixelEffect_dec_of_ready hs, ew, eh, ec, eb, el, ep]
    refine ⟨rfl, rfl, rfl, rfl, rfl, ?_⟩
    rcases fetchChunk_ptr hs hf with ⟨-, e⟩ | ⟨hn, hlt, e⟩
    · exact .inl e
    · obtain ⟨h1, h2⟩ := (needsChunk_iff _).1 hn
      exact .inr ⟨h1, h2, hlt, e⟩

/-! ### The decoder's instructions -/

/-- `t` is `s` up to the decoder, STATUS.INVALID_FORMAT and STATUS.FAULT: the frame of the decoder's instructions (R20). -/
def DecoderFrame (s t : State) : Prop :=
  t = { s with dec := t.dec, invalidFormat := t.invalidFormat, fault := t.fault }

theorem DecoderFrame.memRead_eq {s t : State} (h : DecoderFrame s t) (a : Word) : memRead t a = memRead s a :=
  memRead_congr (by rw [h]) a

theorem exec_decPixel_frame {s t : State} (h : exec .decPixel s = .next t) : DecoderFrame s t := by
  rcases decPixel_cases h with ⟨c, -, rfl⟩ | ⟨-, rfl⟩
  · rfl
  · rw [DecoderFrame, decPixelEffect_frame]
    rfl

theorem exec_header_frame {c0 : Bit} {w h : Half} {s t : State} (e : exec (.header c0 w h) s = .next t) : DecoderFrame s t := by
  rcases header_cases e with ⟨rfl, -⟩ | ⟨d, rfl⟩ <;> rfl

theorem exec_decInit_frame {s t : State} (h : exec .decInit s = .next t) : DecoderFrame s t := by
  rcases decInit_cases h with ⟨rfl, -⟩ | ⟨rfl, -⟩ | ⟨⟨d, rfl⟩, -⟩ <;> rfl

/-- Settles O38: a chunk loads into the decoder; a header, DEC_INIT and DEC_PIXEL fault or change the decoder, and memory stays. -/
theorem decoderInstructionsFrame : Obligations.DecoderInstructionsFrame := by
  unfold Obligations.DecoderInstructionsFrame
  intro i s t hi h
  have frame : DecoderFrame s t := by
    rcases hi with ⟨c, n, rfl⟩ | ⟨p, rfl⟩ | ⟨c, r1, r2, rfl⟩ | ⟨c, w, hh, rfl⟩ | rfl | rfl
    · cases h; rfl
    · cases h; rfl
    · cases h; rfl
    · exact exec_header_frame h
    · exact exec_decInit_frame h
    · exact exec_decPixel_frame h
  refine ⟨frame, frame.memRead_eq, ?_⟩
  rintro rfl
  exact exec_decPixel_session h

/-! ### The encoder's commands -/

/-- `t` is `s` up to the encoder without CUR_PIXEL, memory, STATUS.INVALID_FORMAT and STATUS.FAULT: the frame of the encoder's commands
(R20). -/
def EncoderFrame (s t : State) : Prop :=
  t = { s with
    enc := { t.enc with curPixel := s.enc.curPixel }, mem := t.mem, invalidFormat := t.invalidFormat, fault := t.fault }

theorem EncoderFrame.refl (s : State) : EncoderFrame s s := rfl

theorem EncoderFrame.setFault {s t : State} (h : EncoderFrame s t) (c : FaultCode) : EncoderFrame s { t with fault := c } := by
  unfold EncoderFrame at *
  rw [h]

theorem EncoderFrame.completed {s t : State} (h : EncoderFrame s t) : EncoderFrame s (completed t) := by
  unfold EncoderFrame at *
  rw [h]
  rfl

theorem EncoderFrame.trans {s t u : State} (h : EncoderFrame s t) (h' : EncoderFrame t u) : EncoderFrame s u := by
  unfold EncoderFrame at *
  rw [h', h]

theorem encInitEffect_encoderFrame (s : State) : EncoderFrame s (encInitEffect s) := by
  have e := encInitEffect_frame s
  unfold EncoderFrame
  generalize encInitEffect s = u at *
  rw [e]

theorem encStepEffect_encoderFrame (s : State) : EncoderFrame s (encStepEffect s) := by
  have e := encStepEffect_frame s
  unfold EncoderFrame
  generalize encStepEffect s = u at *
  rw [e]

theorem Passes.encoderFrame {s v : State} (h : Passes s v) : EncoderFrame s v := by
  have e := h.frame
  unfold EncoderFrame
  rw [e]

theorem exec_encInit_frame {s t : State} (h : exec .encInit s = .next t) : EncoderFrame s t := by
  rcases encInit_cases h with ⟨c, -, rfl⟩ | ⟨-, -, rfl⟩
  · exact (EncoderFrame.refl s).setFault c
  · exact (encInitEffect_encoderFrame s).completed

theorem exec_encStep_frame {s t : State} (h : exec .encStep s = .next t) : EncoderFrame s t := by
  rcases encStep_cases h with ⟨c, -, rfl⟩ | ⟨-, -, rfl⟩
  · exact (EncoderFrame.refl s).setFault c
  · exact (encStepEffect_encoderFrame s).completed

theorem exec_encRun_frame {s t : State} (h : exec .encRun s = .next t) : EncoderFrame s t := by
  rcases encRun_cases h with ⟨c, -, rfl⟩ | ⟨-, -, v, hv, rfl | ⟨c, -, -, rfl⟩⟩
  · exact (EncoderFrame.refl s).setFault c
  · exact ((encInitEffect_encoderFrame s).trans hv.encoderFrame).completed
  · exact ((encInitEffect_encoderFrame s).trans hv.encoderFrame).setFault c

/-! ### The encoder's writes -/

theorem memRead_encInit_of_ne {s t : State} (h : exec .encInit s = .next t) {a : Word}
    (ha : ∀ k < 6, a ≠ s.outBase + BitVec.ofNat 32 k) : memRead t a = memRead s a := by
  rcases encInit_cases h with ⟨c, -, rfl⟩ | ⟨-, -, rfl⟩
  · rfl
  · exact memRead_encInitEffect_of_ne ha

theorem memRead_encStep_of_ne {s t : State} (h : exec .encStep s = .next t) {a : Word}
    (ha : emits s = true → a ≠ s.outBase + s.enc.outLen) : memRead t a = memRead s a := by
  rcases encStep_cases h with ⟨c, -, rfl⟩ | ⟨-, -, rfl⟩
  · rfl
  · exact memRead_encStepEffect_of_ne ha

theorem inOutputRegion_congr {s t : State} (hb : t.outBase = s.outBase) (hc : t.outCap = s.outCap) (a : Word) :
    inOutputRegion t a ↔ inOutputRegion s a := by
  simp [inOutputRegion, hb, hc]

/-- ENC_RUN's header and chunk bytes lie in the output region: OUT_CAP is at least 6, and each pass has room for its byte. -/
theorem memRead_encRun_of_not_inOutputRegion {s t : State} (h : exec .encRun s = .next t) {a : Word}
    (ha : ¬ inOutputRegion s a) : memRead t a = memRead s a := by
  rcases encRun_cases h with ⟨c, -, rfl⟩ | ⟨hf, -, v, hv, ht⟩
  · rfl
  have header : memRead (encInitEffect s) a = memRead s a := by
    apply memRead_encInitEffect_of_ne
    rintro k hk rfl
    exact ha ⟨k, Nat.lt_of_lt_of_le hk (encInitFault_eq_none hf).2, rfl⟩
  have passes : memRead v a = memRead (encInitEffect s) a :=
    hv.memRead_of_not_inOutputRegion fun inside => ha ((inOutputRegion_congr (by simp) (by simp) a).1 inside)
  have same : t.mem = v.mem := by
    rcases ht with rfl | ⟨c, -, -, rfl⟩ <;> rfl
  exact ((memRead_congr same a).trans passes).trans header

/-- Settles O39: each command is its fault or its effect; the effects write at the addresses that the three clauses name. -/
theorem encoderCommandsFrame : Obligations.EncoderCommandsFrame := by
  unfold Obligations.EncoderCommandsFrame
  intro s t i hi h
  simp only [List.mem_cons, List.not_mem_nil, or_false] at hi
  rcases hi with rfl | rfl | rfl
  · exact ⟨exec_encInit_frame h, fun _ a ha => memRead_encInit_of_ne h ha, by simp, by simp, by simp⟩
  · refine ⟨exec_encStep_frame h, by simp, fun _ a ha => ?_, fun _ he a => ?_, by simp⟩
    · exact memRead_encStep_of_ne h fun _ => by rwa [← chunkAddr_eq]
    · exact memRead_encStep_of_ne h fun emitting => nomatch he.symm.trans emitting
  · exact ⟨exec_encRun_frame h, by simp, by simp, by simp, fun _ a ha => memRead_encRun_of_not_inOutputRegion h ha⟩

end Sys2Proof.Machine
end

section
/-! PROOFS. The register window: what reset leaves, what reads return, what writes store, and the fields of STATUS and DEC_RUN
(spec/10_state.md R21 to R43). -/

namespace Sys2Proof.Machine

/-! ### The computed words as numbers -/

/-- Two 16-bit fields, the second worth 2^16. -/
theorem pairWord_eq_ofNat (lo hi : Half) : pairWord lo hi = BitVec.ofNat 32 (hi.toNat * 65536 + lo.toNat) := by
  have h1 := lo.isLt
  have h2 := hi.isLt
  apply BitVec.eq_of_toNat_eq
  rw [pairWord, append_toNat, BitVec.toNat_ofNat]
  omega

theorem bitWord_eq_ofNat (b : Bit) : bitWord b = BitVec.ofNat 32 b.toNat := by
  rw [bitWord, BitVec.ofNat_toNat]

/-- STATUS as a sum of its fields (R24). -/
theorem statusWord_toNat (s : State) :
    (statusWord s).toNat =
      s.busy.toNat + s.invalidFormat.toNat * 2 + s.dec.state.code.toNat * 4 + s.enc.phase.code.toNat * 16 +
        s.cursorAtEnd.toNat * 64 + s.fault.code.toNat * 256 := by
  simp only [statusWord, append_toNat, BitVec.toNat_ofBool, BitVec.toNat_ofNat]
  omega

/-- DEC_RUN as a sum of its fields (R35). -/
theorem decRunWord_toNat (d : DecState) :
    (decRunWord d).toNat =
      d.len.toNat + d.len2.toNat * 2 ^ 8 + d.color.toNat * 2 ^ 12 + d.startColor.toNat * 2 ^ 13 + d.chunk.toNat * 2 ^ 16 := by
  simp only [decRunWord, append_toNat, BitVec.toNat_ofNat]
  omega

/-- A bit of a word is a binary digit of its number. -/
theorem getLsbD_eq_of_digit {v : Word} {i : Nat} {b : Bool} (h : v.toNat / 2 ^ i % 2 = b.toNat) : v.getLsbD i = b := by
  rw [← BitVec.testBit_toNat, Nat.testBit_eq_decide_div_mod_eq, h]
  cases b <;> rfl

theorem FaultCode.code_toNat_le (c : FaultCode) : c.code.toNat ≤ 7 := by
  cases c <;> decide

/-- After reset only CUR_AT_END is set: a raster of no rows is at its end. -/
theorem statusWord_resetBlock (s : State) : statusWord (resetBlock s) = 0x40#32 := by
  have atEnd : (resetBlock s).cursorAtEnd = true := by simp [cursorAtEnd_iff, State.H, State.heightField]
  simp [statusWord, atEnd, EncState.reset, DecState.reset, FaultCode.code, EncPhase.code, DecMode.code]

/-! ### One access -/

/-- A width or an alignment other than R63's is refused. -/
theorem accessAllowed_eq_false {off bytes : Nat} (h : bytes ≠ 4 ∨ off % 4 ≠ 0) : accessAllowed off bytes = false := by
  rw [accessAllowed, Bool.and_eq_false_iff]
  exact h.imp (decide_eq_false ·) (decide_eq_false ·)

theorem accessAllowed_of_aligned {off : Nat} (h : off % 4 = 0) : accessAllowed off 4 = true := by
  simp [accessAllowed, h]

theorem hostRead_of_aligned (s : State) {off : Nat} (aligned : off % 4 = 0) (inside : off < windowBytes) :
    hostRead off 4 s = .next { s with host := { s.host with lastRead := some (readReg s (regAt (off / 4))) } } := by
  simp [hostRead, accessAllowed_of_aligned aligned, Nat.not_le.2 inside]

theorem hostWrite_of_aligned {s : State} (hb : s.busy = false) (v : Word) {off : Nat} (aligned : off % 4 = 0)
    (inside : off < windowBytes) : hostWrite off 4 v s = writeReg (regAt (off / 4)) v s := by
  simp [hostWrite, accessAllowed_of_aligned aligned, Nat.not_le.2 inside, hb]

/-! ### The obligations -/

/-- Settles O48: the registers that read a zero element, and the state that a reset step leaves. -/
theorem resetValues : Obligations.ResetValues := by
  unfold Obligations.ResetValues
  refine ⟨⟨statusWord_resetBlock State.reset, fun r hr => ?_⟩, fun s rest hp => ?_⟩
  · cases r with
    | status => exact absurd rfl hr
    | _ => rfl
  · exact ⟨resetBlock (popHost rest s), step_of_pending hp, rfl, rfl, rfl, rfl, rfl, rfl, rfl, rfl, rfl, rfl, rfl, rfl, rfl, rfl,
      statusWord_resetBlock _⟩

/-- Settles O49: each offset of the table is aligned, inside the window, and names the register that holds the word. -/
theorem registerReads : Obligations.RegisterReads := by
  unfold Obligations.RegisterReads
  intro s p hp
  have entry : p.1 % 4 = 0 ∧ p.1 < windowBytes ∧ readReg s (regAt (p.1 / 4)) = p.2 := by
    revert p
    simp only [List.forall_mem_cons]
    simp [windowBytes, regAt, readReg, pairWord_eq_ofNat, bitWord_eq_ofNat]
  obtain ⟨aligned, inside, word⟩ := entry
  rw [hostRead_of_aligned s aligned inside, word]

/-- Settles O50: the width and alignment are checked first; the ignored offsets name registers whose write is no effect. -/
theorem registerAccessRules : Obligations.RegisterAccessRules := by
  unfold Obligations.RegisterAccessRules
  refine ⟨fun s off bytes v h => ?_, fun s v hb off hoff => ?_⟩
  · simp [hostWrite, hostRead, accessAllowed_eq_false h]
  · have entry : off % 4 = 0 ∧ off < windowBytes ∧ writeReg (regAt (off / 4)) v s = .next s := by
      revert off
      simp only [List.forall_mem_cons]
      simp [windowBytes, regAt, writeReg]
    obtain ⟨aligned, inside, ignored⟩ := entry
    rw [hostWrite_of_aligned hb v aligned inside, ignored]

/-- Settles O51: the write of each geometry register, and RASTER_DIM's and RASTER_PITCH's fields as numbers. -/
theorem geometryWrites : Obligations.GeometryWrites := by
  unfold Obligations.GeometryWrites
  intro s v hb
  refine ⟨hostWrite_of_aligned hb v rfl (by decide), ⟨_, hostWrite_of_aligned hb v rfl (by decide), rfl, ?_, ?_⟩,
    ⟨_, hostWrite_of_aligned hb v rfl (by decide), rfl, ?_⟩⟩
  · exact BitVec.extractLsb'_toNat ..
  · have hv := v.isLt
    simp only [State.H, State.heightField, BitVec.extractLsb'_toNat, Nat.shiftRight_eq_div_pow]
    omega
  · exact BitVec.extractLsb'_toNat ..

/-- Settles O52: the write of each register. -/
theorem outputAndStreamWrites : Obligations.OutputAndStreamWrites := by
  unfold Obligations.OutputAndStreamWrites
  intro s v hb
  exact ⟨hostWrite_of_aligned hb v rfl (by decide), hostWrite_of_aligned hb v rfl (by decide),
    hostWrite_of_aligned hb v rfl (by decide), hostWrite_of_aligned hb v rfl (by decide)⟩

/-- Settles O53: the fields are the digits of the sum. -/
theorem statusFields : Obligations.StatusFields := by
  unfold Obligations.StatusFields
  intro s
  have sum := statusWord_toNat s
  have busy := s.busy.toNat_le
  have invalid := s.invalidFormat.toNat_le
  have atEnd := s.cursorAtEnd.toNat_le
  have mode := s.dec.state.code.isLt
  have phase := s.enc.phase.code.isLt
  have atEndBit : (statusWord s).getLsbD 6 = s.cursorAtEnd := getLsbD_eq_of_digit (by omega)
  refine ⟨getLsbD_eq_of_digit (by omega), getLsbD_eq_of_digit (by omega), ?_, ?_, by rw [atEndBit, cursorAtEnd_iff],
    getLsbD_eq_of_digit (by simp only [Bool.toNat_false]; omega), by omega, FaultCode.code_toNat_le _⟩
  · rw [show (statusWord s).toNat / 4 % 4 = s.dec.state.code.toNat by omega]
    cases s.dec.state <;> rfl
  · rw [show (statusWord s).toNat / 16 % 4 = s.enc.phase.code.toNat by omega]
    cases s.enc.phase <;> rfl

/-- Settles O54: DEC_RUN is the sum of its fields, all of them 0 after reset. -/
theorem decRunFields : Obligations.DecRunFields := by
  unfold Obligations.DecRunFields
  exact ⟨decRunWord_toNat, rfl⟩

end Sys2Proof.Machine
end

section
/-! PROOFS. Memory: a host write of a byte, where the raster's pixels lie, what the encoder leaves alone, and the engine over two memories that
agree on its regions (spec/20_memory.md R60 to R75). -/

namespace Sys2Proof.Machine

/-! ### The raster region -/

/-- The largest offset is that of the last pixel of the largest raster: 65535 pixels wide and high, at pitch 65535 (R67). -/
theorem pixel_offset_le {s : State} {x y : Nat} (hx : x < s.W) (hy : y < s.H) : x / 8 + y * s.P ≤ 4294778881 := by
  have hW := W_lt s
  have hH := H_lt s
  have hP := P_lt s
  have rows : y * s.P ≤ 65534 * 65535 := Nat.mul_le_mul (by omega) (by omega)
  omega

theorem pixel_offset_lt {s : State} (h : geometryOk s) {x y : Nat} (hx : x < s.W) (hy : y < s.H) :
    x / 8 + y * s.P < s.P * s.H := by
  obtain ⟨-, -, pitch⟩ := h
  have rowEnd : x / 8 < s.P := by omega
  calc x / 8 + y * s.P < (y + 1) * s.P := by rw [Nat.add_mul]; omega
    _ ≤ s.H * s.P := Nat.mul_le_mul_right _ hy
    _ = s.P * s.H := Nat.mul_comm _ _

/-- Settles O19: a row's bytes fit the pitch, so a pixel's byte lies before the end of its row. -/
theorem rasterOffsetsStayInRegion : Obligations.RasterOffsetsStayInRegion := by
  unfold Obligations.RasterOffsetsStayInRegion
  exact fun s x y hg hx hy => ⟨pixelAddr_inRasterRegion hg hx hy, pixel_offset_lt hg hx hy, pixel_offset_le hx hy⟩

/-! ### A host write of memory -/

/-- Settles O55: the step is one `memWrite`, whose rules say the rest. -/
theorem hostMemoryWrite : Obligations.HostMemoryWrite := by
  unfold Obligations.HostMemoryWrite
  intro s a v rest hwf hp
  refine ⟨memWrite a v (popHost rest s), step_of_pending hp, rfl, memRead_memWrite_self a v hwf, fun b hb => ?_, memWrite_wf a v hwf⟩
  exact memRead_memWrite_of_ne (popHost rest s) v hb

/-! ### The encoder leaves the raster alone -/

theorem memRead_encInitEffect_of_inRasterRegion {s : State} (ho : headerOverlaps s = false) {a : Word} (ha : inRasterRegion s a) :
    memRead (encInitEffect s) a = memRead s a := by
  apply memRead_encInitEffect_of_ne
  rintro k hk rfl
  exact nomatch ho.symm.trans ((headerOverlaps_iff s).2 ⟨k, hk, ha⟩)

theorem memRead_encStepEffect_of_inRasterRegion {s : State} (ho : (emits s && chunkOverlaps s) = false) {a : Word}
    (ha : inRasterRegion s a) : memRead (encStepEffect s) a = memRead s a := by
  apply memRead_encStepEffect_of_ne
  rintro emitting rfl
  rw [emitting, (chunkOverlaps_iff s).2 ha] at ho
  cases ho

theorem memRead_encInit_of_inRasterRegion {s t : State} (h : exec .encInit s = .next t) {a : Word} (ha : inRasterRegion s a) :
    memRead t a = memRead s a := by
  rcases encInit_cases h with ⟨c, -, rfl⟩ | ⟨-, ho, rfl⟩
  · rfl
  · exact memRead_encInitEffect_of_inRasterRegion ho ha

theorem memRead_encStep_of_inRasterRegion {s t : State} (h : exec .encStep s = .next t) {a : Word} (ha : inRasterRegion s a) :
    memRead t a = memRead s a := by
  rcases encStep_cases h with ⟨c, -, rfl⟩ | ⟨-, ho, rfl⟩
  · rfl
  · exact memRead_encStepEffect_of_inRasterRegion ho ha

theorem encInitEffect_inRasterRegion_iff (s : State) (a : Word) : inRasterRegion (encInitEffect s) a ↔ inRasterRegion s a :=
  inRasterRegion_congr (encInitEffect_rasterBase s) (encInitEffect_rasterDim s) (encInitEffect_rasterPitch s) a

theorem memRead_encRun_of_inRasterRegion {s t : State} (h : exec .encRun s = .next t) {a : Word} (ha : inRasterRegion s a) :
    memRead t a = memRead s a := by
  rcases encRun_cases h with ⟨c, -, rfl⟩ | ⟨-, ho, v, hv, ht⟩
  · rfl
  have same : t.mem = v.mem := by
    rcases ht with rfl | ⟨c, -, -, rfl⟩ <;> rfl
  calc memRead t a = memRead v a := memRead_congr same a
    _ = memRead (encInitEffect s) a := hv.memRead_of_inRasterRegion ((encInitEffect_inRasterRegion_iff s a).2 ha)
    _ = memRead s a := memRead_encInitEffect_of_inRasterRegion ho ha

/-! ### Why the encoder refuses -/

/-- An address lies both in the output region and in the raster region. -/
def RegionsMeet (s : State) : Prop := ∃ a, inOutputRegion s a ∧ inRasterRegion s a

/-- The encoder moves neither region. -/
theorem EncoderFrame.regionsMeet {s t : State} (h : EncoderFrame s t) (ht : RegionsMeet t) : RegionsMeet s := by
  obtain ⟨a, hout, hras⟩ := ht
  exact ⟨a, (inOutputRegion_congr (by rw [h]) (by rw [h]) a).1 hout,
    (inRasterRegion_congr (by rw [h]) (by rw [h]) (by rw [h]) a).1 hras⟩

/-- No fault of ENC_INIT means room for the header, so a header byte over the raster is a byte of the output region. -/
theorem regionsMeet_of_headerOverlaps {s : State} (hf : encInitFault s = none) (ho : headerOverlaps s = true) : RegionsMeet s := by
  obtain ⟨-, room⟩ := encInitFault_eq_none hf
  obtain ⟨k, hk, hras⟩ := (headerOverlaps_iff s).1 ho
  exact ⟨_, ⟨k, Nat.lt_of_lt_of_le hk room, rfl⟩, hras⟩

/-- No fault of ENC_STEP means room for the chunk byte. -/
theorem regionsMeet_of_chunkOverlaps {s : State} (hf : encStepFault s = none) (he : emits s = true) (ho : chunkOverlaps s = true) :
    RegionsMeet s :=
  ⟨_, ⟨s.enc.outLen.toNat, emits_room he hf, by simp⟩, (chunkOverlaps_iff s).1 ho⟩

theorem encInit_refused {s : State} {r : Refusal} (h : exec .encInit s = .refused r) : r = .rasterOverlap ∧ RegionsMeet s := by
  simp only [exec, execEncInit] at h
  split at h
  · cases h
  · rename_i hf
    split at h
    · rename_i ho
      cases h
      exact ⟨rfl, regionsMeet_of_headerOverlaps hf ho⟩
    · cases h

theorem encStep_refused {s : State} {r : Refusal} (h : exec .encStep s = .refused r) : r = .rasterOverlap ∧ RegionsMeet s := by
  simp only [exec, execEncStep] at h
  split at h
  · cases h
  · rename_i hf
    split at h
    · rename_i ho
      obtain ⟨emitting, overlap⟩ := (Bool.and_eq_true _ _).mp ho
      cases h
      exact ⟨rfl, regionsMeet_of_chunkOverlaps hf emitting overlap⟩
    · cases h

/-- An ENC_RUN is refused for its header, or for the chunk of one of its passes. -/
theorem encRun_refused {s : State} {r : Refusal} (h : exec .encRun s = .refused r) : r = .rasterOverlap ∧ RegionsMeet s := by
  simp only [exec, execEncRun] at h
  split at h
  · cases h
  · rename_i hf
    split at h
    · rename_i ho
      cases h
      exact ⟨rfl, regionsMeet_of_headerOverlaps hf ho⟩
    · obtain ⟨rfl, v, hv, hvf, emitting, overlap⟩ := encRunLoop_refused h
      have frame : EncoderFrame s v := (encInitEffect_encoderFrame s).trans hv.encoderFrame
      exact ⟨rfl, frame.regionsMeet (regionsMeet_of_chunkOverlaps hvf emitting overlap)⟩

theorem encInit_not_fault (s : State) (f : Fault) : exec .encInit s ≠ .fault f := by
  simp only [exec, execEncInit]
  repeat' split
  all_goals exact nofun

theorem encStep_not_fault (s : State) (f : Fault) : exec .encStep s ≠ .fault f := by
  simp only [exec, execEncStep]
  repeat' split
  all_goals exact nofun

theorem encRun_not_fault (s : State) (f : Fault) : exec .encRun s ≠ .fault f := by
  simp only [exec, execEncRun]
  split
  · exact nofun
  · split
    · exact nofun
    · exact encRunLoop_not_fault

/-- Settles O40: no byte the effects write is in the raster region, and a byte that would be is one of the output region. -/
theorem encoderLeavesRasterAlone : Obligations.EncoderLeavesRasterAlone := by
  unfold Obligations.EncoderLeavesRasterAlone
  intro s i hi
  simp only [List.mem_cons, List.not_mem_nil, or_false] at hi
  rcases hi with rfl | rfl | rfl
  · exact ⟨fun _ h _ => memRead_encInit_of_inRasterRegion h, fun _ => encInit_refused, encInit_not_fault s⟩
  · exact ⟨fun _ h _ => memRead_encStep_of_inRasterRegion h, fun _ => encStep_refused, encStep_not_fault s⟩
  · exact ⟨fun _ h _ => memRead_encRun_of_inRasterRegion h, fun _ => encRun_refused, encRun_not_fault s⟩

/-! ### The decoder over another memory -/

section
variable {s : State} {m : Memory}
  (hm : ∀ k < s.dec.limit.toNat,
    memRead { s with mem := m } (s.dec.base + BitVec.ofNat 32 k) = memRead s (s.dec.base + BitVec.ofNat 32 k))
include hm

/-- A DEC_PIXEL that raises no fault reads the byte at `dec.ptr` at most, and only inside the stream. -/
theorem fetchChunk_withMem (hr : s.dec.state = .ready) (hf : decPixelFault s = none) :
    fetchChunk { s with mem := m } = fetchChunk s := by
  cases hn : s.dec.needsChunk with
  | false => rw [fetchChunk_of_loaded hn, fetchChunk_of_loaded (s := { s with mem := m }) hn]
  | true =>
    have same : memRead { s with mem := m } (s.dec.base + s.dec.ptr) = memRead s (s.dec.base + s.dec.ptr) := by
      simpa using hm _ (ptr_lt_limit_of_needsChunk hr hf hn)
    rw [fetchChunk_of_needs hn, fetchChunk_of_needs (s := { s with mem := m }) hn, same]

theorem decPixelEffect_withMem (hf : decPixelFault s = none) :
    decPixelEffect { s with mem := m } = { decPixelEffect s with mem := m } := by
  cases hr : s.dec.state with
  | uninitialized | exhausted => simp only [decPixelEffect, hr]
  | ready => simp only [decPixelEffect, hr, fetchChunk_withMem hm hr hf]

theorem exec_decPixel_withMem {t : State} (h : exec .decPixel s = .next t) :
    exec .decPixel { s with mem := m } = .next { t with mem := m } := by
  have sameFault : decPixelFault { s with mem := m } = decPixelFault s := rfl
  rcases decPixel_cases h with ⟨c, hc, rfl⟩ | ⟨hf, rfl⟩
  · simp only [exec, execDecPixel, sameFault, hc]
    rfl
  · simp only [exec, execDecPixel, sameFault, hf, decPixelEffect_withMem hm hf]
    rfl

end

/-- Where `o` is a next state, `o'` is the same state over the memory `m`. -/
def AgreesOver (m : Memory) (o o' : Host.Outcome State Fault Refusal) : Prop :=
  ∀ t, o = .next t → o' = .next { t with mem := m }

theorem AgreesOver.next (m : Memory) (u : State) : AgreesOver m (.next u) (.next { u with mem := m }) := by
  rintro t ⟨⟩
  rfl

/-- A check that comes out the same over both memories. -/
theorem AgreesOver.ite {m : Memory} {c c' : Prop} [Decidable c] [Decidable c'] {a b a' b' : Host.Outcome State Fault Refusal}
    (same : c' ↔ c) (pos : AgreesOver m a a') (neg : ¬ c → AgreesOver m b b') :
    AgreesOver m (if c then a else b) (if c' then a' else b') := by
  by_cases h : c
  · rw [if_pos h, if_pos (same.2 h)]
    exact pos
  · rw [if_neg h, if_neg (mt same.1 h)]
    exact neg h

section
variable {s : State} {m : Memory} (hm : ∀ k < s.streamLen.toNat, headByte { s with mem := m } k = headByte s k)
include hm

/-- A header reads the first chunk's byte at most, and only where the stream has it (R185, R187). -/
theorem execHeader_agreesOver (c0 : Bit) (w h : Half) :
    AgreesOver m (execHeader c0 w h s) (execHeader c0 w h { s with mem := m }) := by
  refine .ite Iff.rfl (.next m _) fun _ => .ite Iff.rfl (.next m _) fun long => ?_
  simp only [newStreamByte_eq_headByte]
  rw [hm 6 (Nat.le_of_not_lt long)]
  exact .next m _

/-- Each check of DEC_INIT comes after the one that the stream holds the byte it reads (R185). -/
theorem execDecInit_agreesOver : AgreesOver m (execDecInit s) (execDecInit { s with mem := m }) := by
  refine .ite Iff.rfl (.next m _) fun h1 => .ite ?_ (.next m _) fun _ => ?_
  · rw [newStreamByte_eq_headByte, hm 0 (Nat.le_of_not_lt h1)]
    rfl
  refine .ite Iff.rfl (.next m _) fun h2 => .ite ?_ (.next m _) fun _ => ?_
  · rw [newStreamByte_eq_headByte, hm 1 (Nat.le_of_not_lt h2)]
    rfl
  refine .ite Iff.rfl (.next m _) fun h6 => ?_
  have six : 6 ≤ s.streamLen.toNat := Nat.le_of_not_lt h6
  simp only [newStreamByte_eq_headByte]
  rw [hm 1 (by omega), hm 2 (by omega), hm 3 (by omega), hm 4 (by omega), hm 5 (by omega)]
  exact execHeader_agreesOver hm _ _ _

end

/-! ### The cursor and the encoder over another memory -/

theorem advanceCursor_withMem (s : State) (m : Memory) : advanceCursor { s with mem := m } = { advanceCursor s with mem := m } := by
  unfold advanceCursor
  rw [show ({ s with mem := m } : State).W = s.W from rfl]
  split <;> rfl

/-- CUR_READ reads the pixel at the cursor, or at the end nothing (R125). -/
theorem curReadEffect_withMem {s : State} {m : Memory} (hg : geometryOk s) (hm : sameRaster s m)
    (hc : s.enc.x.toNat < s.W ∨ s.H ≤ s.enc.y.toNat) : curReadEffect { s with mem := m } = { curReadEffect s with mem := m } := by
  unfold curReadEffect
  rw [show ({ s with mem := m } : State).cursorAtEnd = s.cursorAtEnd from rfl]
  split
  · rfl
  · rename_i notEnd
    obtain ⟨hy, -⟩ := (cursorAtEnd_false_iff s).1 (by simpa using notEnd)
    have hx : s.enc.x.toNat < s.W := hc.resolve_right (Nat.not_le.2 hy)
    have pixel : pixelAt { s with mem := m } s.enc.x.toNat s.enc.y.toNat = pixelAt s s.enc.x.toNat s.enc.y.toNat :=
      pixelAt_congr (s := s) (t := { s with mem := m }) rfl rfl (hm _ (pixelAddr_inRasterRegion hg hx hy))
    rw [pixel, ← advanceCursor_withMem]

theorem exec_curRead_withMem {s t : State} {m : Memory} (hg : geometryOk s) (hm : sameRaster s m)
    (hc : s.enc.x.toNat < s.W ∨ s.H ≤ s.enc.y.toNat) (h : exec .curRead s = .next t) :
    exec .curRead { s with mem := m } = .next { t with mem := m } := by
  cases h
  simp only [exec, execCurRead, curReadEffect_withMem hg hm hc]
  rfl

theorem encInit_of_fault {s : State} {c : FaultCode} (hf : encInitFault s = some c) : exec .encInit s = .next { s with fault := c } := by
  simp [exec, execEncInit, hf, raiseFault]

theorem encInit_of_ok {s : State} (hf : encInitFault s = none) (ho : headerOverlaps s = false) :
    exec .encInit s = .next (completed (encInitEffect s)) := by
  simp [exec, execEncInit, hf, ho]

theorem encStep_of_fault {s : State} {c : FaultCode} (hf : encStepFault s = some c) : exec .encStep s = .next { s with fault := c } := by
  simp [exec, execEncStep, hf, raiseFault]

theorem encStep_of_ok {s : State} (hf : encStepFault s = none) (ho : (emits s && chunkOverlaps s) = false) :
    exec .encStep s = .next (completed (encStepEffect s)) := by
  simp only [exec, execEncStep, hf, ho]
  rfl

theorem encRun_of_fault {s : State} {c : FaultCode} (hf : encInitFault s = some c) : exec .encRun s = .next { s with fault := c } := by
  simp [exec, execEncRun, hf, raiseFault]

theorem encRun_of_ok {s : State} (hf : encInitFault s = none) (ho : headerOverlaps s = false) :
    exec .encRun s = encRunLoop (s.N + 1) (encInitEffect s) := by
  simp [exec, execEncRun, hf, ho]

section
variable {s t : State} {n : Memory} (hm : s.mem.wf = true) (hn : n.wf = true) (hg : geometryOk s) (h : sameRaster s n)
include hm hn hg h

theorem exec_encInit_sameWrites (ht : exec .encInit s = .next t) :
    ∃ n', exec .encInit { s with mem := n } = .next { t with mem := n' } ∧ sameWrites s.mem n t.mem n' := by
  rcases encInit_cases ht with ⟨c, hc, rfl⟩ | ⟨hf, ho, rfl⟩
  · exact ⟨n, encInit_of_fault (s := { s with mem := n }) hc, sameWrites_refl _ _⟩
  · obtain ⟨n', e, hs, -⟩ := encInitEffect_sameWrites hm hn hg h
    refine ⟨n', ?_, hs⟩
    rw [encInit_of_ok (s := { s with mem := n }) hf ho, e]
    rfl

theorem exec_encStep_sameWrites (ht : exec .encStep s = .next t) :
    ∃ n', exec .encStep { s with mem := n } = .next { t with mem := n' } ∧ sameWrites s.mem n t.mem n' := by
  rcases encStep_cases ht with ⟨c, hc, rfl⟩ | ⟨hf, ho, rfl⟩
  · exact ⟨n, encStep_of_fault (s := { s with mem := n }) hc, sameWrites_refl _ _⟩
  · obtain ⟨n', e, hs, -⟩ := encStepEffect_sameWrites hm hn hg h
    refine ⟨n', ?_, hs⟩
    rw [encStep_of_ok (s := { s with mem := n }) hf ho, e]
    rfl

/-- The header is the same, and after it the memories still agree on the raster, so the loop's passes are the same. -/
theorem exec_encRun_sameWrites (ht : exec .encRun s = .next t) :
    ∃ n', exec .encRun { s with mem := n } = .next { t with mem := n' } ∧ sameWrites s.mem n t.mem n' := by
  rcases encRun_cases ht with ⟨c, hc, rfl⟩ | ⟨hf, ho, -⟩
  · exact ⟨n, encRun_of_fault (s := { s with mem := n }) hc, sameWrites_refl _ _⟩
  · obtain ⟨n1, e, hs, hw⟩ := encInitEffect_sameWrites hm hn hg h
    have agree : sameRaster (encInitEffect s) n1 := fun a ha =>
      hs.agree (h a ((encInitEffect_inRasterRegion_iff s a).1 ha))
    have geometry : geometryOk (encInitEffect s) := by
      rw [encInitEffect_frame]
      exact hg
    rw [encRun_of_ok hf ho] at ht
    obtain ⟨n', e', hs'⟩ := encRunLoop_sameWrites (encInitEffect_wf hm) hw geometry agree ht
    refine ⟨n', ?_, hs.trans hs'⟩
    rw [encRun_of_ok (s := { s with mem := n }) hf ho, e]
    exact e'

end

/-- Settles O41: the decoder's commands read inside their stream; a pass, CUR_READ and the encoder's commands see memory through the
raster's pixels. -/
theorem engineReadsOnlyItsRegions : Obligations.EngineReadsOnlyItsRegions := by
  unfold Obligations.EngineReadsOnlyItsRegions
  refine ⟨fun s t m hm h => exec_decPixel_withMem hm h, fun s t m hm h => execDecInit_agreesOver hm t h, fun s m hg hr => ?_⟩
  have raster : sameRaster s m := hr
  refine ⟨raster.encPass_eq hg, fun t hc h => exec_curRead_withMem hg raster hc h, fun t hs hm i hi h => ?_⟩
  simp only [List.mem_cons, List.not_mem_nil, or_false] at hi
  rcases hi with rfl | rfl | rfl
  · exact exec_encInit_sameWrites hs hm hg raster h
  · exact exec_encStep_sameWrites hs hm hg raster h
  · exact exec_encRun_sameWrites hs hm hg raster h

end Sys2Proof.Machine
end

section
/-! PROOFS. The three encoded forms: their encoder and decoder are inverse, a header's bytes, a chunk byte's pixels, and the words that are no
command (spec/30_encoding.md R90 to R101). -/

namespace Sys2Proof.Machine

/-! ### The fields of an encoded chunk byte (R91 to R93) -/

theorem longByte_color (c : Bit) (n : Nat) : (longByte c n).extractLsb' 6 1 = c := by
  rw [longByte, BitVec.extractLsb'_append_eq_of_le (by decide)]
  exact BitVec.extractLsb'_append_eq_right

theorem longByte_field (c : Bit) (n : Nat) : (longByte c n).extractLsb' 0 6 = BitVec.ofNat 6 (n - Config.longBias) :=
  BitVec.extractLsb'_append_eq_right

theorem uncompByte_field (p : BitVec 6) : (uncompByte p).extractLsb' 0 6 = p :=
  BitVec.extractLsb'_append_eq_right

theorem shortFieldByte_color (c : Bit) (r1 : Nat) (f : BitVec 2) : (shortFieldByte c r1 f).extractLsb' 5 1 = c := by
  rw [shortFieldByte, BitVec.extractLsb'_append_eq_of_le (by decide), BitVec.extractLsb'_append_eq_of_le (by decide)]
  exact BitVec.extractLsb'_append_eq_right

theorem shortFieldByte_field1 (c : Bit) (r1 : Nat) (f : BitVec 2) :
    (shortFieldByte c r1 f).extractLsb' 2 3 = BitVec.ofNat 3 (r1 - 1) := by
  rw [shortFieldByte, BitVec.extractLsb'_append_eq_of_le (by decide)]
  exact BitVec.extractLsb'_append_eq_right

theorem shortFieldByte_field2 (c : Bit) (r1 : Nat) (f : BitVec 2) : (shortFieldByte c r1 f).extractLsb' 0 2 = f :=
  BitVec.extractLsb'_append_eq_right

/-- A field of `k` bits that holds `n` less a bias gives `n` back, as long as the difference fits. -/
theorem biased_field {k n bias : Nat} (low : bias ≤ n) (fits : n - bias < 2 ^ k) : (BitVec.ofNat k (n - bias)).toNat + bias = n := by
  rw [BitVec.toNat_ofNat, Nat.mod_eq_of_lt fits, Nat.sub_add_cancel low]

/-! ### A chunk byte and its instruction -/

theorem decodeChunk_longByte (c : Bit) {n : Nat} (low : 8 ≤ n) (high : n ≤ 71) : decodeChunk (longByte c n) = .long c n := by
  have fits : n - Config.longBias < 2 ^ 6 := by simp only [Config.longBias]; omega
  rw [decodeChunk, if_pos (longByte_kind c n), longByte_color, longByte_field, biased_field low fits]

theorem decodeChunk_uncompByte (p : BitVec 6) : decodeChunk (uncompByte p) = .uncomp p := by
  obtain ⟨bit7, bit6⟩ := uncompByte_kind p
  rw [decodeChunk, if_neg (by rw [bit7]; decide), if_pos bit6, uncompByte_field]

theorem decodeChunk_shortByte (c : Bit) {r1 r2 : Nat} (low1 : 1 ≤ r1) (high1 : r1 ≤ 8) (low2 : 1 ≤ r2) (high2 : r2 ≤ 4) :
    decodeChunk (shortByte c r1 r2) = .short c r1 r2 := by
  obtain ⟨bit7, bit6⟩ := shortFieldByte_kind c r1 (BitVec.ofNat 2 (r2 - 1))
  rw [decodeChunk, shortByte, if_neg (by rw [bit7]; decide), if_neg (by rw [bit6]; decide), shortFieldByte_color, shortFieldByte_field1,
    shortFieldByte_field2, biased_field low1 (by omega), biased_field low2 (by omega)]

/-- The fields of a LONG or an UNCOMP chunk, put side by side, give the byte. -/
theorem append_longFields (b : Byte) : b.extractLsb' 7 1 ++ b.extractLsb' 6 1 ++ b.extractLsb' 0 6 = b := by
  rw [BitVec.extractLsb'_append_extractLsb'_eq_extractLsb' (show 7 = 6 + 1 from rfl),
    BitVec.extractLsb'_append_extractLsb'_eq_extractLsb' (show 6 = 0 + 6 from rfl)]
  exact BitVec.extractLsb'_eq_self

/-- The fields of a SHORT chunk, put side by side, give the byte. -/
theorem append_shortFields (b : Byte) :
    b.extractLsb' 7 1 ++ b.extractLsb' 6 1 ++ b.extractLsb' 5 1 ++ b.extractLsb' 2 3 ++ b.extractLsb' 0 2 = b := by
  rw [BitVec.extractLsb'_append_extractLsb'_eq_extractLsb' (show 7 = 6 + 1 from rfl),
    BitVec.extractLsb'_append_extractLsb'_eq_extractLsb' (show 6 = 5 + 1 from rfl),
    BitVec.extractLsb'_append_extractLsb'_eq_extractLsb' (show 5 = 2 + 3 from rfl),
    BitVec.extractLsb'_append_extractLsb'_eq_extractLsb' (show 2 = 0 + 2 from rfl)]
  exact BitVec.extractLsb'_eq_self

/-- A field is what its value, biased and unbiased again, encodes to. -/
theorem unbiased_field {k : Nat} (f : BitVec k) (bias : Nat) : BitVec.ofNat k (f.toNat + bias - bias) = f := by
  rw [Nat.add_sub_cancel, BitVec.ofNat_toNat, BitVec.setWidth_eq]

/-- Encoding the instruction that a byte decodes to gives the byte back (R94). -/
theorem encode_decodeChunk (b : Byte) : encode (decodeChunk b) = .chunk b := by
  unfold decodeChunk
  split
  · rename_i bit7
    rw [encode, longByte, unbiased_field, ← bit7, append_longFields]
  · rename_i bit7
    have bit7 := (bit_cases _).resolve_left bit7
    split
    · rename_i bit6
      have kind : (2#2 : BitVec 2) = b.extractLsb' 7 1 ++ b.extractLsb' 6 1 := by rw [bit7, bit6]; rfl
      rw [encode, uncompByte, kind, append_longFields]
    · rename_i bit6
      have bit6 := (bit_cases _).resolve_left bit6
      have kind : (3#2 : BitVec 2) = b.extractLsb' 7 1 ++ b.extractLsb' 6 1 := by rw [bit7, bit6]; rfl
      rw [encode, shortByte, shortFieldByte, unbiased_field, unbiased_field, kind, append_shortFields]

theorem decodeChunk_wf (b : Byte) : (decodeChunk b).wf = true := by
  rcases decodeChunk_cases b with ⟨c, n, h, low, high⟩ | ⟨p, h⟩ | ⟨c, r1, r2, h, low1, high1, low2, high2⟩
  · simp [h, Instr.wf, low, high]
  · simp [h, Instr.wf]
  · simp [h, Instr.wf, low1, high1, low2, high2]

/-! ### The header's bytes (R98) -/

theorem decode_header_of_magic {b0 b1 : Byte} (h0 : b0 = Config.magic0) (h1 : isMagic1 b1 = true) (b2 b3 b4 b5 : Byte) :
    decode (.header b0 b1 b2 b3 b4 b5) = .ok (.header (b1.extractLsb' 0 1) (b3 ++ b2) (b5 ++ b4)) := by
  rw [decode, decodeHeader, if_neg (not_not_intro h0), if_pos h1]

theorem clearBit0_or_bit0 (b : Byte) : b &&& 0xFE#8 ||| (b.extractLsb' 0 1).setWidth 8 = b := by
  have bit0 : b.extractLsb' 0 1 = BitVec.ofBool (b.getLsbD 0) := shift_bit b 0
  have masks : (0xFE#8 ||| 1#8 : Byte) = BitVec.allOnes 8 := by decide
  rw [bit0, ← BitVec.and_one_eq_setWidth_ofBool_getLsbD, ← BitVec.and_or_distrib_left, masks, BitVec.and_allOnes]

/-- A byte 1 that passes the magic test is the magic with the byte's own bit 0 as the start colour (R98, R186). -/
theorem headerByte1_of_isMagic1 {b : Byte} (h : isMagic1 b = true) : headerByte1 (b.extractLsb' 0 1) = b := by
  rw [headerByte1, ← eq_of_beq h, clearBit0_or_bit0]

theorem headerByte1_eq_ofNat : ∀ c0 : Bit, headerByte1 c0 = BitVec.ofNat 8 (0xEC + c0.toNat) := by decide

theorem lowByte_eq_ofNat (v : Half) : lowByte v = BitVec.ofNat 8 (v.toNat % 256) := by
  apply BitVec.eq_of_toNat_eq
  rw [lowByte, BitVec.extractLsb'_toNat, BitVec.toNat_ofNat, Nat.shiftRight_zero]
  omega

theorem highByte_eq_ofNat (v : Half) : highByte v = BitVec.ofNat 8 (v.toNat / 256) := by
  apply BitVec.eq_of_toNat_eq
  rw [highByte, BitVec.extractLsb'_toNat, BitVec.toNat_ofNat, Nat.shiftRight_eq_div_pow]

theorem append_eq_ofNat (hi lo : Byte) : (hi ++ lo : Half) = BitVec.ofNat 16 (hi.toNat * 256 + lo.toNat) := by
  apply BitVec.eq_of_toNat_eq
  have h := hi.isLt
  have l := lo.isLt
  rw [append_toNat, BitVec.toNat_ofNat]
  omega

/-! ### Words that are no command (R97) -/

theorem writeCmd_of_error {w : Word} {r : Reject} {s : State} (hf : s.fault = .none) (hd : decode (.command w) = .error r) :
    writeCmd w s = .next { s with fault := .illegalCmd } := by
  simp [writeCmd, hf, hd, raiseFault]

theorem writeCmd_of_fault (w : Word) {s : State} (hf : s.fault ≠ .none) : writeCmd w s = .next s := by
  rw [writeCmd, if_pos hf]

/-- The CODE values of R96's table. -/
abbrev commandCodes : List Nat := [0x01, 0x02, 0x10, 0x11, 0x12, 0x20, 0x21]

/-- A word outside the table of R96 is rejected. -/
theorem decode_command_error {w : Word} (h : w.toNat ∉ commandCodes) : ∃ r, decode (.command w) = .error r := by
  cases hd : decode (.command w) with
  | error r => exact ⟨r, rfl⟩
  | ok i =>
    refine absurd ?_ h
    rcases decode_command_cases hd with ⟨rfl, -⟩ | ⟨rfl, -⟩ | ⟨rfl, -⟩ | ⟨rfl, -⟩ | ⟨rfl, -⟩ | ⟨rfl, -⟩ | ⟨rfl, -⟩ <;> decide

theorem decode_command_isNone_iff {c : Nat} (hc : c < 256) :
    (decode (.command (BitVec.ofNat 32 c))).toOption.isNone = true ↔ c ∉ commandCodes := by
  constructor
  · intro rejected assigned
    have accepted : ∀ k ∈ commandCodes, (decode (.command (BitVec.ofNat 32 k))).toOption.isNone = false := by decide
    rw [accepted c assigned] at rejected
    cases rejected
  · intro unassigned
    have toNat : (BitVec.ofNat 32 c).toNat = c := Nat.mod_eq_of_lt (by omega)
    obtain ⟨r, hr⟩ := decode_command_error (w := BitVec.ofNat 32 c) (by rwa [toNat])
    rw [hr]
    rfl

/-- Leaving out the members of `out`, which all stand once in `l`, leaves that many fewer. -/
theorem length_filter_notMem {out l : List Nat} (hl : l.Nodup) (ho : out.Nodup) (inside : ∀ a ∈ out, a ∈ l) :
    (l.filter fun c => decide (c ∉ out)).length + out.length = l.length := by
  induction out generalizing l with
  | nil =>
    rw [List.filter_eq_self.2 fun c _ => decide_eq_true List.not_mem_nil]
    rfl
  | cons a out ih =>
    obtain ⟨fresh, ho⟩ := List.nodup_cons.1 ho
    have ha : a ∈ l := inside a List.mem_cons_self
    have rest : ∀ b ∈ out, b ∈ l.erase a := fun b hb =>
      hl.mem_erase_iff.2 ⟨fun e => fresh (e ▸ hb), inside b (List.mem_cons_of_mem a hb)⟩
    have eraseFirst : (l.filter fun c => decide (c ∉ a :: out)) = (l.erase a).filter fun c => decide (c ∉ out) := by
      rw [hl.erase_eq_filter, List.filter_filter]
      refine List.filter_congr fun c _ => ?_
      rw [Bool.eq_iff_iff, Bool.and_eq_true, decide_eq_true_eq, decide_eq_true_eq, bne_iff_ne, List.mem_cons, not_or, and_comm]
    have count := ih (hl.erase a) ho rest
    have pos := List.length_pos_of_mem ha
    rw [List.length_erase_of_mem ha] at count
    rw [eraseFirst, List.length_cons]
    omega

/-- Of the 256 CODE values all but the seven of the table are no command. -/
theorem rejectedCodes_length :
    ((List.range 256).filter fun c => (decode (.command (BitVec.ofNat 32 c))).toOption.isNone).length = 249 := by
  have unassigned : ((List.range 256).filter fun c => (decode (.command (BitVec.ofNat 32 c))).toOption.isNone) =
      (List.range 256).filter fun c => decide (c ∉ commandCodes) := by
    refine List.filter_congr fun c hc => ?_
    rw [Bool.eq_iff_iff, decide_eq_true_eq]
    exact decode_command_isNone_iff (List.mem_range.1 hc)
  have bound : ∀ k ∈ commandCodes, k < 256 := by decide
  have count := length_filter_notMem (List.nodup_range (n := 256)) (show commandCodes.Nodup by decide) fun k hk =>
    List.mem_range.2 (bound k hk)
  rw [unassigned]
  rw [List.length_range] at count
  exact Nat.add_right_cancel (m := commandCodes.length) count

/-! ### The pixels of a chunk byte, by kind (R95) -/

theorem chunkPixels_long {b : Byte} (h7 : b.getLsbD 7 = false) : chunkPixels b = b.toNat % 64 + 8 := by
  rw [chunkPixels, if_pos ((extract7_iff b).2 h7), BitVec.extractLsb'_toNat, Nat.shiftRight_zero]

theorem chunkPixels_uncomp {b : Byte} (h7 : b.getLsbD 7 = true) (h6 : b.getLsbD 6 = false) : chunkPixels b = 6 := by
  rw [chunkPixels, if_neg (by rw [extract7_iff, h7]; decide), if_pos ((extract6_iff b).2 h6)]

theorem chunkPixels_short {b : Byte} (h7 : b.getLsbD 7 = true) (h6 : b.getLsbD 6 = true) :
    chunkPixels b = b.toNat / 4 % 8 + 1 + b.toNat % 4 + 1 := by
  rw [chunkPixels, if_neg (by rw [extract7_iff, h7]; decide), if_neg (by rw [extract6_iff, h6]; decide), BitVec.extractLsb'_toNat,
    BitVec.extractLsb'_toNat, Nat.shiftRight_eq_div_pow, Nat.shiftRight_zero, Nat.add_assoc _ _ 1]

theorem chunkPixels_bounds (b : Byte) : 2 ≤ chunkPixels b ∧ chunkPixels b ≤ 71 := by
  cases h7 : b.getLsbD 7 with
  | false => rw [chunkPixels_long h7]; omega
  | true =>
    cases h6 : b.getLsbD 6 with
    | false => rw [chunkPixels_uncomp h7 h6]; decide
    | true => rw [chunkPixels_short h7 h6]; omega

/-! ### The obligations -/

/-- Settles O1: each form's decoder reads back the fields that its layout wrote, an operand in its range fitting its field. -/
theorem decodeEncodeRoundTrip : Obligations.DecodeEncodeRoundTrip := by
  unfold Obligations.DecodeEncodeRoundTrip
  intro i hwf
  cases i with
  | long c n =>
    simp only [Instr.wf, Bool.and_eq_true, decide_eq_true_eq] at hwf
    obtain ⟨low, high⟩ := hwf
    exact congrArg Except.ok (decodeChunk_longByte c low high)
  | uncomp p => exact congrArg Except.ok (decodeChunk_uncompByte p)
  | short c r1 r2 =>
    simp only [Instr.wf, Bool.and_eq_true, decide_eq_true_eq] at hwf
    obtain ⟨⟨low1, high1⟩, low2, high2⟩ := hwf
    exact congrArg Except.ok (decodeChunk_shortByte c low1 high1 low2 high2)
  | header c0 w h =>
    rw [encode, decode_header_of_magic rfl (isMagic1_headerByte1 c0), headerByte1_bit0, highByte_append_lowByte, highByte_append_lowByte]
  | curReset | curRead | encInit | encStep | encRun | decInit | decPixel => rfl

/-- Settles O2: the fields that a form's decoder reads, put back in the form's layout, give the form. -/
theorem encodeDecodeRoundTrip : Obligations.EncodeDecodeRoundTrip := by
  unfold Obligations.EncodeDecodeRoundTrip
  intro c i h
  cases c with
  | chunk b =>
    cases h
    exact ⟨encode_decodeChunk b, decodeChunk_wf b⟩
  | header b0 b1 b2 b3 b4 b5 =>
    obtain ⟨rfl, h1, rfl⟩ := decode_header_ok h
    refine ⟨?_, rfl⟩
    rw [encode, headerByte1_of_isMagic1 h1, lowByte_append, highByte_append, lowByte_append, highByte_append]
  | command w =>
    rcases decode_command_cases h with
      ⟨rfl, rfl⟩ | ⟨rfl, rfl⟩ | ⟨rfl, rfl⟩ | ⟨rfl, rfl⟩ | ⟨rfl, rfl⟩ | ⟨rfl, rfl⟩ | ⟨rfl, rfl⟩ <;>
      exact ⟨rfl, rfl⟩

/-- Settles O6: a word outside the table is rejected, so its write raises ILLEGAL_CMD unless a fault is set; of the 256 CODE
values seven are in the table. -/
theorem illegalCommandWords : Obligations.IllegalCommandWords := by
  unfold Obligations.IllegalCommandWords
  refine ⟨fun w s hb illegal => ?_, rejectedCodes_length⟩
  obtain ⟨r, hd⟩ := decode_command_error illegal
  rw [hostWrite_cmd w hb]
  exact ⟨fun hf => writeCmd_of_error hf hd, fun hf => writeCmd_of_fault w hf⟩

/-- Settles O3: the decoder, run on each of the spec's words. -/
theorem specExampleWordsDecode : Obligations.SpecExampleWordsDecode := by
  unfold Obligations.SpecExampleWordsDecode
  exact ⟨rfl, rfl, rfl, rfl, rfl, rfl, rfl, rfl, rfl⟩

/-- Settles O4: the bytes as numbers, and the two magics that the decoder tests. -/
theorem headerLayout : Obligations.HeaderLayout := by
  unfold Obligations.HeaderLayout
  refine ⟨fun c0 w h => ?_, fun b0 b1 b2 b3 b4 b5 => ⟨fun ⟨h0, h1⟩ => ?_, fun magic => ?_⟩⟩
  · rw [encode, headerByte1_eq_ofNat, lowByte_eq_ofNat, highByte_eq_ofNat, lowByte_eq_ofNat, highByte_eq_ofNat]
  · rw [decode_header_of_magic h0 ((isMagic1_iff b1).2 h1), append_eq_ofNat, append_eq_ofNat]
    exact congrArg (fun c => Except.ok (Instr.header c _ _)) (shift_bit b1 0)
  · cases hd : decode (.header b0 b1 b2 b3 b4 b5) with
    | error r => exact ⟨r, rfl⟩
    | ok i =>
      obtain ⟨h0, h1, -⟩ := decode_header_ok hd
      exact absurd ⟨h0, (isMagic1_iff b1).1 h1⟩ magic

/-- Settles O5: the count by kind and its bounds, reached by the bytes 0xC0 and 0x3F. -/
theorem chunkPixelCount : Obligations.ChunkPixelCount := by
  unfold Obligations.ChunkPixelCount
  refine ⟨fun b => ?_, ⟨0xC0#8, rfl⟩, ⟨0x3F#8, rfl⟩⟩
  obtain ⟨low, high⟩ := chunkPixels_bounds b
  exact ⟨chunkPixels_long, chunkPixels_uncomp, chunkPixels_short, low, high, chunkExpansion_length b⟩

end Sys2Proof.Machine
end

section
/-! PROOFS. The cursor: which bit a pixel is, the two cursor commands with what they leave unchanged, and the moves to a raster position
(spec/40_cursor.md R121 to R132). -/

namespace Sys2Proof.Machine

/-! ### The pixel at a position (R121) -/

theorem pixelAt_eq_ofBool (s : State) (x y : Nat) :
    pixelAt s x y = BitVec.ofBool ((memRead s (pixelAddr s x y)).getLsbD (pixelBit x)) :=
  shift_bit _ _

/-- Settles O18: the pixel at a raster position is the one at its coordinates, a bit of the byte that their address names. -/
theorem pixelAddressing : Obligations.PixelAddressing := by
  unfold Obligations.PixelAddressing
  refine ⟨fun s x y hx hy => (pix_lin hx hy).trans (pixelAt_eq_ofBool s x y), fun s base pitch => ⟨?_, rfl⟩⟩
  rw [pixelAddr, State.P, base, pitch]
  rfl

/-! ### CUR_RESET and CUR_READ (R125, R126) -/

theorem exec_curReset (s : State) : exec .curReset s = .next (completed { s with enc := s.enc.atOrigin }) := rfl

theorem exec_curRead (s : State) : exec .curRead s = .next (completed (curReadEffect s)) := rfl

/-- A sentinel read (R123). -/
theorem curReadEffect_atEnd {s : State} (h : s.H ≤ s.enc.y.toNat ∨ s.W = 0) :
    curReadEffect s = { s with enc := { s.enc with curPixel := 0#1 } } :=
  if_pos ((cursorAtEnd_iff s).2 h)

theorem curReadEffect_inside {s : State} (hx : s.enc.x.toNat < s.W) (hy : s.enc.y.toNat < s.H) :
    curReadEffect s = advanceCursor { s with enc := { s.enc with curPixel := pixelAt s s.enc.x.toNat s.enc.y.toNat } } := by
  have inside : s.cursorAtEnd = false := (cursorAtEnd_false_iff s).2 ⟨hy, by omega⟩
  rw [curReadEffect, inside]
  rfl

theorem advanceCursor_frame (s : State) :
    advanceCursor s = { s with enc := { s.enc with x := (advanceCursor s).enc.x, y := (advanceCursor s).enc.y } } := by
  unfold advanceCursor
  split <;> rfl

theorem curReadEffect_frame (s : State) :
    curReadEffect s = { s with
      enc := { s.enc with
        x := (curReadEffect s).enc.x, y := (curReadEffect s).enc.y, curPixel := (curReadEffect s).enc.curPixel } } := by
  unfold curReadEffect
  split
  · rfl
  · rw [advanceCursor_curPixel]
    exact advanceCursor_frame _

/-- Settles O20: at the end the read is the sentinel's, and inside the raster it is the pixel there and one Advance. -/
theorem curReadReadsAndAdvances : Obligations.CurReadReadsAndAdvances := by
  unfold Obligations.CurReadReadsAndAdvances
  refine ⟨rfl, fun s => ⟨fun atEnd => ?_, fun hx hy => ⟨_, exec_curRead s, ?_⟩⟩⟩
  · rw [exec_curRead, curReadEffect_atEnd atEnd]
    rfl
  · obtain ⟨position, column, -⟩ := advanceCursor_spec (s := { s with
      enc := { s.enc with curPixel := pixelAt s s.enc.x.toNat s.enc.y.toNat } }) hx hy
    rw [← curReadEffect_inside hx hy] at position column
    refine ⟨?_, position, column, congrArg completed (curReadEffect_frame s)⟩
    rw [completed_enc, curReadEffect_inside hx hy, advanceCursor_curPixel, pix_lin hx hy]

/-- Settles O21: at the end neither the read nor `Pix` looks at memory. -/
theorem sentinelReadIgnoresMemory : Obligations.SentinelReadIgnoresMemory := by
  unfold Obligations.SentinelReadIgnoresMemory
  intro s m atEnd
  refine ⟨_, exec_curRead _, ?_⟩
  rw [curReadEffect_atEnd (s := { s with mem := m }) atEnd]
  exact ⟨rfl, rfl, rfl, rfl, rfl, fun i hi => pix_sentinel (s := { s with mem := m }) hi⟩

/-- Settles O37: CUR_RESET sets two coordinates, CUR_READ is its effect, and `completed` clears the flag. -/
theorem cursorCommandsFrame : Obligations.CursorCommandsFrame := by
  unfold Obligations.CursorCommandsFrame
  intro s i hi
  simp only [List.mem_cons, List.not_mem_nil, or_false] at hi
  rcases hi with rfl | rfl
  · exact ⟨_, exec_curReset s, rfl, memRead_congr rfl, fun _ => rfl⟩
  · exact ⟨_, exec_curRead s, congrArg completed (curReadEffect_frame s), memRead_congr (curReadEffect_mem s), nofun⟩

/-- Settles O22: CUR_RESET is the origin and the cleared flag in every state. -/
theorem curResetMovesToOrigin : Obligations.CurResetMovesToOrigin := by
  unfold Obligations.CurResetMovesToOrigin
  exact ⟨rfl, exec_curReset⟩

/-! ### Moves to a raster position (R127, R128) -/

/-- In a raster with a column, a cursor that meets the invariant is inside a row, at the end too. -/
theorem State.cursorInv.x_lt {s : State} (h : s.cursorInv) (hw : 1 ≤ s.W) : s.enc.x.toNat < s.W := by
  rcases h with ⟨hx, -⟩ | ⟨hx, -⟩ | ⟨hx, -⟩
  · exact hx
  · rwa [hx]
  · rwa [hx]

theorem State.cursorInv.cursorLin_le {s : State} (h : s.cursorInv) : s.cursorLin ≤ s.N := by
  rcases h with ⟨hx, hy⟩ | ⟨hx, hy⟩ | ⟨hx, hy⟩
  · exact Nat.le_of_lt (cursorLin_lt hx hy)
  · rw [State.cursorLin, hx, hy, State.N, Nat.mul_comm]
    exact Nat.le_refl _
  · simp [State.cursorLin, hx, hy]

theorem setLin_frame (i : Nat) (s : State) :
    setLin i s = { s with enc := { s.enc with x := (setLin i s).enc.x, y := (setLin i s).enc.y } } := rfl

/-- Division by the width takes the position of a cursor inside a row apart again. -/
theorem setLin_cursorLin_self {s : State} (hx : s.enc.x.toNat < s.W) : setLin s.cursorLin s = s := by
  have column : s.cursorLin % s.W = s.enc.x.toNat := Nat.mul_add_mod_of_lt hx
  have row : s.cursorLin / s.W = s.enc.y.toNat := by
    rw [State.cursorLin, Nat.mul_comm, Nat.mul_add_div (Nat.zero_lt_of_lt hx), Nat.div_eq_of_lt hx, Nat.add_zero]
  rw [setLin, column, row, BitVec.ofNat_toNat, BitVec.ofNat_toNat, BitVec.setWidth_eq, BitVec.setWidth_eq]

theorem setLin_N_eq_end {s : State} (hw : 1 ≤ s.W) : (setLin s.N s).enc.x = 0#16 ∧ (setLin s.N s).enc.y = s.heightField := by
  refine ⟨BitVec.eq_of_toNat_eq ?_, BitVec.eq_of_toNat_eq ?_⟩
  · rw [setLin_x_toNat _ hw, State.N, Nat.mul_mod_right]
    rfl
  · rw [setLin_y_toNat (Nat.le_refl _), State.N, Nat.mul_div_cancel_left _ hw]
    rfl

theorem setLin_cursorInv {s : State} {i : Nat} (hw : 1 ≤ s.W) (hi : i ≤ s.N) : (setLin i s).cursorInv :=
  cursorInv_of_position (s := setLin i s) hw hi (setLin_x_toNat i hw) (setLin_y_toNat hi)

/-- Settles O23: `i` is its quotient and remainder by the width, which fit the coordinates. -/
theorem setLinIsInverse : Obligations.SetLinIsInverse := by
  unfold Obligations.SetLinIsInverse
  exact ⟨fun s i hw hi => ⟨setLin_x_toNat i hw, setLin_y_toNat hi, setLin_cursorLin hw hi, setLin_frame i s⟩,
    fun _ hw => setLin_N_eq_end hw, fun _ hw hinv => setLin_cursorLin_self (hinv.x_lt hw)⟩

/-- Settles O24: a rewind is SetLin at the position `k` earlier, which is no more than `N`. -/
theorem rewindMovesBack : Obligations.RewindMovesBack := by
  unfold Obligations.RewindMovesBack
  intro s k hw hinv _
  have inRange : s.cursorLin - k ≤ s.N := Nat.le_trans (Nat.sub_le _ _) hinv.cursorLin_le
  exact ⟨setLin_cursorLin hw inRange, setLin_cursorInv hw inRange, setLin_frame _ s⟩

end Sys2Proof.Machine
end

section
/-! PROOFS. One pass of the encoder: run detection, the chunk that the runs at a position choose, and the pixels it stands for
(spec/41_encoder.md R142 to R161). -/

namespace Sys2Proof.Machine

/-! ### Run detection (R142, R161) -/

/-- There are two colours. -/
theorem bit_eq_one_sub_of_ne : ∀ {a b : Bit}, a ≠ b → a = 1#1 - b := by decide

theorem one_sub_bit_toNat : ∀ c : Bit, (1#1 - c).toNat = 1 - c.toNat := by decide

/-- Past the last pixel run detection counts nothing. -/
theorem IsRun.eq_zero_of_end {s : State} {i r : Nat} (h : IsRun s i r) (hi : s.N ≤ i) : r = 0 := by
  have := h.inside
  omega

/-- A run below the cap that does not reach the image end stops at a pixel of the other colour. -/
theorem IsRun.next_pixel {s : State} {i r : Nat} (h : IsRun s i r) (short : r < 71) (inside : i + r < s.N) :
    pix s (i + r) = 1#1 - pix s i :=
  bit_eq_one_sub_of_ne ((h.stop.resolve_left (Nat.ne_of_lt short)).resolve_left (Nat.not_le.2 inside))

/-- The pixels of a run, read one by one, up to any length the run has. -/
theorem IsRun.map_pix {s : State} {i r n : Nat} (h : IsRun s i r) (hn : n ≤ r) :
    (List.range n).map (fun k => pix s (i + k)) = List.replicate n (pix s i) := by
  refine List.eq_replicate_iff.2 ⟨by simp, fun b hb => ?_⟩
  obtain ⟨k, hk, rfl⟩ := List.mem_map.1 hb
  exact h.same k (Nat.lt_of_lt_of_le (List.mem_range.1 hk) hn)

/-- The values at `m + n` positions are those at the first `m` and then those at the `n` behind them. -/
theorem map_range_add {α : Type} (f : Nat → α) (m n : Nat) :
    (List.range (m + n)).map f = (List.range m).map f ++ (List.range n).map fun k => f (m + k) := by
  rw [List.range_add, List.map_append, List.map_map]
  rfl

/-- The second run is empty exactly when the first reached the image end. -/
theorem IsRun.second_eq_zero_iff {s : State} {i r1 r2 : Nat} (hi : i < s.N) (h1 : IsRun s i r1) (h2 : IsRun s (i + r1) r2) :
    r2 = 0 ↔ i + r1 = s.N := by
  obtain ⟨-, inside⟩ := h1.bounds hi
  constructor
  · intro empty
    rcases Nat.lt_or_eq_of_le inside with notEnd | atEnd
    · have pos := (h2.bounds notEnd).1
      omega
    · exact atEnd
  · intro atEnd
    exact h2.eq_zero_of_end (Nat.le_of_eq atEnd.symm)

/-! ### The chunk bytes as numbers (R91 to R93) -/

theorem longByte_eq_ofNat (c : Bit) {n : Nat} (low : 8 ≤ n) (high : n ≤ 71) :
    longByte c n = BitVec.ofNat 8 (c.toNat * 64 + (n - 8)) := by
  apply BitVec.eq_of_toNat_eq
  have hc := c.isLt
  simp only [longByte, append_toNat, BitVec.toNat_ofNat, Config.longBias]
  omega

theorem uncompByte_eq_ofNat (p : BitVec 6) : uncompByte p = BitVec.ofNat 8 (128 + p.toNat) := by
  apply BitVec.eq_of_toNat_eq
  have hp := p.isLt
  simp only [uncompByte, append_toNat, BitVec.toNat_ofNat]
  omega

theorem uncompLiteral_toNat (s : State) (i : Nat) :
    (uncompLiteral s i).toNat = (pix s i).toNat * 32 + (pix s (i + 1)).toNat * 16 + (pix s (i + 2)).toNat * 8
      + (pix s (i + 3)).toNat * 4 + (pix s (i + 4)).toNat * 2 + (pix s (i + 5)).toNat := by
  simp only [uncompLiteral, append_toNat]
  omega

theorem shortByte_eq_ofNat (c : Bit) {r1 r2 : Nat} (low1 : 1 ≤ r1) (high1 : r1 ≤ 8) (low2 : 1 ≤ r2) (high2 : r2 ≤ 4) :
    shortByte c r1 r2 = BitVec.ofNat 8 (192 + c.toNat * 32 + (r1 - 1) * 4 + (r2 - 1)) := by
  obtain ⟨field1, rfl⟩ := Nat.exists_eq_add_of_le' low1
  obtain ⟨field2, rfl⟩ := Nat.exists_eq_add_of_le' low2
  apply BitVec.eq_of_toNat_eq
  have hc := c.isLt
  simp only [shortByte, shortFieldByte, append_toNat, BitVec.toNat_ofNat, Nat.add_sub_cancel]
  rw [Nat.mod_eq_of_lt (a := field1) (by omega), Nat.mod_eq_of_lt (a := field2) (by omega), Nat.mod_eq_of_lt (b := 2 ^ 8) (by omega)]
  omega

/-- The second field of the SHORT at the image end is that of a run of one pixel (R149). -/
theorem tailByte_eq_shortByte (c : Bit) (r1 : Nat) : shortFieldByte c r1 0#2 = shortByte c r1 1 := rfl

/-! ### The pixels of the chunk bytes -/

theorem chunkExpansion_longByte (c : Bit) {n : Nat} (low : 8 ≤ n) (high : n ≤ 71) :
    chunkExpansion (longByte c n) = List.replicate n c := by
  rw [chunkExpansion, decodeChunk_longByte c low high]

theorem chunkExpansion_shortByte (c : Bit) {r1 r2 : Nat} (low1 : 1 ≤ r1) (high1 : r1 ≤ 8) (low2 : 1 ≤ r2) (high2 : r2 ≤ 4) :
    chunkExpansion (shortByte c r1 r2) = List.replicate r1 c ++ List.replicate r2 (1#1 - c) := by
  rw [chunkExpansion, decodeChunk_shortByte c low1 high1 low2 high2]

theorem extractLsb'_zero_append_bit {n : Nat} (p : BitVec n) (b : Bit) : (p ++ b).extractLsb' 0 1 = b :=
  BitVec.extractLsb'_append_eq_right

theorem extractLsb'_succ_append_bit {n : Nat} (p : BitVec n) (b : Bit) (k : Nat) :
    (p ++ b).extractLsb' (k + 1) 1 = p.extractLsb' k 1 :=
  BitVec.extractLsb'_append_eq_of_le (Nat.le_add_left 1 k)

/-- The six literal pixels come back in raster order, bit 5 first (R92, R147). -/
theorem chunkExpansion_uncompLiteral (s : State) (i : Nat) :
    chunkExpansion (uncompByte (uncompLiteral s i)) = (List.range 6).map fun k => pix s (i + k) := by
  have bits : ∀ a b c d e f : Bit, let p := a ++ b ++ c ++ d ++ e ++ f
      [p.extractLsb' 5 1, p.extractLsb' 4 1, p.extractLsb' 3 1, p.extractLsb' 2 1, p.extractLsb' 1 1, p.extractLsb' 0 1] =
        [a, b, c, d, e, f] := by
    intro a b c d e f p
    simp only [p, extractLsb'_zero_append_bit, extractLsb'_succ_append_bit, BitVec.extractLsb'_eq_self]
  rw [chunkExpansion, decodeChunk_uncompByte]
  exact bits _ _ _ _ _ _

/-! ### The four branches of a pass (R145, R147 to R149) -/

section
variable {s : State} {i r1 r2 : Nat} (h1 : IsRun s i r1) (h2 : IsRun s (i + r1) r2)
include h1 h2

theorem encPass_long (long : 8 < r1) : encPass s i = (longByte (pix s i) r1, i + r1) := by
  rw [encPass_of_runs h1 h2, if_pos long]

theorem encPass_uncomp (short : r1 ≤ 8) (few : r1 + r2 < 7) :
    encPass s i = (uncompByte (uncompLiteral s i), min (i + 6) s.N) := by
  rw [encPass_of_runs h1 h2, if_neg (Nat.not_lt.2 short), if_pos few]

theorem encPass_short (short : r1 ≤ 8) (many : 7 ≤ r1 + r2) (second : 1 ≤ r2) :
    encPass s i = (shortByte (pix s i) r1 (min r2 4), i + r1 + min r2 4) := by
  rw [encPass_of_runs h1 h2, if_neg (Nat.not_lt.2 short), if_neg (Nat.not_lt.2 many), if_pos second]

theorem encPass_tail (hi : i < s.N) (short : r1 ≤ 8) (many : 7 ≤ r1 + r2) (empty : r2 = 0) :
    encPass s i = (shortByte (pix s i) r1 1, i + r1) := by
  rw [encPass_of_runs h1 h2, if_neg (Nat.not_lt.2 short), if_neg (Nat.not_lt.2 many), if_neg (by omega),
    (h1.second_eq_zero_iff hi h2).1 empty, tailByte_eq_shortByte]

end

/-- Every pass takes one of the four branches. -/
theorem encPass_cases {s : State} {i r1 r2 : Nat} (hi : i < s.N) (h1 : IsRun s i r1) (h2 : IsRun s (i + r1) r2) :
    (8 < r1 ∧ encPass s i = (longByte (pix s i) r1, i + r1)) ∨
    (r1 + r2 < 7 ∧ encPass s i = (uncompByte (uncompLiteral s i), min (i + 6) s.N)) ∨
    (r1 ≤ 8 ∧ 7 ≤ r1 + r2 ∧ 1 ≤ r2 ∧ encPass s i = (shortByte (pix s i) r1 (min r2 4), i + r1 + min r2 4)) ∨
    (7 ≤ r1 ∧ r1 ≤ 8 ∧ i + r1 = s.N ∧ encPass s i = (shortByte (pix s i) r1 1, i + r1)) := by
  rcases Nat.lt_or_ge 8 r1 with long | short
  · exact .inl ⟨long, encPass_long h1 h2 long⟩
  rcases Nat.lt_or_ge (r1 + r2) 7 with few | many
  · exact .inr (.inl ⟨few, encPass_uncomp h1 h2 short few⟩)
  rcases Nat.eq_zero_or_pos r2 with empty | second
  · exact .inr (.inr (.inr ⟨by omega, short, (h1.second_eq_zero_iff hi h2).1 empty, encPass_tail h1 h2 hi short many empty⟩))
  · exact .inr (.inr (.inl ⟨short, many, second, encPass_short h1 h2 short many second⟩))

/-- Only the last pass moves on by less than 5 (R157). -/
theorem encPass_progress {s : State} {i : Nat} (hi : i < s.N) (notLast : (encPass s i).2 < s.N) : i + 5 ≤ (encPass s i).2 := by
  obtain ⟨r1, r2, h1, h2⟩ := exists_runs s i
  obtain ⟨pos, -⟩ := h1.bounds hi
  rcases encPass_cases hi h1 h2 with ⟨long, e⟩ | ⟨-, e⟩ | ⟨-, many, second, e⟩ | ⟨-, -, atEnd, e⟩ <;>
    simp only [e] at notLast ⊢
  · exact Nat.add_le_add_left (Nat.le_trans (by decide) long) i
  · rw [Nat.min_eq_left (by omega)]
    exact Nat.add_le_add_left (by decide) i
  · omega
  · exact absurd notLast (Nat.not_lt.2 (Nat.le_of_eq atEnd.symm))

/-- The chunk of a pass holds the pixels that the pass moves over, and behind them only the excess of a pass that ends at the image
end (R158). -/
theorem encPass_expansion {s : State} {i : Nat} (hi : i < s.N) :
    ∃ excess : List Bit,
      chunkExpansion (encPass s i).1 = (List.range ((encPass s i).2 - i)).map (fun k => pix s (i + k)) ++ excess ∧
        excess.length ≤ 5 ∧ ((encPass s i).2 < s.N → excess = []) := by
  obtain ⟨r1, r2, h1, h2⟩ := exists_runs s i
  obtain ⟨pos, inside⟩ := h1.bounds hi
  rcases encPass_cases hi h1 h2 with ⟨long, e⟩ | ⟨-, e⟩ | ⟨short, many, second, e⟩ | ⟨low, high, atEnd, e⟩ <;> rw [e]
  · refine ⟨[], ?_, by simp, fun _ => rfl⟩
    simp only [Nat.add_sub_cancel_left, List.append_nil]
    rw [chunkExpansion_longByte _ (Nat.le_of_lt long) h1.cap, h1.map_pix (Nat.le_refl _)]
  · obtain ⟨moved, hmoved⟩ : ∃ n, n = min (i + 6) s.N - i := ⟨_, rfl⟩
    refine ⟨(List.range (6 - moved)).map fun k => pix s (i + (moved + k)), ?_, ?_, fun notLast => ?_⟩
    · simp only
      rw [chunkExpansion_uncompLiteral, ← hmoved, ← map_range_add fun k => pix s (i + k), Nat.add_sub_cancel' (by omega)]
    · simp only [List.length_map, List.length_range]
      omega
    · simp only at notLast
      rw [show 6 - moved = 0 by omega]
      rfl
  · refine ⟨[], ?_, by simp, fun _ => rfl⟩
    have inside2 := h2.inside
    have colour := h1.next_pixel (by omega) (by omega)
    simp only [Nat.add_assoc i, Nat.add_sub_cancel_left, List.append_nil]
    rw [chunkExpansion_shortByte _ pos short (by omega) (Nat.min_le_right _ _), map_range_add, h1.map_pix (Nat.le_refl _), ← colour,
      ← h2.map_pix (Nat.min_le_left _ _)]
    simp only [Nat.add_assoc]
  · refine ⟨[1#1 - pix s i], ?_, by simp, fun notLast => ?_⟩
    · simp only [Nat.add_sub_cancel_left]
      rw [chunkExpansion_shortByte _ pos high (Nat.le_refl _) (by decide), h1.map_pix (Nat.le_refl _)]
      rfl
    · simp only at notLast
      omega

/-! ### The obligations -/

/-- Settles O25: the scan's result is a run, and a position has one run. -/
theorem runDetectionIsLongest : Obligations.RunDetectionIsLongest := by
  unfold Obligations.RunDetectionIsLongest
  intro s i
  have run := runDetect_isRun s i
  exact ⟨run, fun _ h => h.eq run, fun atEnd => ⟨run.eq_zero_of_end atEnd, pix_sentinel atEnd⟩,
    fun inside => ⟨(run.bounds inside).1, rfl⟩⟩

/-- Settles O26: a run of at most 8 is below the cap, so it stops at the image end or at the other colour. -/
theorem secondRunHasOtherColour : Obligations.SecondRunHasOtherColour := by
  unfold Obligations.SecondRunHasOtherColour
  intro s i hi short
  have h1 := runDetect_isRun s i
  have h2 := runDetect_isRun s (i + runDetect s i)
  refine ⟨h1.second_eq_zero_iff hi h2, fun second => ?_⟩
  have inside := h2.inside
  rw [runColor, runColor, h1.next_pixel (by omega) (by omega), one_sub_bit_toNat]

/-- Settles O27: the equation of each branch, with its byte as a number. -/
theorem passChoosesChunk : Obligations.PassChoosesChunk := by
  unfold Obligations.PassChoosesChunk
  intro s i r1 r2 hi h1 h2 c
  obtain ⟨pos, -⟩ := h1.bounds hi
  refine ⟨fun long => ?_, fun short few => ?_, fun short many second => ?_, fun short many empty => ?_⟩
  · rw [encPass_long h1 h2 long, longByte_eq_ofNat _ (Nat.le_of_lt long) h1.cap]
  · rw [encPass_uncomp h1 h2 short few, uncompByte_eq_ofNat, uncompLiteral_toNat]
    simp only [Nat.add_assoc]
  · rw [encPass_short h1 h2 short many second, shortByte_eq_ofNat _ pos short (by omega) (Nat.min_le_right _ _)]
  · have atEnd := (h1.second_eq_zero_iff hi h2).1 empty
    refine ⟨atEnd, ?_⟩
    rw [encPass_tail h1 h2 hi short many empty, shortByte_eq_ofNat _ pos short (Nat.le_refl _) (by decide), atEnd]
    rfl

/-- Settles O28: each branch's byte decodes to the operands the branch encoded. -/
theorem emittedChunkBounds : Obligations.EmittedChunkBounds := by
  unfold Obligations.EmittedChunkBounds
  intro s i hi
  obtain ⟨r1, r2, h1, h2⟩ := exists_runs s i
  obtain ⟨pos, -⟩ := h1.bounds hi
  rcases encPass_cases hi h1 h2 with ⟨long, e⟩ | ⟨few, e⟩ | ⟨short, many, second, e⟩ | ⟨low, high, -, e⟩ <;> rw [e]
  · exact .inl ⟨_, r1, congrArg Except.ok (decodeChunk_longByte _ (Nat.le_of_lt long) h1.cap), long, h1.cap⟩
  · exact .inr (.inr ⟨_, r1, r2, congrArg Except.ok (decodeChunk_uncompByte _), h1, h2, few⟩)
  · refine .inr (.inl ⟨_, r1, min r2 4, congrArg Except.ok (decodeChunk_shortByte _ pos short (by omega) (Nat.min_le_right _ _)),
      pos, short, by omega, Nat.min_le_right _ _, by omega, fun empty => ?_⟩)
    have := h2.eq empty
    omega
  · exact .inr (.inl ⟨_, r1, 1, congrArg Except.ok (decodeChunk_shortByte _ pos high (Nat.le_refl _) (by decide)),
      pos, high, Nat.le_refl _, by decide, .inr (by omega), fun _ => rfl⟩)

/-- Settles O29: the bounds hold in every branch, and each branch's equation gives its end. -/
theorem passProgress : Obligations.PassProgress := by
  unfold Obligations.PassProgress
  intro s i r1 r2 hi h1 h2
  obtain ⟨pos, -⟩ := h1.bounds hi
  obtain ⟨moves, inside⟩ := encPass_next_bounds hi
  refine ⟨moves, inside, encPass_progress hi, fun long => ?_, fun short few => ?_, fun short many second => ?_,
    fun short many empty => ?_⟩
  · rw [encPass_long h1 h2 long]
  · rw [encPass_uncomp h1 h2 short few]
  · rw [encPass_short h1 h2 short many second]
    exact ⟨rfl, by simp only; omega⟩
  · rw [encPass_tail h1 h2 hi short many empty]
    exact ⟨rfl, by omega⟩

/-- Settles O30: the expansion is the pixels moved over and the excess, and its length is the chunk's count of pixels. -/
theorem passEncodesItsPixels : Obligations.PassEncodesItsPixels := by
  unfold Obligations.PassEncodesItsPixels
  intro s i hi
  obtain ⟨excess, expansion, few, none⟩ := encPass_expansion hi
  have count : chunkPixels (encPass s i).1 = (encPass s i).2 - i + excess.length := by
    rw [← chunkExpansion_length, expansion, List.length_append, List.length_map, List.length_range]
  refine ⟨?_, by omega, by omega, fun notLast => ?_⟩
  · rw [expansion, List.take_left' (by simp)]
  · rw [count, none notLast]
    rfl

end Sys2Proof.Machine
end

section
/-! PROOFS. ENC_INIT and ENC_STEP: each command's faults, its refusal and its effect (spec/41_encoder.md R151 to R153, 20_memory.md R69,
R74). -/

namespace Sys2Proof.Machine

/-! ### ENC_INIT (R152) -/

theorem encInitFault_of_badGeometry {s : State} (h : ¬ geometryOk s) : encInitFault s = some .param := by
  have bad : paramsOk s = false := by rwa [Bool.eq_false_iff, ne_eq, paramsOk_iff]
  rw [encInitFault, if_pos bad]

theorem encInitFault_of_noRoom {s : State} (h : geometryOk s) (full : s.outCap.toNat < 6) : encInitFault s = some .outOverflow := by
  have good : ¬ paramsOk s = false := by rw [(paramsOk_iff s).2 h]; decide
  rw [encInitFault, if_neg good, if_pos full]

theorem encInit_of_overlap {s : State} (hf : encInitFault s = none) (ho : headerOverlaps s = true) :
    exec .encInit s = .refused .rasterOverlap := by
  simp [exec, execEncInit, hf, ho]

theorem headerOverlaps_eq_false {s : State} (h : ∀ k < 6, ¬ inRasterRegion s (s.outBase + BitVec.ofNat 32 k)) :
    headerOverlaps s = false := by
  rw [Bool.eq_false_iff, ne_eq, headerOverlaps_iff]
  rintro ⟨k, hk, inside⟩
  exact h k hk inside

/-- The first pixel is the top bit of the raster's first byte. -/
theorem pix_zero_eq_ofBool {s : State} (h : geometryOk s) : pix s 0 = BitVec.ofBool ((memRead s s.rasterBase).getLsbD 7) := by
  have address : pixelAddr s 0 0 = s.rasterBase := by rw [pixelAddr, Nat.zero_mul, Nat.zero_div, byteAddr_zero]
  rw [pix_zero h, pixelAt_eq_ofBool, address]
  rfl

/-- The header's six bytes as numbers (R151). -/
theorem headerBytes_eq {s : State} (h : geometryOk s) :
    headerBytes s =
      [0xFE#8, BitVec.ofNat 8 (0xEC + (pix s 0).toNat), BitVec.ofNat 8 (s.W % 256), BitVec.ofNat 8 (s.W / 256),
        BitVec.ofNat 8 (s.H % 256), BitVec.ofNat 8 (s.H / 256)] := by
  rw [headerBytes, ← pix_zero h, headerByte1_eq_ofNat, lowByte_eq_ofNat, highByte_eq_ofNat, lowByte_eq_ofNat, highByte_eq_ofNat]
  rfl

/-- Byte `j` of the header, once ENC_INIT has completed. -/
theorem memRead_encInit_header {s : State} (hwf : s.mem.wf = true) {j : Nat} {b : Byte} (hb : (headerBytes s)[j]? = some b) :
    memRead (completed (encInitEffect s)) (s.outBase + BitVec.ofNat 32 j) = b := by
  obtain ⟨hj, rfl⟩ := List.getElem?_eq_some_iff.1 hb
  exact (memRead_congr (completed_mem _) _).trans (memRead_encInitEffect hwf j hj)

theorem completed_encInitEffect_frame (s : State) :
    completed (encInitEffect s) = { s with
      enc := { s.enc with x := 0#16, y := 0#16, outLen := 6#32, phase := .running }, mem := (encInitEffect s).mem,
      invalidFormat := false } := by
  have frame := encInitEffect_frame s
  generalize encInitEffect s = u at *
  rw [completed, frame]

/-- Settles O31: the two faults in their order, then the refusal, then the header written and the session started. -/
theorem encInitOutcomes : Obligations.EncInitOutcomes := by
  unfold Obligations.EncInitOutcomes
  refine ⟨rfl, fun s hwf => ⟨fun bad => encInit_of_fault (encInitFault_of_badGeometry bad),
    fun hg full => encInit_of_fault (encInitFault_of_noRoom hg full),
    fun hg room overlap => encInit_of_overlap (encInitFault_of_ok hg room) ((headerOverlaps_iff s).2 overlap), fun hg room clear => ?_⟩⟩
  have header := headerBytes_eq hg
  have first := memRead_encInit_header hwf (j := 0) (by rw [header]; rfl)
  rw [BitVec.add_zero] at first
  refine ⟨_, encInit_of_ok (encInitFault_of_ok hg room) (headerOverlaps_eq_false clear), completed_encInitEffect_frame s,
    pix_zero_eq_ofBool hg, first, ?_, ?_, ?_, ?_, ?_,
    fun a ha => (memRead_congr (completed_mem _) a).trans (memRead_encInitEffect_of_ne ha)⟩
  all_goals exact memRead_encInit_header hwf (by rw [header]; rfl)

/-! ### ENC_STEP (R153) -/

theorem encStepFault_of_idle {s : State} (idle : s.enc.phase = .idle) : encStepFault s = some .encNotReady := by
  rw [encStepFault, if_pos idle]

theorem encStepFault_of_noRoom {s : State} (he : emits s = true) (full : s.outCap.toNat ≤ s.enc.outLen.toNat) :
    encStepFault s = some .outOverflow := by
  have running := ((emits_iff s).1 he).1
  simp [encStepFault, running, he, full]

theorem encStepFault_of_not_emits {s : State} (active : s.enc.phase ≠ .idle) (he : emits s = false) : encStepFault s = none := by
  simp [encStepFault, active, he]

theorem encStepFault_of_room {s : State} (active : s.enc.phase ≠ .idle) (room : s.enc.outLen.toNat < s.outCap.toNat) :
    encStepFault s = none := by
  simp [encStepFault, active, room]

theorem encStep_of_overlap {s : State} (hf : encStepFault s = none) (he : emits s = true) (ho : chunkOverlaps s = true) :
    exec .encStep s = .refused .rasterOverlap := by
  simp [exec, execEncStep, hf, he, ho]

/-- A step that is to emit nothing has no capacity to check and no byte to refuse. -/
theorem encStep_of_not_emits {s : State} (active : s.enc.phase ≠ .idle) (he : emits s = false) :
    exec .encStep s = .next (completed (encStepEffect s)) :=
  encStep_of_ok (encStepFault_of_not_emits active he) (by rw [he]; rfl)

theorem encStep_of_done {s : State} (done : s.enc.phase = .done) : exec .encStep s = .next (completed s) := by
  have quiet : emits s = false := by simp [emits, done]
  have same : encStepEffect s = s := by simp [encStepEffect, done]
  rw [encStep_of_not_emits (by simp [done]) quiet, same]

theorem encStep_of_atEnd {s : State} (running : s.enc.phase = .running) (atEnd : s.cursorAtEnd = true) :
    exec .encStep s = .next (completed { s with enc := { s.enc with phase := .done } }) := by
  have quiet : emits s = false := by simp [emits, atEnd]
  have closed : encStepEffect s = { s with enc := { s.enc with phase := .done } } := by
    simp [encStepEffect, running, atEnd, closeIfAtEnd]
  rw [encStep_of_not_emits (by simp [running]) quiet, closed]

/-- A step with a chunk to write, room for it and the raster clear of it is one pass. -/
theorem encStep_of_emits {s : State} (he : emits s = true) (room : s.enc.outLen.toNat < s.outCap.toNat)
    (clear : ¬ inRasterRegion s (s.outBase + s.enc.outLen)) :
    exec .encStep s = .next (completed (closeIfAtEnd (emitChunk s))) := by
  have running := ((emits_iff s).1 he).1
  have apart : chunkOverlaps s = false := by rwa [Bool.eq_false_iff, ne_eq, chunkOverlaps_iff]
  rw [encStep_of_ok (encStepFault_of_room (by simp [running]) room) (by rw [apart, Bool.and_false]), encStepEffect_emits he]

/-- OUT_LEN has room below OUT_CAP, so it does not wrap. -/
theorem emitChunk_outLen {s : State} (room : s.enc.outLen.toNat < s.outCap.toNat) :
    (emitChunk s).enc.outLen.toNat = s.enc.outLen.toNat + 1 := by
  have bound := s.outCap.isLt
  simp only [emitChunk_enc, BitVec.toNat_add, BitVec.toNat_ofNat]
  omega

@[simp] theorem closeIfAtEnd_x (s : State) : (closeIfAtEnd s).enc.x = s.enc.x := by rw [closeIfAtEnd_enc]

@[simp] theorem closeIfAtEnd_y (s : State) : (closeIfAtEnd s).enc.y = s.enc.y := by rw [closeIfAtEnd_enc]

@[simp] theorem closeIfAtEnd_outLen (s : State) : (closeIfAtEnd s).enc.outLen = s.enc.outLen := by rw [closeIfAtEnd_enc]

/-- A RUNNING session stays RUNNING unless its cursor is at the end. -/
theorem closeIfAtEnd_phase {s : State} (running : s.enc.phase = .running) :
    (closeIfAtEnd s).enc.phase = if s.cursorAtEnd then .done else .running := by
  rw [closeIfAtEnd_enc, running]

/-- After a pass from inside the raster: the cursor at the pass's end, and DONE exactly where that is the image end. -/
theorem closeIfAtEnd_emitChunk_cursor {s : State} (running : s.enc.phase = .running) (hx : s.enc.x.toNat < s.W)
    (hy : s.enc.y.toNat < s.H) :
    (emitChunk s).enc.y.toNat * s.W + (emitChunk s).enc.x.toNat = (encPass s s.cursorLin).2 ∧
      (emitChunk s).enc.x.toNat < s.W ∧
      ((emitChunk s).enc.y.toNat < s.H → (closeIfAtEnd (emitChunk s)).enc.phase = .running) ∧
      (s.H ≤ (emitChunk s).enc.y.toNat → (closeIfAtEnd (emitChunk s)).enc.phase = .done) := by
  obtain ⟨column, -, position, -⟩ := emitChunk_cursor hx hy
  have pos : 0 < s.W := Nat.zero_lt_of_lt hx
  have phase := closeIfAtEnd_phase (s := emitChunk s) running
  have width : (emitChunk s).W = s.W := W_congr (emitChunk_rasterDim s)
  refine ⟨position, by rw [column]; exact Nat.mod_lt _ pos, fun inside => ?_, fun past => ?_⟩
  · rw [phase, (cursorAtEnd_false_iff (emitChunk s)).2 ⟨inside, width ▸ Nat.ne_of_gt pos⟩]
    rfl
  · rw [phase, (cursorAtEnd_iff (emitChunk s)).2 (.inl past)]
    rfl

/-- A completed step changes the encoder without CUR_PIXEL, memory and STATUS.INVALID_FORMAT. -/
theorem completed_encStepEffect_frame (s : State) :
    completed (encStepEffect s) = { s with
      enc := { (encStepEffect s).enc with curPixel := s.enc.curPixel }, mem := (encStepEffect s).mem, invalidFormat := false } := by
  have frame := encStepEffect_frame s
  generalize encStepEffect s = u at *
  rw [completed, frame]

/-- Settles O32: the phase and the cursor choose between the faults, the refusal, the end of a session and one pass. -/
theorem encStepOutcomes : Obligations.EncStepOutcomes := by
  unfold Obligations.EncStepOutcomes
  refine ⟨rfl, fun s hwf => ⟨fun idle => encStep_of_fault (encStepFault_of_idle idle), encStep_of_done,
    fun running atEnd => encStep_of_atEnd running ((cursorAtEnd_iff s).2 atEnd), fun running hw hy full => ?_,
    fun running hw hy room overlap => ?_, fun running hx hy room clear => ?_⟩⟩
  · exact encStep_of_fault (encStepFault_of_noRoom ((emits_iff s).2 ⟨running, hy, by omega⟩) full)
  · exact encStep_of_overlap (encStepFault_of_room (by simp [running]) room) ((emits_iff s).2 ⟨running, hy, by omega⟩)
      ((chunkOverlaps_iff s).2 overlap)
  have emitting : emits s = true := (emits_iff s).2 ⟨running, hy, by omega⟩
  have frame := completed_encStepEffect_frame s
  rw [encStepEffect_emits emitting] at frame
  have read : ∀ a, memRead (completed (closeIfAtEnd (emitChunk s))) a = memRead (emitChunk s) a :=
    fun a => (memRead_congr (completed_mem _) a).trans (closeIfAtEnd_mem' _ a)
  have cursor := closeIfAtEnd_emitChunk_cursor running hx hy
  refine ⟨_, encStep_of_emits emitting room clear, frame, (read _).trans (memRead_emitChunk hwf),
    fun a ha => (read a).trans (memRead_emitChunk_of_ne ha), ?_⟩
  rw [completed_enc, closeIfAtEnd_x, closeIfAtEnd_y, closeIfAtEnd_outLen]
  exact ⟨emitChunk_outLen room, cursor⟩

end Sys2Proof.Machine
end

section
/-! PROOFS. ENC_RUN: an ENC_INIT and its passes, the room it needs, and what its stream depends on (spec/41_encoder.md R154 to R162). -/

namespace Sys2Proof.Machine

/-! ### How far the passes of a session have come (R157) -/

/-- Each pass moves on by at least one pixel. -/
theorem le_passStart {s : State} {k : Nat} (before : ∀ j < k, passStart s j < s.N) : k ≤ passStart s k := by
  induction k with
  | zero => exact Nat.zero_le _
  | succ k ih =>
    have rest := ih fun j hj => before j (Nat.lt_succ_of_lt hj)
    have moves := (encPass_next_bounds (before k (Nat.lt_succ_self k))).1
    rw [passStart]
    omega

/-- Each pass that does not end at the image end moves on by at least 5. -/
theorem five_mul_le_passStart {s : State} {k : Nat} (before : ∀ j ≤ k, passStart s j < s.N) : 5 * k ≤ passStart s k := by
  induction k with
  | zero => exact Nat.zero_le _
  | succ k ih =>
    have rest := ih fun j hj => before j (Nat.le_succ_of_le hj)
    have moves := encPass_progress (before k (Nat.le_succ k)) (before (k + 1) (Nat.le_refl _))
    rw [passStart]
    omega

namespace Session

variable {s0 s : State} {k : Nat}

/-- A session has performed no more passes than there are pixels (R162). -/
theorem count_le (h : Session s0 s k) : k ≤ s0.N := Nat.le_trans (le_passStart h.before) h.inside

/-- A session that has come to the image end has performed a pass. -/
theorem count_pos (h : Session s0 s k) (atEnd : passStart s0 k = s0.N) : 1 ≤ k := by
  rcases Nat.eq_zero_or_pos k with rfl | pos
  · have := N_pos h.geometry
    rw [passStart] at atEnd
    omega
  · exact pos

/-- At most one pass in five pixels, until the image end (R155). -/
theorem count_le_of_inside (h : Session s0 s k) (inside : passStart s0 k < s0.N) : k ≤ (s0.N - 1) / 5 := by
  have far := five_mul_le_passStart (s := s0) (k := k) fun j hj =>
    (Nat.lt_or_eq_of_le hj).elim (h.before j) fun e => e ▸ inside
  omega

/-- At the image end, one pass more (R155). -/
theorem count_le_of_atEnd (h : Session s0 s k) (atEnd : passStart s0 k = s0.N) : k ≤ (s0.N - 1) / 5 + 1 := by
  have pos := h.count_pos atEnd
  have far := five_mul_le_passStart (s := s0) (k := k - 1) fun j hj => h.before j (by omega)
  have := h.before (k - 1) (by omega)
  omega

end Session

/-- Settles O33: an ENC_RUN without a fault is a whole session, whose passes are ENC_STEPs. -/
theorem encRunIsInitThenSteps : Obligations.EncRunIsInitThenSteps := by
  unfold Obligations.EncRunIsInitThenSteps
  intro s t hwf _ h ht
  obtain ⟨hg, room, apart, u, k, session, atEnd, steps, rfl⟩ := encRun_session hwf h ht
  obtain ⟨done, x, y⟩ := session.ended atEnd
  exact ⟨_, k, encInit_of_ok (encInitFault_of_ok hg room) apart, steps, session.count_pos atEnd, session.count_le, done, x, y,
    session.outLen⟩

/-- Settles O34: of the loop's three ends, two need a byte that the output region lacks or that lies in both regions. -/
theorem encRunCompletesWithRoom : Obligations.EncRunCompletesWithRoom := by
  unfold Obligations.EncRunCompletesWithRoom
  intro s hwf hf hg room apart
  have headerApart : headerOverlaps s = false := headerOverlaps_eq_false fun k hk => apart _ ⟨k, by omega, rfl⟩
  have loop := encRun_loopEnd hwf hg (by omega) headerApart
  generalize exec .encRun s = outcome at loop
  cases loop with
  | @done u n session atEnd _ =>
    rw [Nat.zero_add] at session atEnd
    obtain ⟨-, -, -, -, -, fault, -⟩ := session.registers
    have pos := session.count_pos atEnd
    have few := session.count_le_of_atEnd atEnd
    refine ⟨_, rfl, fault.trans hf, (session.ended atEnd).1, rfl, ?_, ?_⟩
    · rw [completed_enc, session.outLen]
      omega
    · rw [completed_enc, session.outLen]
      omega
  | @noRoom u n session inside _ full =>
    obtain ⟨-, cap, -⟩ := session.registers
    have few := session.count_le_of_inside inside
    have len := session.outLen
    rw [full, cap] at len
    omega
  | @overlap u n session _ overlap fits =>
    obtain ⟨-, cap, -⟩ := session.registers
    have inRaster := (session.inRaster_iff _).1 ((chunkOverlaps_iff u).1 overlap)
    rw [session.chunk_address] at inRaster
    rw [session.outLen, cap] at fits
    exact absurd inRaster (apart _ ⟨_, fits, rfl⟩)

/-! ### A raster of one colour (R159) -/

theorem isRun_zero_of_end {s : State} {i : Nat} (h : s.N ≤ i) : IsRun s i 0 :=
  ⟨Nat.zero_le _, .inl rfl, fun j hj => absurd hj (Nat.not_lt_zero j), .inr (.inl h)⟩

section
variable {s : State} {c : Bit} (same : ∀ i < s.N, pix s i = c)
include same

/-- In a raster of one colour only the cap and the image end stop a run. -/
theorem isRun_oneColour {i : Nat} (hi : i < s.N) : IsRun s i (min 71 (s.N - i)) where
  cap := Nat.min_le_left _ _
  inside := .inr (by omega)
  same := fun j hj => by rw [same _ (by omega), same i hi]
  stop := by omega

theorem encPass_oneColour_long {i : Nat} (long : i + 9 ≤ s.N) :
    encPass s i = (longByte c (min 71 (s.N - i)), i + min 71 (s.N - i)) := by
  have hi : i < s.N := by omega
  rw [encPass_long (isRun_oneColour same hi) (runDetect_isRun s _) (by omega), same i hi]

theorem encPass_oneColour_short {i : Nat} (low : i + 7 ≤ s.N) (high : s.N ≤ i + 8) :
    encPass s i = (shortByte c (s.N - i) 1, s.N) := by
  have hi : i < s.N := by omega
  have run := isRun_oneColour same hi
  rw [Nat.min_eq_right (by omega)] at run
  have empty : IsRun s (i + (s.N - i)) 0 := isRun_zero_of_end (by omega)
  rw [encPass_tail run empty hi (by omega) (by omega) rfl, same i hi, Nat.add_sub_cancel' (Nat.le_of_lt hi)]

theorem encPass_oneColour_uncomp {i : Nat} (hi : i < s.N) (few : s.N ≤ i + 6) :
    encPass s i = (uncompByte (uncompLiteral s i), s.N) := by
  have run := isRun_oneColour same hi
  have empty : IsRun s (i + min 71 (s.N - i)) 0 := isRun_zero_of_end (by omega)
  rw [encPass_uncomp run empty (by omega) (by omega), Nat.min_eq_right few]

/-- A pass moves on by 71 pixels or to the image end, whichever branch it takes. -/
theorem encPass_oneColour_next {i : Nat} (hi : i < s.N) : (encPass s i).2 = min (i + 71) s.N := by
  rcases Nat.lt_or_ge (i + 8) s.N with long | short
  · rw [encPass_oneColour_long same long]
    simp only
    omega
  rcases Nat.lt_or_ge (i + 6) s.N with many | few
  · rw [encPass_oneColour_short same many short, Nat.min_eq_right (by omega)]
  · rw [encPass_oneColour_uncomp same hi few, Nat.min_eq_right (by omega)]

/-- Until the image end every pass moves on by 71 pixels. -/
theorem passStart_oneColour {k : Nat} (before : ∀ j ≤ k, passStart s j < s.N) : passStart s k = 71 * k := by
  induction k with
  | zero => rfl
  | succ k ih =>
    have inside := before (k + 1) (Nat.le_refl _)
    rw [passStart, encPass_oneColour_next same (before k (Nat.le_succ k)), ih fun j hj => before j (Nat.le_succ_of_le hj)] at inside ⊢
    exact Nat.min_eq_left (by omega)

/-- The UNCOMP at the image end: the pixels that are left, then sentinels (R147, R123). -/
theorem chunkExpansion_oneColour_uncomp {i r : Nat} (pos : 1 ≤ r) (tail : i + r = s.N) (few : r ≤ 6) :
    chunkExpansion (uncompByte (uncompLiteral s i)) = List.replicate r c ++ List.replicate (6 - r) 0#1 := by
  have hi : i < s.N := by omega
  have real := (isRun_oneColour same hi).map_pix (n := r) (by omega)
  have past : (List.range (6 - r)).map (fun k => pix s (i + (r + k))) = List.replicate (6 - r) 0#1 := by
    refine List.eq_replicate_iff.2 ⟨by simp, fun b hb => ?_⟩
    obtain ⟨k, -, rfl⟩ := List.mem_map.1 hb
    exact pix_sentinel (by omega)
  rw [chunkExpansion_uncompLiteral, ← Nat.add_sub_cancel' few, map_range_add, real, past, same i hi, Nat.add_sub_cancel_left]

/-- A LONG of 71 wherever that many pixels are left. -/
theorem decode_oneColour_full {i : Nat} (full : i + 71 ≤ s.N) : decode (.chunk (encPass s i).1) = .ok (.long c 71) := by
  rw [encPass_oneColour_long same (Nat.le_trans (Nat.add_le_add_left (by decide) i) full), Nat.min_eq_left (Nat.le_sub_of_add_le' full)]
  exact congrArg Except.ok (decodeChunk_longByte c (by decide) (by decide))

/-- The chunk of the `r` pixels of the tail, by how many they are. -/
theorem decode_oneColour_tail {i r : Nat} (pos : 1 ≤ r) (tail : i + r = s.N) :
    (9 ≤ r → r ≤ 71 → decode (.chunk (encPass s i).1) = .ok (.long c r)) ∧
    (7 ≤ r → r ≤ 8 → decode (.chunk (encPass s i).1) = .ok (.short c r 1)) ∧
    (r ≤ 6 → chunkExpansion (encPass s i).1 = List.replicate r c ++ List.replicate (6 - r) 0#1 ∧
      ∃ p, decode (.chunk (encPass s i).1) = .ok (.uncomp p)) := by
  have left : s.N - i = r := by omega
  refine ⟨fun long high => ?_, fun low high => ?_, fun few => ?_⟩
  · rw [encPass_oneColour_long same (by omega), left, Nat.min_eq_right high]
    exact congrArg Except.ok (decodeChunk_longByte c (by omega) high)
  · rw [encPass_oneColour_short same (by omega) (by omega), left]
    exact congrArg Except.ok (decodeChunk_shortByte c pos high (by decide) (by decide))
  · rw [encPass_oneColour_uncomp same (by omega) (by omega)]
    exact ⟨chunkExpansion_oneColour_uncomp same pos tail few, _,
      congrArg Except.ok (decodeChunk_uncompByte _)⟩

section
variable {u : State} {k : Nat} (session : Session s u k)
include session

/-- Pass `q` of such a session starts at pixel `71 * q`. -/
theorem Session.start_oneColour {q : Nat} (hq : q < k) : passStart s q = 71 * q :=
  passStart_oneColour same fun j hj => session.before j (Nat.lt_of_le_of_lt hj hq)

/-- A session of a raster of one colour has one pass for every 71 pixels begun. -/
theorem Session.count_oneColour (atEnd : passStart s k = s.N) : k = (s.N + 70) / 71 := by
  obtain ⟨last, rfl⟩ := Nat.exists_eq_add_of_le' (session.count_pos atEnd)
  have inside := session.before last (Nat.lt_succ_self last)
  rw [passStart, encPass_oneColour_next same inside] at atEnd
  rw [session.start_oneColour same (Nat.lt_succ_self last)] at inside atEnd
  have reached : s.N ≤ 71 * last + 71 := atEnd ▸ Nat.min_le_left _ _
  omega

/-- Chunk `q` of such a session is that of the pass at `71 * q`. -/
theorem Session.chunk_oneColour {q : Nat} (hq : q < k) :
    memRead u (s.outBase + BitVec.ofNat 32 (6 + q)) = (encPass s (71 * q)).1 := by
  rw [session.chunks q hq, session.start_oneColour same hq]

end

end

/-- A full chunk is one of the chunks, and its 71 pixels are in the image. -/
theorem fullChunk_bounds {n q : Nat} (full : q < n / 71) : q < (n + 70) / 71 ∧ 71 * q + 71 ≤ n := by omega

/-- The tail's chunk is one of the chunks. -/
theorem tailChunk_lt {n : Nat} (tail : n % 71 ≠ 0) : n / 71 < (n + 70) / 71 := by omega

/-- Settles O35: pass `q` starts at pixel `71 * q`, and what is left of the image there chooses its branch. -/
theorem oneColourRasterStream : Obligations.OneColourRasterStream := by
  unfold Obligations.OneColourRasterStream
  intro s t c hwf _ _ same h ht
  obtain ⟨-, -, -, u, k, session, atEnd, -, rfl⟩ := encRun_session hwf h ht
  obtain rfl := session.count_oneColour same atEnd
  have chunk : ∀ q < (s.N + 70) / 71, memRead (completed u) (s.outBase + BitVec.ofNat 32 (6 + q)) = (encPass s (71 * q)).1 :=
    fun q hq => (memRead_congr (completed_mem u) _).trans (session.chunk_oneColour same hq)
  refine ⟨session.outLen, fun q hq => ?_, fun r hr hr0 => ?_⟩
  · obtain ⟨before, full⟩ := fullChunk_bounds hq
    rw [chunk q before]
    exact decode_oneColour_full same full
  · subst hr
    rw [chunk _ (tailChunk_lt hr0)]
    obtain ⟨long, short, uncomp⟩ := decode_oneColour_tail same (Nat.pos_of_ne_zero hr0) (Nat.div_add_mod s.N 71)
    exact ⟨fun low => long low (Nat.le_of_lt (Nat.mod_lt _ (by decide))), short, uncomp⟩

/-! ### What the stream depends on (R160) -/

theorem passStart_congr {s s' : State} (same : ∀ i, encPass s' i = encPass s i) (k : Nat) : passStart s' k = passStart s k := by
  induction k with
  | zero => rfl
  | succ k ih => rw [passStart, passStart, ih, same]

/-- The header looks at the dimensions and the first pixel only. -/
theorem headerBytes_congr {s s' : State} (hg : geometryOk s) (hg' : geometryOk s') (dim : s'.rasterDim = s.rasterDim)
    (first : pix s' 0 = pix s 0) : headerBytes s' = headerBytes s := by
  rw [headerBytes_eq hg, headerBytes_eq hg', W_congr dim, H_congr dim, first]

/-- Pixels that agree inside the image agree everywhere: past its end both are the sentinel. -/
theorem pix_eq_of_inside {s s' : State} (dim : s'.rasterDim = s.rasterDim) (same : ∀ i < s.N, pix s' i = pix s i) (i : Nat) :
    pix s' i = pix s i := by
  rcases Nat.lt_or_ge i s.N with inside | past
  · exact same i inside
  · rw [pix_sentinel past, pix_sentinel (by rwa [N_congr dim])]

/-- The image end is reached once, so two sessions with the same positions have as many passes. -/
theorem Session.count_eq {s s' u u' : State} {k k' : Nat} (h : Session s u k) (h' : Session s' u' k') (atEnd : passStart s k = s.N)
    (atEnd' : passStart s' k' = s'.N) (dim : s'.rasterDim = s.rasterDim) (same : ∀ i, encPass s' i = encPass s i) : k' = k := by
  have size := N_congr dim
  rcases Nat.lt_trichotomy k' k with less | eq | more
  · have inside := h.before k' less
    rw [← passStart_congr same] at inside
    omega
  · exact eq
  · have inside := h'.before k more
    rw [passStart_congr same] at inside
    omega

/-- Settles O36: equal pixels give equal headers, equal passes and equally many of them. -/
theorem encoderIgnoresPitchAndPadding : Obligations.EncoderIgnoresPitchAndPadding := by
  unfold Obligations.EncoderIgnoresPitchAndPadding
  intro s s' t t' hwf hwf' _ _ dim pixels h ht h' ht'
  obtain ⟨hg, -, -, u, k, session, atEnd, -, rfl⟩ := encRun_session hwf h ht
  obtain ⟨hg', -, -, u', k', session', atEnd', -, rfl⟩ := encRun_session hwf' h' ht'
  have pixEq := pix_eq_of_inside dim pixels
  have passEq : ∀ i, encPass s' i = encPass s i := encPass_congr (N_congr dim) pixEq
  obtain rfl : k' = k := session.count_eq session' atEnd atEnd' dim passEq
  refine ⟨BitVec.eq_of_toNat_eq (session'.outLen.trans session.outLen.symm), fun j hj => ?_⟩
  rw [completed_enc, session.outLen] at hj
  rw [memRead_congr (completed_mem u), memRead_congr (completed_mem u')]
  rcases Nat.lt_or_ge j 6 with header | chunk
  · rw [session.header j header, session'.header j header]
    simp only [headerBytes_congr hg hg' dim (pixEq 0)]
  · obtain ⟨q, rfl⟩ := Nat.exists_eq_add_of_le chunk
    have hq : q < k' := by omega
    rw [session.chunks q hq, session'.chunks q hq, passStart_congr passEq, passEq]

end Sys2Proof.Machine
end

section
/-! PROOFS. Faults and results: how an instruction ends, why it raises its code, that a fault is precise and sticky, what becomes of
STATUS.INVALID_FORMAT, and the order of the checks on a register write (spec/60_exceptions.md R220 to R233). -/

namespace Sys2Proof.Machine

/-! ### Why an instruction raises a fault code (R221, R227) -/

/-- The cause, in `s`, of the code that `i` raises. No instruction raises ILLEGAL_CMD or BUSY_VIOLATION. -/
def FaultCause (i : Instr) (s : State) : FaultCode → Prop
  | .none | .illegalCmd | .busyViolation => False
  | .param => (i = .encInit ∨ i = .encRun) ∧ ¬ geometryOk s
  | .outOverflow =>
    ((i = .encInit ∨ i = .encRun) ∧ geometryOk s ∧ s.outCap.toNat < 6) ∨
      (i = .encStep ∧ s.enc.phase = .running ∧ s.enc.y.toNat < s.H ∧ s.outCap.toNat ≤ s.enc.outLen.toNat) ∨
      (i = .encRun ∧ ∃ k u v, exec .encInit s = .next u ∧ encSteps k u v ∧
        v.enc.phase = .running ∧ v.enc.y.toNat < v.H ∧ v.outCap.toNat ≤ v.enc.outLen.toNat)
  | .streamOverrun =>
    (i = .decPixel ∧ s.dec.state = .ready ∧ s.dec.len = 0#7 ∧ s.dec.len2 = 0#3 ∧ s.dec.limit.toNat ≤ s.dec.ptr.toNat) ∨
      (i = .decInit ∧ ¬ findsBadMagic s ∧ s.streamLen.toNat ≤ 6 ∧
        (s.streamLen.toNat = 6 →
          (headByte s 2 ≠ 0#8 ∨ headByte s 3 ≠ 0#8) ∧ (headByte s 4 ≠ 0#8 ∨ headByte s 5 ≠ 0#8))) ∨
      (s.streamLen.toNat ≤ 6 ∧ ∃ c w h, i = .header c w h ∧ w ≠ 0#16 ∧ h ≠ 0#16)
  | .decNotReady => i = .decPixel ∧ s.dec.state = .uninitialized
  | .encNotReady => i = .encStep ∧ s.enc.phase = .idle

theorem FaultCause.ne_none {i : Instr} {s : State} {c : FaultCode} (h : FaultCause i s c) : c ≠ .none := by
  rintro rfl
  exact h

/-- ENC_INIT's checks are also ENC_RUN's first checks (R154). -/
theorem faultCause_of_encInitFault {i : Instr} {s : State} {c : FaultCode} (hi : i = .encInit ∨ i = .encRun)
    (h : encInitFault s = some c) : FaultCause i s c := by
  rcases encInitFault_cases h with ⟨rfl, bad⟩ | ⟨rfl, good, full⟩
  · exact ⟨hi, bad⟩
  · exact .inl ⟨hi, good, full⟩

theorem faultCause_of_encStepFault {s : State} {c : FaultCode} (h : encStepFault s = some c) : FaultCause .encStep s c := by
  rcases encStepFault_cases h with ⟨rfl, idle⟩ | ⟨rfl, emitting, full⟩
  · exact ⟨rfl, idle⟩
  · obtain ⟨running, inside, -⟩ := (emits_iff s).1 emitting
    exact .inr (.inl ⟨rfl, running, inside, full⟩)

theorem faultCause_of_decPixelFault {s : State} {c : FaultCode} (h : decPixelFault s = some c) : FaultCause .decPixel s c := by
  rcases decPixelFault_cases h with ⟨rfl, uninitialized⟩ | ⟨rfl, ready, needs, past⟩
  · exact ⟨rfl, uninitialized⟩
  · obtain ⟨len, len2⟩ := (needsChunk_iff _).1 needs
    exact .inl ⟨rfl, ready, len, len2, past⟩

/-- A 16-bit header field is nonzero where one of its bytes is. -/
theorem byte_ne_zero_of_append {hi lo : Byte} (h : (hi ++ lo : Half) ≠ 0#16) : lo ≠ 0#8 ∨ hi ≠ 0#8 := by
  by_cases zero : lo = 0#8
  · subst zero
    refine .inr ?_
    rintro rfl
    exact h rfl
  · exact .inl zero

/-! ### How an instruction ends (R223, R226) -/

/-- `t` is what a fault leaves of `s`: at once the code and nothing else, or, of an ENC_RUN, the passes before one that has no room. -/
def EndsWithFault (i : Instr) (s t : State) : Prop :=
  (∃ c, FaultCause i s c ∧ t = { s with fault := c }) ∨
    (i = .encRun ∧ ∃ k u v, exec .encInit s = .next u ∧ encSteps k u v ∧ v.fault = s.fault ∧ emits v = true ∧
      v.outCap.toNat ≤ v.enc.outLen.toNat ∧ t = { v with fault := .outOverflow, invalidFormat := s.invalidFormat })

/-- `t` keeps the fault code of `s`: a chunk leaves STATUS.INVALID_FORMAT alone, bad magic sets it, and completing clears it. -/
def EndsWithoutFault (i : Instr) (s t : State) : Prop :=
  t.fault = s.fault ∧
    ((∃ b, encode i = .chunk b ∧ t.invalidFormat = s.invalidFormat) ∨
      (i = .decInit ∧ findsBadMagic s ∧ t.invalidFormat = true) ∨
      (¬ (i = .decInit ∧ findsBadMagic s) ∧ t.invalidFormat = false))

theorem EndsWithFault.atOnce {i : Instr} {s : State} {c : FaultCode} (cause : FaultCause i s c) :
    EndsWithFault i s { s with fault := c } :=
  .inl ⟨c, cause, rfl⟩

theorem EndsWithoutFault.completed {i : Instr} {s u : State} (fault : u.fault = s.fault) (good : ¬ (i = .decInit ∧ findsBadMagic s)) :
    EndsWithoutFault i s (completed u) :=
  ⟨fault, .inr (.inr ⟨good, rfl⟩)⟩

theorem Passes.results {s v : State} (h : Passes s v) : v.fault = s.fault ∧ v.invalidFormat = s.invalidFormat := by
  rw [h.frame]
  exact ⟨rfl, rfl⟩

theorem encRun_ends {s t : State} (h : exec .encRun s = .next t) :
    EndsWithFault .encRun s t ∨ EndsWithoutFault .encRun s t := by
  rcases encRun_cases h with ⟨c, hc, rfl⟩ | ⟨hf, ho, v, passes, ht⟩
  · exact .inl (.atOnce (faultCause_of_encInitFault (.inr rfl) hc))
  obtain ⟨fault, format⟩ := passes.results
  rw [encInitEffect_fault] at fault
  rw [encInitEffect_invalidFormat] at format
  rcases ht with rfl | ⟨c, running, hc, rfl⟩
  · exact .inr (.completed fault nofun)
  rcases encStepFault_cases hc with ⟨-, idle⟩ | ⟨rfl, emitting, full⟩
  · exact nomatch running.symm.trans idle
  obtain ⟨k, steps⟩ := passes.encSteps
  have kept : ({ v with fault := .outOverflow } : State) =
      { completed v with fault := .outOverflow, invalidFormat := s.invalidFormat } := by
    rw [← format]
    rfl
  rw [kept]
  exact .inl (.inr ⟨rfl, k, _, _, encInit_of_ok hf ho, steps, fault, emitting, full, rfl⟩)

theorem decInit_ends {s t : State} (h : exec .decInit s = .next t) :
    EndsWithFault .decInit s t ∨ EndsWithoutFault .decInit s t := by
  rcases decInit_cases h with ⟨rfl, good, short, six⟩ | ⟨rfl, bad⟩ | ⟨⟨d, rfl⟩, good⟩
  · exact .inl (.atOnce (.inr (.inl ⟨rfl, good, short, fun e => (six e).imp byte_ne_zero_of_append byte_ne_zero_of_append⟩)))
  · exact .inr ⟨rfl, .inr (.inl ⟨rfl, bad, rfl⟩)⟩
  · exact .inr (.completed rfl fun found => good found.2)

theorem exec_ends {i : Instr} {s t : State} (h : exec i s = .next t) : EndsWithFault i s t ∨ EndsWithoutFault i s t := by
  cases i with
  | long | uncomp | short => cases h; exact .inr ⟨rfl, .inl ⟨_, rfl, rfl⟩⟩
  | header c0 w ht =>
    rcases header_cases h with ⟨rfl, wide, tall, short⟩ | ⟨d, rfl⟩
    · exact .inl (.atOnce (.inr (.inr ⟨short, c0, w, ht, rfl, wide, tall⟩)))
    · exact .inr (.completed rfl nofun)
  | curReset => cases h; exact .inr (.completed rfl nofun)
  | curRead => cases h; exact .inr (.completed (curReadEffect_fault s) nofun)
  | encInit =>
    rcases encInit_cases h with ⟨c, hc, rfl⟩ | ⟨-, -, rfl⟩
    · exact .inl (.atOnce (faultCause_of_encInitFault (.inl rfl) hc))
    · exact .inr (.completed (encInitEffect_fault s) nofun)
  | encStep =>
    rcases encStep_cases h with ⟨c, hc, rfl⟩ | ⟨-, -, rfl⟩
    · exact .inl (.atOnce (faultCause_of_encStepFault hc))
    · exact .inr (.completed (encStepEffect_fault s) nofun)
  | encRun => exact encRun_ends h
  | decInit => exact decInit_ends h
  | decPixel =>
    rcases decPixel_cases h with ⟨c, hc, rfl⟩ | ⟨-, rfl⟩
    · exact .inl (.atOnce (faultCause_of_decPixelFault hc))
    · exact .inr (.completed (decPixelEffect_fault s) nofun)

/-- A fault that was not there before has its cause. -/
theorem exec_fault_cause {i : Instr} {s t : State} (hs : s.fault = .none) (h : exec i s = .next t) (raised : t.fault ≠ .none) :
    FaultCause i s t.fault := by
  rcases exec_ends h with (⟨c, cause, rfl⟩ | ⟨rfl, k, u, v, init, steps, -, emitting, full, rfl⟩) | ⟨fault, -⟩
  · exact cause
  · obtain ⟨running, inside, -⟩ := (emits_iff v).1 emitting
    exact .inr (.inr ⟨rfl, k, u, v, init, steps, running, inside, full⟩)
  · exact absurd (fault.trans hs) raised

/-! ### The code after a command, without a look at memory (R222) -/

theorem encInit_fault {s t : State} (h : exec .encInit s = .next t) : t.fault = (encInitFault s).getD s.fault := by
  rcases encInit_cases h with ⟨c, hc, rfl⟩ | ⟨hf, -, rfl⟩
  · simp [hc]
  · simp [hf]

theorem encStep_fault {s t : State} (h : exec .encStep s = .next t) : t.fault = (encStepFault s).getD s.fault := by
  rcases encStep_cases h with ⟨c, hc, rfl⟩ | ⟨hf, -, rfl⟩
  · simp [hc]
  · simp [hf]

theorem decPixel_fault {s t : State} (h : exec .decPixel s = .next t) : t.fault = (decPixelFault s).getD s.fault := by
  rcases decPixel_cases h with ⟨c, hc, rfl⟩ | ⟨hf, rfl⟩
  · simp [hc]
  · simp [hf]

theorem curReset_fault {s t : State} (h : exec .curReset s = .next t) : t.fault = s.fault := by
  cases h
  rfl

theorem curRead_fault {s t : State} (h : exec .curRead s = .next t) : t.fault = s.fault := by
  cases h
  exact curReadEffect_fault s

/-! ### Bad magic (R186) -/

theorem decInit_of_findsBadMagic {s : State} (bad : findsBadMagic s) : exec .decInit s = .next (badMagic s) := by
  obtain ⟨t, h⟩ := decInit_next s
  rcases decInit_cases h with ⟨-, good, -⟩ | ⟨rfl, -⟩ | ⟨-, good⟩
  · exact absurd bad good
  · exact h
  · exact absurd bad good

/-! ### Register accesses and a set fault (R224, R225, R233) -/

theorem hostWrite_of_busy {s : State} (hb : s.busy = true) (v : Word) {off : Nat} (aligned : off % 4 = 0)
    (inside : off < windowBytes) : hostWrite off 4 v s = writeWhileBusy s := by
  simp [hostWrite, accessAllowed_of_aligned aligned, Nat.not_le.2 inside, hb]

theorem writeWhileBusy_of_fault {s : State} (hf : s.fault ≠ .none) : writeWhileBusy s = .next s := by
  rw [writeWhileBusy, if_pos hf]

theorem writeWhileBusy_of_no_fault {s : State} (hf : s.fault = .none) : writeWhileBusy s = .next { s with fault := .busyViolation } := by
  rw [writeWhileBusy, if_neg (not_not_intro hf)]
  rfl

/-- The checks on a CMD write look at the fault first, busy or not (R227). -/
theorem hostWrite_cmd_of_fault (w : Word) {s : State} (hf : s.fault ≠ .none) : hostWrite 0 4 w s = .next s := by
  cases hb : s.busy with
  | false => rw [hostWrite_cmd w hb, writeCmd_of_fault w hf]
  | true => rw [hostWrite_of_busy hb w rfl (by decide), writeWhileBusy_of_fault hf]

theorem writeCmd_keeps_fault {v : Word} {s t : State} (hf : s.fault ≠ .none) (h : writeCmd v s = .next t) : t.fault = s.fault := by
  rw [writeCmd_of_fault v hf] at h
  cases h
  rfl

/-- A write of another register keeps the fault code, set or not. -/
theorem writeReg_keeps_fault {r : Reg} {v : Word} {s t : State} (hr : r ≠ .cmd) (h : writeReg r v s = .next t) : t.fault = s.fault := by
  rw [writeReg_frame hr h]

theorem hostWrite_keeps_fault {off bytes : Nat} {v : Word} {s t : State} (hf : s.fault ≠ .none)
    (h : hostWrite off bytes v s = .next t) : t.fault = s.fault := by
  rcases hostWrite_cases h with ⟨-, h⟩ | ⟨-, h⟩
  · rw [writeWhileBusy_of_fault hf] at h
    cases h
    rfl
  · by_cases hr : regAt (off / 4) = .cmd
    · rw [hr] at h
      exact writeCmd_keeps_fault hf h
    · exact writeReg_keeps_fault hr h

theorem perform_keeps_fault {a : HostAccess} {s t : State} (ha : a ≠ .reset) (hf : s.fault ≠ .none) (h : perform a s = .next t) :
    t.fault = s.fault := by
  cases a with
  | regWrite off bytes v => exact hostWrite_keeps_fault hf h
  | regRead off bytes => rw [hostRead_cases h]
  | memWrite a v => cases h; rfl
  | reset => exact absurd rfl ha

theorem step_keeps_fault {s t : State} (hf : s.fault ≠ .none) (noReset : ∀ rest, s.host.pending ≠ .reset :: rest)
    (h : step s = .next t) : t.fault = s.fault := by
  rcases step_cases h with ⟨-, rfl⟩ | ⟨a, rest, hp, h⟩
  · rfl
  · refine perform_keeps_fault (s := popHost rest s) ?_ hf h
    rintro rfl
    exact noReset rest hp

/-! ### The obligations -/

/-- Settles O42: of the ways a command ends, a fault keeps INVALID_FORMAT, bad magic sets it and completing clears it. -/
theorem invalidFormatRule : Obligations.InvalidFormatRule := by
  unfold Obligations.InvalidFormatRule
  refine ⟨fun s t i hi hs h => ?_, fun _ => decInit_of_findsBadMagic, fun _ w => writeCmd_of_fault w,
    fun s t h => by rw [hostRead_cases h]⟩
  rcases exec_ends h with (⟨c, cause, rfl⟩ | ⟨-, k, u, v, -, -, -, -, -, rfl⟩) | ⟨fault, ending⟩
  · exact ⟨fun _ => rfl, fun none => absurd none cause.ne_none⟩
  · exact ⟨fun _ => rfl, nofun⟩
  refine ⟨fun raised => absurd (fault.trans hs) raised, fun _ => ?_⟩
  rcases ending with ⟨b, chunk, -⟩ | ⟨rfl, bad, found⟩ | ⟨good, clear⟩
  · simp only [List.mem_cons, List.not_mem_nil, or_false] at hi
    rcases hi with rfl | rfl | rfl | rfl | rfl | rfl | rfl <;> cases chunk
  · exact ⟨fun _ => ⟨rfl, bad⟩, fun _ => found⟩
  · exact ⟨fun found => (nomatch clear.symm.trans found), fun bad => absurd bad good⟩

/-- Settles O43: of the ways an instruction ends, two raise a fault; in the second it is the fault of the ENC_STEP that is due. -/
theorem faultsArePrecise : Obligations.FaultsArePrecise := by
  unfold Obligations.FaultsArePrecise
  intro i s t hs h raised
  rcases exec_ends h with (⟨c, -, rfl⟩ | ⟨rfl, k, u, v, init, steps, fault, emitting, full, rfl⟩) | ⟨fault, -⟩
  · exact .inl rfl
  · exact .inr ⟨rfl, k, u, v, init, steps, fault.trans hs, encStep_of_fault (encStepFault_of_noRoom emitting full), rfl⟩
  · exact absurd (fault.trans hs) raised

/-- Settles O44: a raised code has its cause; the commands named check no memory; only bad magic sets INVALID_FORMAT. -/
theorem faultCodesAndCauses : Obligations.FaultCodesAndCauses := by
  unfold Obligations.FaultCodesAndCauses
  refine ⟨rfl, fun i s t hs h => ?_, fun s b => ⟨decodeChunk b, _, rfl, exec_decodeChunk b s, rfl⟩,
    fun s t u m i hi h h' => ?_, fun i s t h before after => ?_⟩
  · have cause : ∀ c ≠ FaultCode.none, t.fault = c → FaultCause i s c := by
      rintro _ raised rfl
      exact exec_fault_cause hs h raised
    exact ⟨cause .param nofun, cause .outOverflow nofun, cause .streamOverrun nofun, cause .decNotReady nofun,
      cause .encNotReady nofun, cause .illegalCmd nofun, cause .busyViolation nofun⟩
  · simp only [List.mem_cons, List.not_mem_nil, or_false] at hi
    rcases hi with rfl | rfl | rfl | rfl | rfl
    · exact (curReset_fault h').trans (curReset_fault h).symm
    · exact (curRead_fault h').trans (curRead_fault h).symm
    · exact (encInit_fault h').trans (encInit_fault h).symm
    · exact (encStep_fault h').trans (encStep_fault h).symm
    · exact (decPixel_fault h').trans (decPixel_fault h).symm
  · rcases exec_ends h with (⟨c, -, rfl⟩ | ⟨-, k, u, v, -, -, -, -, -, rfl⟩) | ⟨-, ⟨b, -, same⟩ | ⟨rfl, -⟩ | ⟨-, clear⟩⟩
    · exact nomatch before.symm.trans after
    · exact nomatch before.symm.trans after
    · exact nomatch before.symm.trans (same.symm.trans after)
    · rfl
    · exact nomatch clear.symm.trans after

/-- Settles O45: only CMD's write looks at the fault, only STATUS's read shows it, and of the host's accesses only reset changes a set
one. -/
theorem faultIsSticky : Obligations.FaultIsSticky := by
  unfold Obligations.FaultIsSticky
  refine ⟨fun s hf => ⟨fun w => writeCmd_of_fault w hf, fun r v t hr h => ?_, fun r hr => ?_, fun t => step_keeps_fault hf⟩,
    fun s rest hp => ⟨_, step_of_pending hp, rfl⟩⟩
  · cases r with
    | cmd => exact absurd rfl hr
    | _ => cases h; rfl
  · cases r with
    | status => exact absurd rfl hr
    | _ => rfl

/-- Settles O46: the fault is looked at first, then STATUS.BUSY, then the word. -/
theorem commandWriteCheckOrder : Obligations.CommandWriteCheckOrder := by
  unfold Obligations.CommandWriteCheckOrder
  refine fun s w => ⟨hostWrite_cmd_of_fault w, fun hf hb k hk => ?_, fun hf hb => ⟨fun r hd => ?_, fun i hd => ?_⟩⟩
  · have inside : 4 * k < windowBytes := Nat.mul_lt_mul_of_pos_left hk (by decide)
    rw [hostWrite_of_busy hb w (Nat.mul_mod_right 4 k) inside, writeWhileBusy_of_no_fault hf]
  · rw [hostWrite_cmd w hb, writeCmd_of_error hf hd]
  · rw [hostWrite_cmd w hb, writeCmd_of_decode hf hd]

end Sys2Proof.Machine
end
